-- ==== Sys2Proof/Word.lean ====
section
/-! DEFINITION. The machine's words: bytes, 32-bit registers, binary64 bit patterns and complex pairs of them
(spec 00_scope.md R10 to R15). The arithmetic on them is in Machine/Float.lean. -/

namespace Sys2Proof

/-- One byte of DMEM. -/
abbrev Byte := BitVec 8

/-- One register of the CSR window, one command word, one datum of the host's bus. -/
abbrev Word := BitVec 32

/-- The 64 bits of one IEEE 754 binary64 value (R14). -/
abbrev F64 := BitVec 64

/-- What IEEE 754 leaves open of a quiet NaN: its sign (the top bit here) and its 51 payload bits (I11). -/
abbrev NanBits := BitVec 52

/-- A complex value of two binary64 components (R12, `C64`). -/
structure C64 where
  /-- the real part, at the lower address (R63) -/
  re : F64
  /-- the imaginary part -/
  im : F64
deriving DecidableEq, Repr, Inhabited

/-- The sign of a transform's kernel exponent (R171): `minus` forward, `plus` inverse. -/
inductive DftSign where
  | minus
  | plus
deriving DecidableEq, Repr

end Sys2Proof
end

