-- ==== Sys2Proof/Syntax.lean ====
section
/-! DEFINITION. The commands of DWT-EMB (spec 30_encoding.md R90 to R99): one constructor for each row of
the opcode table, and the fields of the one command format. -/

namespace Sys2Proof

/-- A command. The flag `g` of the two embedders is the grid-source flag G (R92): `false` takes a payload that
QrEncode encodes, `true` takes a module grid of side TILE_L. -/
inductive Instr where
  /-- NOP, 40_command_control.md R116 -/
  | nop
  /-- QR_ENCODE, 41_qr_encoder.md R130 -/
  | qrEncode
  /-- TILE_INDEX, 42_tiling.md R140 -/
  | tileIndex
  /-- TILE_MAP, 42_tiling.md R142 -/
  | tileMap
  /-- LSB_EMBED, 43_lsb.md R150 -/
  | lsbEmbed (g : Bool)
  /-- LSB_EXTRACT, 43_lsb.md R153 -/
  | lsbExtract
  /-- FFT_EMBED, 44_fft.md R180 -/
  | fftEmbed (g : Bool)
  /-- FFT_EXTRACT, 44_fft.md R195 -/
  | fftExtract
  /-- MAX, 45_normalization.md R210 -/
  | max
  /-- NORMALIZE, 45_normalization.md R214 -/
  | normalize
  /-- FFT2, 44_fft.md R174 -/
  | fft2
  /-- IFFT2, 44_fft.md R176 -/
  | ifft2
deriving DecidableEq, Repr

/-- The three fields of a command word (R90), before any is judged legal. -/
structure CmdFields where
  /-- OPC, bits 7:0 (R91) -/
  opc : BitVec 8
  /-- G, bit 8 (R92) -/
  g : Bool
  /-- RSV, bits 31:9 (R93) -/
  rsv : BitVec 23
deriving DecidableEq, Repr

end Sys2Proof
end

