-- ==== Sys2Proof/Machine/State.lean ====
section
/-! DEFINITION. All the state of the machine (spec 10_state.md), as plain data, and its value after reset. -/

namespace Sys2Proof.Machine

/-- The twelve operand registers (10_state.md R20, R29 to R35). -/
structure Operands where
  /-- SRC, R29 -/
  src : Word
  /-- DST, R29 -/
  dst : Word
  /-- AUX, R29 -/
  aux : Word
  /-- LEN, R30 -/
  len : Word
  /-- WIDTH, R31 -/
  width : Word
  /-- HEIGHT, R31 -/
  height : Word
  /-- NCHAN, R32 -/
  nchan : Word
  /-- TILE_L, R33 -/
  tileL : Word
  /-- X, R34 -/
  x : Word
  /-- Y, R34 -/
  y : Word
  /-- FACTOR_LO, R35 -/
  factorLo : Word
  /-- FACTOR_HI, R35 -/
  factorHi : Word
deriving DecidableEq, Repr

/-- The reset values of the operand registers (10_state.md R23). -/
def Operands.reset : Operands :=
  { src := 0, dst := 0, aux := 0, len := 0, width := 0, height := 0, nchan := 3, tileL := 177,
    x := 0, y := 0, factorLo := 0, factorHi := 0 }

/-- DMEM (10_state.md R43): the bytes that differ from what power-on left, addresses strictly rising.
`cycle` numbers the power-on whose draw fills every other byte (the model's own field, log 13). -/
structure Memory where
  cycle : Nat
  cells : List Host.Cell
deriving DecidableEq, Repr

/-- The STATUS register's fields (10_state.md R26); its reserved bits have no storage (R39). -/
structure Status where
  /-- bit 0 -/
  busy : Bool
  /-- bit 1 -/
  done : Bool
  /-- bit 2 -/
  err : Bool
  /-- bits 7:4 -/
  errcode : BitVec 4
  /-- bit 8 -/
  ovr : Bool
deriving DecidableEq, Repr

/-- STATUS after reset (10_state.md R26). -/
def Status.reset : Status := { busy := false, done := false, err := false, errcode := 0, ovr := false }

/-- What the engine latches at accept (10_state.md R40; 40_command_control.md R110): the arguments of `Exec`. -/
structure Job where
  /-- the command word -/
  word : Word
  /-- the operand registers at accept -/
  latched : Operands
  /-- DMEM at accept -/
  snap : Memory
deriving DecidableEq, Repr

/-- The engine (10_state.md R40). `disturbed` is the model's own mark that the host wrote DMEM while this command
was running (20_memory.md R70 item 3; log 16). -/
inductive Engine where
  | idle
  | busy (job : Job) (disturbed : Bool)
deriving DecidableEq, Repr

/-- One thing that can happen next (log 1): the engine's turn, a host bus access, or the platform's power-on
reset. `width` counts bytes and `addr` is a host bus address (20_memory.md R61, R62). -/
inductive Event where
  /-- the engine takes its step if it has one (40_command_control.md R113) -/
  | engine
  /-- the host reads -/
  | read (width addr : Nat)
  /-- the host writes the low `8 * width` bits of `value` -/
  | write (width addr : Nat) (value : Word)
  /-- the platform asserts the power-on reset input (70_reset_and_hazards.md R260) -/
  | powerOn
deriving DecidableEq, Repr

/-- The whole machine. -/
structure State where
  /-- CTRL.IRQ_EN (10_state.md R25) -/
  irqEn : Bool
  /-- STATUS (10_state.md R26) -/
  status : Status
  /-- CMD, the last accepted command word (10_state.md R28) -/
  cmd : Word
  /-- the operand registers (10_state.md R29 to R35) -/
  ops : Operands
  /-- RESULT_LO (10_state.md R36) -/
  resultLo : Word
  /-- RESULT_HI (10_state.md R36) -/
  resultHi : Word
  /-- the engine (10_state.md R40) -/
  engine : Engine
  /-- DMEM (10_state.md R43) -/
  dmem : Memory
  /-- the model's own: what happens next, oldest first (log 1) -/
  events : List Event
  /-- the model's own: the data of the last host read (log 18) -/
  readData : Word
  /-- the model's own: how many free bytes have been drawn (log 14) -/
  draws : Nat
deriving DecidableEq, Repr

/-- The machine right after power-on reset (70_reset_and_hazards.md R260; 10_state.md R23, R44). -/
def State.reset : State :=
  { irqEn := false, status := Status.reset, cmd := 0, ops := Operands.reset, resultLo := 0, resultHi := 0,
    engine := .idle, dmem := { cycle := 0, cells := [] }, events := [], readData := 0, draws := 0 }

/-- Why the machine stops with a fault. -/
inductive Fault where
  /-- Raised by a host access to a bus address that is in neither window of the block (20_memory.md R61, R62;
  I5: no step; log 4). Safe: the model stops where a platform may go on. -/
  | unmappedHostAddress
  /-- Raised by `exec` on an engine that is Idle, which has no step (10_state.md R22). No step of the machine
  reaches it (log 3). Safe. -/
  | engineIdle
deriving DecidableEq, Repr

/-- Why the machine refuses. -/
inductive Refusal where
  /-- Raised by an arm of `exec` whose instruction has no meaning yet. Safe. No arm does. -/
  | notModelled (mnemonic : String)
  /-- Raised by a host access to the CSR window that is not an aligned 32-bit access: the model has no step for it
  (20_memory.md R62; I5 "refuse"; log 4). Safe. -/
  | csrAccessForm
  /-- Raised by a host access to DMEM that is misaligned or not 1, 2 or 4 bytes wide: the model has no step for it
  (20_memory.md R61; I5 "refuse"; log 4). Safe. -/
  | dmemAccessForm
deriving DecidableEq, Repr

end Sys2Proof.Machine
end

