-- ==== Sys2Proof/Config.lean ====
section
/-! DEFINITION. What an implementation fixes (spec 00_scope.md R8, R9) and every value the spec leaves open, as
opaque constants: nothing can be proved of their values, so a claim holds whatever they are. -/

namespace Sys2Proof.Config

open Sys2Proof.Machine (Job)

/-! ### Fixed parameters (R8, R9) -/

/-- `M`, the side of a version-40 module grid: `QR_VERSION * 4 + 17` (R8). -/
def gridSide : Nat := 177

/-- The largest legal WIDTH, HEIGHT and TILE_L (R9, D32). -/
def maxDim : Nat := 65535

/-- The perturbation added at a true module, as the STRENGTH register shows it (R8, R37). -/
def strength : Nat := 32

/-! ### Platform parameters (R9, D5) -/

/-- Chooses DMEM_BYTES among its legal values (log 5). -/
opaque dmemChoice : Nat

/-- DMEM_BYTES: a multiple of 8 from 2^16 to 2^31, any of them (R9; log 5). -/
def dmemBytes : Nat := 8 * (dmemChoice % 268427265) + 65536

/-- The lower of the two window bases (log 6). -/
opaque lowBase : Nat

/-- The bytes between the two windows (log 6). -/
opaque windowGap : Nat

/-- Whether the CSR window lies below DMEM (log 6). -/
opaque csrFirst : Bool

/-- The size of the CSR window in bytes (10_state.md R23). -/
def csrBytes : Nat := 4096

/-- CSR_BASE (R9). The two windows do not overlap (20_memory.md R68). -/
def csrBase : Nat := if csrFirst then lowBase else lowBase + dmemBytes + windowGap

/-- DMEM_BASE (R9). -/
def dmemBase : Nat := if csrFirst then lowBase + csrBytes + windowGap else lowBase

/-- Chooses QR_CAPACITY (log 7). -/
opaque qrCapacityChoice : Nat

/-- QR_CAPACITY (41_qr_encoder.md R132), a parameter whose default is 1273: any number of bytes up to 3916, the most
that 31329 modules can hold so that a decoder reads the payload back (R131 Q2, Q6; log 7). -/
def qrCapacity : Nat := qrCapacityChoice % 3917

/-- QR_CAPACITY's default (R9, K1). -/
def qrCapacityDefault : Nat := 1273

/-- NORM_TOL's default, 1e-9 (R9, I12). -/
def normTolDefault : ℚ := 1 / 1000000000

/-- FFT_TOL's default, 1e-6 (R9, I12). -/
def fftTolDefault : ℚ := 1 / 1000000

/-- Chooses FFT_TOL (log 28). -/
opaque fftTolChoice : ℚ

/-- FFT_TOL (R9, I12), a parameter: any tolerance from the default up. A kernel that keeps a smaller one keeps the default
too, so no kernel is left out (log 28). -/
def fftTol : ℚ := max fftTolDefault fftTolChoice

/-! ### The QR encoder (41_qr_encoder.md R131; log 8) -/

/-- The module at a cell of the version-40, level-H symbol of a payload; `true` is dark (Q4, Q5). -/
opaque qrModule : List Byte → Fin 31329 → Bool

/-! ### The numeric kernel beyond N1 to N3 (44_fft.md R170, I1; log 9). Its 1D transform for lengths of 3 and more is in
Machine/Kernel.lean (N4) -/

/-- The scalar functions of Num. -/
inductive NumFn where
  | abs
  | arg
  | log10
  | pow10
  | cos
  | sin
deriving DecidableEq, Repr

/-- `Num.abs` where N3 says nothing. -/
opaque numAbs : F64 → F64 → F64
/-- `Num.arg` where N3 says nothing. -/
opaque numArg : F64 → F64 → F64
/-- `Num.log10` where N3 says nothing. -/
opaque numLog10 : F64 → F64
/-- `Num.pow10` where N3 says nothing. -/
opaque numPow10 : F64 → F64
/-- `Num.cos` where N3 says nothing. -/
opaque numCos : F64 → F64
/-- `Num.sin` where N3 says nothing. -/
opaque numSin : F64 → F64
/-- The NaN a scalar function of Num gives for NaN arguments (N3, I11). -/
opaque numNan : NumFn → List F64 → NanBits
/-- Which component of an output of `Num.dft1` is certainly NaN when an input is: the real one or the imaginary one
(N3; log 11). -/
opaque dftNanInReal : DftSign → List C64 → Nat → Bool
/-- The NaN bits of component `k` (counted re, im, re, im, …) of an output of `Num.dft1` (N2, N3, I11). -/
opaque dftNan : DftSign → List C64 → Nat → NanBits

/-! ### Free values -/

/-- The sign and payload of a NaN that a `+ - * /` of a command produces, at a place of the command's computation
(I11; log 12): `stage` and `index` name the place. -/
opaque nanBits : Job → (stage index : Nat) → NanBits

/-- A DMEM byte that nothing has written since power-on number `cycle` (70_reset_and_hazards.md R260, I8; log 13). -/
opaque powerOnByte : (cycle addr : Nat) → Byte

/-- The `n`-th byte that takes "any value" (I3, I6, I7; log 14). -/
opaque freeByte : (n : Nat) → Byte

end Sys2Proof.Config
end

