-- ==== Sys2Proof/WellFormed.lean ====
section
/-! DEFINITION. Which command words are legal (spec 30_encoding.md R91 to R93, R97): the three checks on a
word's fields, one Bool each. The decoder of R99 makes its own checks (Decode.lean). Laws/Encoding.lean proves that it accepts
exactly the well-formed words. -/

namespace Sys2Proof

/-- RSV must be 0 (R93). -/
def CmdFields.rsvZero (f : CmdFields) : Bool := f.rsv == 0

/-- Opcodes 0x00 to 0x0B are defined, the others reserved (R91, R97). -/
def CmdFields.opcDefined (f : CmdFields) : Bool := decide (f.opc.toNat ≤ 0x0B)

/-- G is legal only with LSB_EMBED and FFT_EMBED (R92). -/
def CmdFields.gLegal (f : CmdFields) : Bool := !f.g || f.opc == 0x04 || f.opc == 0x06

/-- A command word's fields are legal: none of the three checks of R99 rejects them. -/
def CmdFields.wf (f : CmdFields) : Bool := f.rsvZero && f.opcDefined && f.gLegal

end Sys2Proof
end

