-- ==== Sys2Proof/Decode.lean ====
section
/-! DEFINITION. The decoder of spec 30_encoding.md R99, total on all 2^32 words, and the encoder of R96. -/

namespace Sys2Proof

/-- Why a word is no command. Each of them is the error BadCommand (R97, R230 code 4). -/
inductive DecodeError where
  /-- RSV is not 0 (R93) -/
  | reservedBits
  /-- OPC is 0x0C or higher (R97) -/
  | reservedOpcode
  /-- G = 1 with a command that has no grid source (R92) -/
  | gNotAllowed
deriving DecidableEq, Repr

/-- The fields of a word (R90). -/
def splitWord (w : Word) : CmdFields :=
  { opc := w.extractLsb' 0 8, g := w.getLsbD 8, rsv := w.extractLsb' 9 23 }

/-- The word of three fields (R90). -/
def joinFields (f : CmdFields) : Word := f.rsv ++ BitVec.ofBool f.g ++ f.opc

/-- The opcode of a command (R96). -/
def Instr.opc : Instr → BitVec 8
  | .nop => 0x00
  | .qrEncode => 0x01
  | .tileIndex => 0x02
  | .tileMap => 0x03
  | .lsbEmbed _ => 0x04
  | .lsbExtract => 0x05
  | .fftEmbed _ => 0x06
  | .fftExtract => 0x07
  | .max => 0x08
  | .normalize => 0x09
  | .fft2 => 0x0A
  | .ifft2 => 0x0B

/-- The grid-source flag of a command (R92). -/
def Instr.gFlag : Instr → Bool
  | .lsbEmbed g => g
  | .fftEmbed g => g
  | .nop => false
  | .qrEncode => false
  | .tileIndex => false
  | .tileMap => false
  | .lsbExtract => false
  | .fftExtract => false
  | .max => false
  | .normalize => false
  | .fft2 => false
  | .ifft2 => false

/-- The fields of a command's word (R90, R96). -/
def Instr.fields (i : Instr) : CmdFields := { opc := i.opc, g := i.gFlag, rsv := 0 }

/-- A command is well-formed when its word's fields are legal. -/
def Instr.wf (i : Instr) : Bool := i.fields.wf

/-- The command an opcode names, with the flag G where it takes one (R96). -/
def commandOf (opc : BitVec 8) (g : Bool) : Except DecodeError Instr :=
  match opc.toNat with
  | 0x00 => .ok .nop
  | 0x01 => .ok .qrEncode
  | 0x02 => .ok .tileIndex
  | 0x03 => .ok .tileMap
  | 0x04 => .ok (.lsbEmbed g)
  | 0x05 => .ok .lsbExtract
  | 0x06 => .ok (.fftEmbed g)
  | 0x07 => .ok .fftExtract
  | 0x08 => .ok .max
  | 0x09 => .ok .normalize
  | 0x0A => .ok .fft2
  | 0x0B => .ok .ifft2
  | _ => .error .reservedOpcode

/-- The decoder (R99): the checks in the rule's order, then the command. -/
def decode (w : Word) : Except DecodeError Instr :=
  let f := splitWord w
  if f.rsv ≠ 0 then .error .reservedBits
  else if f.opc.toNat > 0x0B then .error .reservedOpcode
  else if f.g = true ∧ f.opc ≠ 0x04 ∧ f.opc ≠ 0x06 then .error .gNotAllowed
  else commandOf f.opc f.g

/-- The word of a command (R96). -/
def encode (i : Instr) : Word := joinFields i.fields

/-- The command whose word has the bits `w` in a table row of `nbits` bits, every higher bit 0. A command is one
32-bit word (R98), so a number that does not fit in 32 bits is no command. -/
def decodeTableWord (nbits w : Nat) : Option Instr :=
  let bits := w % 2 ^ nbits
  if bits < 2 ^ 32 then
    match decode (BitVec.ofNat 32 bits) with
    | .ok i => some i
    | .error _ => none
  else none

end Sys2Proof
end

