-- ==== Sys2Proof/Machine/Flags.lean ====
section
/-! DEFINITION. The only flags of the block: the fields of STATUS and CTRL (spec 10_state.md R25 to R27), the error
codes (60_exceptions.md R230) and the interrupt output (R238). No command sets a flag by its arithmetic (R27). -/

namespace Sys2Proof.Machine

/-- The errors a command can raise (60_exceptions.md R230). -/
inductive CmdError where
  | payloadTooLarge
  | dimensionMismatch
  | degenerateNormalization
  | badCommand
  | badAddress
  | unimplemented
deriving DecidableEq, Repr

/-- The code of an error (R230). -/
def CmdError.code : CmdError → BitVec 4
  | .payloadTooLarge => 1
  | .dimensionMismatch => 2
  | .degenerateNormalization => 3
  | .badCommand => 4
  | .badAddress => 5
  | .unimplemented => 6

/-- STATUS as the host reads it (10_state.md R26); reserved bits read 0 (R39). -/
def Status.toWord (t : Status) : Word :=
  (0 : BitVec 23) ++ BitVec.ofBool t.ovr ++ t.errcode ++ (0 : BitVec 1) ++ BitVec.ofBool t.err ++
    BitVec.ofBool t.done ++ BitVec.ofBool t.busy

/-- CTRL as the host reads it (10_state.md R25): SOFT_RESET and the reserved bits read 0. -/
def ctrlWord (irqEn : Bool) : Word := (BitVec.ofBool irqEn).zeroExtend 32

/-- A host write to STATUS (R26): writing 1 to DONE, ERR or OVR clears it; every other bit is ignored. -/
def Status.w1c (t : Status) (v : Word) : Status :=
  { t with done := t.done && !v.getLsbD 1, err := t.err && !v.getLsbD 2, ovr := t.ovr && !v.getLsbD 8 }

/-- STATUS at accept (40_command_control.md R110): OVR is kept. -/
def Status.accepted (t : Status) : Status :=
  { t with busy := true, done := false, err := false, errcode := 0 }

/-- STATUS at a successful completion (40_command_control.md R113). -/
def Status.succeeded (t : Status) : Status := { t with busy := false, done := true }

/-- STATUS at a failed completion (40_command_control.md R113; 60_exceptions.md R236). -/
def Status.failed (t : Status) (e : CmdError) : Status :=
  { t with busy := false, err := true, errcode := e.code }

/-- STATUS at a dropped CMD write (40_command_control.md R111). -/
def Status.overrun (t : Status) : Status := { t with ovr := true }

/-- The interrupt output, a level (10_state.md R41; 60_exceptions.md R238). -/
def State.irq (s : State) : Bool := s.irqEn && (s.status.done || s.status.err)

end Sys2Proof.Machine
end

