-- ==== Sys2Proof/Machine/Operands.lean ====
section
/-! DEFINITION. Operand forms: the regions each command uses (spec 30_encoding.md R95, 20_memory.md R63) and the shared
checks (40_command_control.md R117 to R119, 20_memory.md R64, R65), in unbounded integers. -/

namespace Sys2Proof.Machine

/-- `FACTOR = {FACTOR_HI, FACTOR_LO}` (10_state.md R35). -/
def Operands.factor (o : Operands) : F64 := o.factorHi ++ o.factorLo

/-- A range of DMEM with the alignment its base must have (20_memory.md R64). -/
structure Region where
  base : Nat
  size : Nat
  align : Nat
deriving DecidableEq, Repr

/-- An address lies in a region. -/
def Region.has (r : Region) (a : Nat) : Bool := decide (r.base ≤ a) && decide (a < r.base + r.size)

/-- `legal` (20_memory.md R64). -/
def Region.legal (r : Region) : Bool :=
  decide (r.base % r.align = 0) && decide (r.base + r.size ≤ Config.dmemBytes)

/-- Two regions overlap (20_memory.md R65). -/
def Region.overlaps (r q : Region) : Bool :=
  decide (0 < r.size) && decide (0 < q.size) && decide (r.base < q.base + q.size) &&
    decide (q.base < r.base + r.size)

/-- The addresses of a region that DMEM has, rising. -/
def Region.addrs (r : Region) : List Nat :=
  (List.range (min (r.base + r.size) Config.dmemBytes - r.base)).map (r.base + ·)

/-- The side of a command's grid: 177 for a payload, TILE_L for a direct grid (R118, before its check). -/
def gridSideOf (g : Bool) (o : Operands) : Nat := if g then o.tileL.toNat else Config.gridSide

/-- The region of an embedder's grid source (43_lsb.md R150): the payload, or the direct grid. -/
def gridRegion (g : Bool) (o : Operands) : Region :=
  { base := o.src.toNat, size := if g then o.tileL.toNat * o.tileL.toNat else o.len.toNat, align := 1 }

/-- `W * H` of the latched registers. -/
def Operands.area (o : Operands) : Nat := o.width.toNat * o.height.toNat

/-- The SRC region of a command (30_encoding.md R95). -/
def srcRegion (i : Instr) (o : Operands) : Option Region :=
  match i with
  | .nop => none
  | .qrEncode => some { base := o.src.toNat, size := o.len.toNat, align := 1 }
  | .tileIndex => none
  | .tileMap => none
  | .lsbEmbed g => some (gridRegion g o)
  | .lsbExtract => some { base := o.src.toNat, size := 3 * o.area, align := 1 }
  | .fftEmbed g => some (gridRegion g o)
  | .fftExtract => none
  | .max => some { base := o.src.toNat, size := 8 * o.len.toNat, align := 8 }
  | .normalize => none
  | .fft2 => some { base := o.src.toNat, size := 16 * o.area * o.nchan.toNat, align := 8 }
  | .ifft2 => some { base := o.src.toNat, size := 16 * o.area * o.nchan.toNat, align := 8 }

/-- The DST region of a command (30_encoding.md R95). -/
def dstRegion (i : Instr) (o : Operands) : Option Region :=
  match i with
  | .nop => none
  | .qrEncode => some { base := o.dst.toNat, size := Config.gridSide * Config.gridSide, align := 1 }
  | .tileIndex => none
  | .tileMap => some { base := o.dst.toNat, size := 4 * o.area, align := 4 }
  | .lsbEmbed _ => some { base := o.dst.toNat, size := 3 * o.area, align := 1 }
  | .lsbExtract => some { base := o.dst.toNat, size := o.area, align := 1 }
  | .fftEmbed _ => some { base := o.dst.toNat, size := 3 * o.area, align := 1 }
  | .fftExtract => none
  | .max => none
  | .normalize => some { base := o.dst.toNat, size := 8 * o.len.toNat, align := 8 }
  | .fft2 => some { base := o.dst.toNat, size := 16 * o.area * o.nchan.toNat, align := 8 }
  | .ifft2 => some { base := o.dst.toNat, size := 16 * o.area * o.nchan.toNat, align := 8 }

/-- The AUX region of a command (30_encoding.md R95): FFT_EMBED's scratch. -/
def auxRegion (i : Instr) (o : Operands) : Option Region :=
  match i with
  | .nop => none
  | .qrEncode => none
  | .tileIndex => none
  | .tileMap => none
  | .lsbEmbed _ => none
  | .lsbExtract => none
  | .fftEmbed _ => some { base := o.aux.toNat, size := 96 * o.area, align := 8 }
  | .fftExtract => none
  | .max => none
  | .normalize => none
  | .fft2 => none
  | .ifft2 => none

/-- Whether SRC and DST of a command may coincide exactly (20_memory.md R65; 40_command_control.md R119). -/
def mayCoincide : Instr → Bool
  | .fft2 => true
  | .ifft2 => true
  | .nop => false
  | .qrEncode => false
  | .tileIndex => false
  | .tileMap => false
  | .lsbEmbed _ => false
  | .lsbExtract => false
  | .fftEmbed _ => false
  | .fftExtract => false
  | .max => false
  | .normalize => false

/-- An address lies in an optional region. -/
def inRegion (r : Option Region) (a : Nat) : Bool :=
  match r with
  | some r => r.has a
  | none => false

/-- A condition of a command's check: `raise e` unless it holds (00_scope.md R13). -/
def require (ok : Bool) (e : CmdError) : Except CmdError Unit := if ok then .ok () else .error e

/-- A legal extent or tile side (R117, R118). -/
def legalDim (n : Nat) : Bool := decide (1 ≤ n) && decide (n ≤ Config.maxDim)

/-- `dims()` (40_command_control.md R117). -/
def dims (o : Operands) : Except CmdError Unit :=
  require (legalDim o.width.toNat && legalDim o.height.toNat) .dimensionMismatch

/-- `pixdims()` (R117). -/
def pixdims (o : Operands) : Except CmdError Unit := do
  dims o
  require (o.nchan.toNat == 3) .dimensionMismatch

/-- `chdims()` (R117). -/
def chdims (o : Operands) : Except CmdError Unit := do
  dims o
  require (decide (1 ≤ o.nchan.toNat) && decide (o.nchan.toNat ≤ 255)) .dimensionMismatch

/-- `side(g)` (40_command_control.md R118). -/
def side (g : Bool) (o : Operands) : Except CmdError Unit :=
  require (!g || legalDim o.tileL.toNat) .dimensionMismatch

/-- The dimension checks of each command (60_exceptions.md R233 item 3; R230 code 2). -/
def dimChecks (i : Instr) (o : Operands) : Except CmdError Unit :=
  match i with
  | .nop => .ok ()
  | .qrEncode => .ok ()
  | .tileIndex => side true o
  | .tileMap => do
    dims o
    side true o
  | .lsbEmbed g => do
    pixdims o
    side g o
  | .lsbExtract => pixdims o
  | .fftEmbed g => do
    pixdims o
    side g o
  | .fftExtract => .ok ()
  | .max => require (o.len.toNat != 0) .dimensionMismatch
  | .normalize => require (o.len.toNat != 0) .dimensionMismatch
  | .fft2 => chdims o
  | .ifft2 => chdims o

/-- Two regions of a command may lie as they do (40_command_control.md R119): no overlap, or, where the pair may
coincide, the same base and size. -/
def apart (same : Bool) (r q : Option Region) : Bool :=
  match r, q with
  | some r, some q => !r.overlaps q || (same && r.base == q.base && r.size == q.size)
  | _, _ => true

/-- An optional region is legal. -/
def legalOrNone (r : Option Region) : Bool :=
  match r with
  | some r => r.legal
  | none => true

/-- `regions(rs, same_ok)` of a command (40_command_control.md R119): every region legal, every pair apart. -/
def regions (i : Instr) (o : Operands) : Except CmdError Unit :=
  let src := srcRegion i o
  let dst := dstRegion i o
  let aux := auxRegion i o
  require (legalOrNone src && legalOrNone dst && legalOrNone aux && apart (mayCoincide i) src dst &&
    apart false src aux && apart false dst aux) .badAddress

/-- The checks a command makes before it reads any data, in the order of 60_exceptions.md R233. -/
def checks (i : Instr) (o : Operands) : Except CmdError Unit := do
  dimChecks i o
  regions i o

/-- The regions of a command, as 30_encoding.md R95 gives them for any shape, pass the region checks. -/
def regionsPass (i : Instr) (o : Operands) : Bool :=
  match regions i o with
  | .ok _ => true
  | .error _ => false

/-- The destination bytes of a command (30_encoding.md R95) that DMEM has. -/
def destAddrs (i : Instr) (o : Operands) : List Nat :=
  match dstRegion i o with
  | some r => r.addrs
  | none => []

/-- The scratch bytes of a command that DMEM has. -/
def auxAddrs (i : Instr) (o : Operands) : List Nat :=
  match auxRegion i o with
  | some r => r.addrs
  | none => []

/-- The bytes that hold unspecified values after an FFT_EMBED (44_fft.md R193, 60_exceptions.md R236): the bytes of
AUX, but for bytes of SRC and DST, which a failing command leaves alone (log 15). -/
def scratchAddrs (i : Instr) (o : Operands) : List Nat :=
  (auxAddrs i o).filter fun a => !inRegion (srcRegion i o) a && !inRegion (dstRegion i o) a

end Sys2Proof.Machine
end

