-- ==== Sys2Proof/Machine/Ops.lean ====
section
/-! DEFINITION. The named operations over DMEM and the command lifecycle: reading and writing bytes (spec 20_memory.md
R60, 00_scope.md R12), accept (40_command_control.md R110), completion (R113), failed completion
(60_exceptions.md R236), abort and the two resets (70_reset_and_hazards.md R260, R262). -/

namespace Sys2Proof.Machine

/-! ### DMEM -/

/-- What the cells from a sorted list hold at an address; `none` where nothing is listed. -/
def findCell (a : Nat) : List Host.Cell → Option Byte
  | [] => none
  | c :: rest => if a = c.1 then some c.2 else if a < c.1 then none else findCell a rest

/-- What a byte of DMEM that nothing has written reads as (70_reset_and_hazards.md R260; log 13). -/
def Memory.unwritten (m : Memory) (a : Nat) : Byte := Config.powerOnByte m.cycle a

/-- `U8(a)` (00_scope.md R12). -/
def Memory.readByte (m : Memory) (a : Nat) : Byte :=
  match findCell a m.cells with
  | some b => b
  | none => m.unwritten a

/-- Put a cell into a sorted list, or, with `keep` false, take the address out of it. -/
def setCell (keep : Bool) (a : Nat) (b : Byte) : List Host.Cell → List Host.Cell
  | [] => if keep then [(a, b)] else []
  | c :: rest =>
    if a < c.1 then (if keep then (a, b) :: c :: rest else c :: rest)
    else if a = c.1 then (if keep then (a, b) :: rest else rest)
    else c :: setCell keep a b rest

/-- `U8(a) <- b`, keeping the canonical form: a byte that an unlisted address reads as is not listed. -/
def Memory.writeByte (m : Memory) (a : Nat) (b : Byte) : Memory :=
  { m with cells := setCell (b != m.unwritten a) a b m.cells }

/-- The cells, applied first to last. -/
def Memory.writeCells (m : Memory) : List Host.Cell → Memory
  | [] => m
  | c :: rest => (m.writeByte c.1 c.2).writeCells rest

/-- The canonical form: addresses strictly rising, and no entry equal to what an unlisted address reads as. -/
abbrev Memory.wf (m : Memory) : Prop :=
  m.cells.Pairwise (fun c d => c.1 < d.1) ∧ ∀ c ∈ m.cells, c.2 ≠ m.unwritten c.1

/-- Every listed address is an address of DMEM (10_state.md R43). -/
abbrev Memory.inRange (m : Memory) : Prop := ∀ c ∈ m.cells, c.1 < Config.dmemBytes

/-- `MemRead(a, n)` (00_scope.md R12): little-endian (20_memory.md R60). -/
def Memory.readLE (m : Memory) (a : Nat) : Nat → Nat
  | 0 => 0
  | n + 1 => (m.readByte a).toNat + 256 * m.readLE (a + 1) n

/-- The `n` low bytes of a number, least significant first: what `MemWrite(a, n, v)` stores (R12, R60). -/
def leBytes : Nat → Nat → List Byte
  | 0, _ => []
  | n + 1, v => BitVec.ofNat 8 v :: leBytes n (v / 256)

/-- `F64(a)` (R12). -/
def Memory.readF64 (m : Memory) (a : Nat) : F64 := BitVec.ofNat 64 (m.readLE a 8)

/-- `C64(a)` (R12). -/
def Memory.readC64 (m : Memory) (a : Nat) : C64 := { re := m.readF64 a, im := m.readF64 (a + 8) }

/-- The bytes `F64(a) <- v` stores. -/
def f64Bytes (v : F64) : List Byte := leBytes 8 v.toNat

/-- The bytes `C64(a) <- z` stores: real part first (R63). -/
def c64Bytes (z : C64) : List Byte := f64Bytes z.re ++ f64Bytes z.im

/-- The cells that put bytes at rising addresses from `base`. -/
def cellsAt (base : Nat) (bytes : List Byte) : List Host.Cell :=
  (bytes.zipIdx).map fun p => (base + p.2, p.1)

/-- The cells that give each address its own free byte, the first drawing number `n` (log 14). -/
def drawnCells (n : Nat) (addrs : List Nat) : List Host.Cell :=
  (addrs.zipIdx).map fun p => (p.1, Config.freeByte (n + p.2))

/-- Every listed byte takes any value (I3, I6, I7). -/
def State.drawBytes (s : State) (addrs : List Nat) : State :=
  { s with dmem := s.dmem.writeCells (drawnCells s.draws addrs), draws := s.draws + addrs.length }

/-! ### What a command does -/

/-- The effect of a command that succeeds (40_command_control.md R112). -/
structure Effect where
  /-- the DMEM bytes it writes -/
  writes : List Host.Cell
  /-- the value for RESULT, where the command has one -/
  result : Option (BitVec 64)
deriving DecidableEq, Repr

/-- `Exec` of 40_command_control.md R112: `Ok(writes, result)` or `Fail(E)`. -/
abbrev CmdOut := Except CmdError Effect

/-- `Ok` that writes bytes from `base` on and no RESULT. -/
def okBytes (base : Nat) (bytes : List Byte) : CmdOut := .ok { writes := cellsAt base bytes, result := none }

/-- `Ok` that writes RESULT and no DMEM. -/
def okResult (r : BitVec 64) : CmdOut := .ok { writes := [], result := some r }

/-! ### Lifecycle -/

/-- Accept (40_command_control.md R110). -/
def State.accept (s : State) (w : Word) : State :=
  { s with cmd := w, status := s.status.accepted,
           engine := .busy { word := w, latched := s.ops, snap := s.dmem } false }

/-- RESULT after a command: replaced where the command has a result (R113; 10_state.md R36). -/
def State.putResult (s : State) (r : Option (BitVec 64)) : State :=
  match r with
  | some v => { s with resultLo := v.extractLsb' 0 32, resultHi := v.extractLsb' 32 32 }
  | none => s

/-- A successful completion's own writes (40_command_control.md R113). -/
def State.succeed (s : State) (e : Effect) : State :=
  let t := s.putResult e.result
  { t with dmem := t.dmem.writeCells e.writes, status := t.status.succeeded, engine := .idle }

/-- Taking an error, one operation for all of them (40_command_control.md R113; 60_exceptions.md R236, R239): STATUS
shows it, no byte of DMEM and no bit of RESULT changes. -/
def State.failWith (s : State) (e : CmdError) : State :=
  { s with status := s.status.failed e, engine := .idle }

/-- The bytes that hold any value after a command's completion, whatever its outcome: FFT_EMBED's scratch
(44_fft.md R193), and the destination of a command in whose busy window the host wrote (20_memory.md R70 item 3). -/
def openAddrs (i : Instr) (o : Operands) (disturbed : Bool) : List Nat :=
  scratchAddrs i o ++ (if disturbed then destAddrs i o else [])

/-- `Complete` of a command (40_command_control.md R113). -/
def State.complete (s : State) (i : Instr) (j : Job) (disturbed : Bool) (out : CmdOut) : State :=
  let t := match out with
    | .ok e => s.succeed e
    | .error e => s.failWith e
  t.drawBytes (openAddrs i j.latched disturbed)

/-- The step of a Busy engine for a command whose `Exec` is `f`; an Idle engine has none (10_state.md R22; log 3). -/
def State.runCommand (s : State) (i : Instr) (f : Job → CmdOut) : Host.Outcome State Fault Refusal :=
  match s.engine with
  | .idle => .fault .engineIdle
  | .busy j disturbed => .next (s.complete i j disturbed (f j))

/-- The bytes an abort leaves at any value: the AUX bytes of the latched word's command, where it decodes (44_fft.md R193,
93_implementation_defined.md I3), and its destination bytes, where its regions also pass the region checks
(70_reset_and_hazards.md R262, I7; log 17). That AUX is left so too where they fail is a choice between R193 with I3 and
R262, whose words keep every byte there (DESIGN CHOICE, log 27). -/
def abortAddrs (j : Job) : List Nat :=
  match decode j.word with
  | .ok i => (if regionsPass i j.latched then destAddrs i j.latched else []) ++ auxAddrs i j.latched
  | .error _ => []

/-- Every register at its reset value (10_state.md R23). DMEM and the model's own fields stay. -/
def State.resetRegisters (s : State) : State :=
  { State.reset with dmem := s.dmem, events := s.events, readData := s.readData, draws := s.draws }

/-- The soft reset (70_reset_and_hazards.md R262). -/
def State.softReset (s : State) : State :=
  match s.engine with
  | .idle => s.resetRegisters
  | .busy j _ => (s.drawBytes (abortAddrs j)).resetRegisters

/-- Power-on reset (70_reset_and_hazards.md R260): reset registers, and a DMEM whose every byte is a new free value
(log 13, log 24). -/
def State.powerOnReset (s : State) : State :=
  { s.resetRegisters with dmem := { cycle := s.dmem.cycle + 1, cells := [] } }

end Sys2Proof.Machine
end

