-- ==== Sys2Proof/Machine/Csr.lean ====
section
/-! DEFINITION. The CSR window (spec 10_state.md R23 to R39): the register map, a read and a write of each register. -/

namespace Sys2Proof.Machine

/-- The registers of the window (10_state.md R23). -/
inductive Csr where
  | id
  | ctrl
  | status
  | cmd
  | src
  | dst
  | aux
  | len
  | width
  | height
  | nchan
  | tileL
  | x
  | y
  | factorLo
  | factorHi
  | resultLo
  | resultHi
  | qrSide
  | strength
  | qrCap
  | dmemSize
deriving DecidableEq, Repr

/-- The offset of a register (R23). -/
def Csr.offset : Csr → Nat
  | .id => 0x000
  | .ctrl => 0x004
  | .status => 0x008
  | .cmd => 0x00C
  | .src => 0x010
  | .dst => 0x014
  | .aux => 0x018
  | .len => 0x01C
  | .width => 0x020
  | .height => 0x024
  | .nchan => 0x028
  | .tileL => 0x02C
  | .x => 0x030
  | .y => 0x034
  | .factorLo => 0x038
  | .factorHi => 0x03C
  | .resultLo => 0x040
  | .resultHi => 0x044
  | .qrSide => 0x048
  | .strength => 0x04C
  | .qrCap => 0x050
  | .dmemSize => 0x054

/-- The register at an offset (R23); `none` where the window is reserved (R39). -/
def csrAt (offset : Nat) : Option Csr :=
  match offset with
  | 0x000 => some .id
  | 0x004 => some .ctrl
  | 0x008 => some .status
  | 0x00C => some .cmd
  | 0x010 => some .src
  | 0x014 => some .dst
  | 0x018 => some .aux
  | 0x01C => some .len
  | 0x020 => some .width
  | 0x024 => some .height
  | 0x028 => some .nchan
  | 0x02C => some .tileL
  | 0x030 => some .x
  | 0x034 => some .y
  | 0x038 => some .factorLo
  | 0x03C => some .factorHi
  | 0x040 => some .resultLo
  | 0x044 => some .resultHi
  | 0x048 => some .qrSide
  | 0x04C => some .strength
  | 0x050 => some .qrCap
  | 0x054 => some .dmemSize
  | _ => none

/-- A host read of a register (R23 to R37, R62): no side effect. -/
def State.readCsr (s : State) (r : Csr) : Word :=
  match r with
  | .id => 0x44574501
  | .ctrl => ctrlWord s.irqEn
  | .status => s.status.toWord
  | .cmd => s.cmd
  | .src => s.ops.src
  | .dst => s.ops.dst
  | .aux => s.ops.aux
  | .len => s.ops.len
  | .width => s.ops.width
  | .height => s.ops.height
  | .nchan => s.ops.nchan
  | .tileL => s.ops.tileL
  | .x => s.ops.x
  | .y => s.ops.y
  | .factorLo => s.ops.factorLo
  | .factorHi => s.ops.factorHi
  | .resultLo => s.resultLo
  | .resultHi => s.resultHi
  | .qrSide => BitVec.ofNat 32 Config.gridSide
  | .strength => BitVec.ofNat 32 Config.strength
  | .qrCap => BitVec.ofNat 32 Config.qrCapacity
  | .dmemSize => BitVec.ofNat 32 Config.dmemBytes

/-- A host write to CTRL (R25): a soft reset where bit 1 is set, the other bits then ignored (R262). -/
def State.writeCtrl (s : State) (v : Word) : State :=
  if v.getLsbD 1 then s.softReset else { s with irqEn := v.getLsbD 0 }

/-- A host write to CMD (R28): accepted while BUSY = 0 (R110), dropped with OVR set while BUSY = 1 (R111). -/
def State.writeCmd (s : State) (w : Word) : State :=
  if s.status.busy then { s with status := s.status.overrun } else s.accept w

/-- A host write to operand registers (R20): ignored while BUSY = 1 (R38). -/
def State.writeOps (s : State) (o : Operands) : State :=
  if s.status.busy then s else { s with ops := o }

/-- A host write to a register (R23 to R39). -/
def State.writeCsr (s : State) (r : Csr) (v : Word) : State :=
  match r with
  | .id => s
  | .ctrl => s.writeCtrl v
  | .status => { s with status := s.status.w1c v }
  | .cmd => s.writeCmd v
  | .src => s.writeOps { s.ops with src := v }
  | .dst => s.writeOps { s.ops with dst := v }
  | .aux => s.writeOps { s.ops with aux := v }
  | .len => s.writeOps { s.ops with len := v }
  | .width => s.writeOps { s.ops with width := v }
  | .height => s.writeOps { s.ops with height := v }
  | .nchan => s.writeOps { s.ops with nchan := v }
  | .tileL => s.writeOps { s.ops with tileL := v }
  | .x => s.writeOps { s.ops with x := v }
  | .y => s.writeOps { s.ops with y := v }
  | .factorLo => s.writeOps { s.ops with factorLo := v }
  | .factorHi => s.writeOps { s.ops with factorHi := v }
  | .resultLo => s
  | .resultHi => s
  | .qrSide => s
  | .strength => s
  | .qrCap => s
  | .dmemSize => s

/-- A host read at an offset of the window; reserved offsets read 0 (R39). -/
def State.readOffset (s : State) (offset : Nat) : Word :=
  match csrAt offset with
  | some r => s.readCsr r
  | none => 0

/-- A host write at an offset of the window; reserved offsets ignore it (R39). -/
def State.writeOffset (s : State) (offset : Nat) (v : Word) : State :=
  match csrAt offset with
  | some r => s.writeCsr r v
  | none => s

end Sys2Proof.Machine
end

