-- ==== Sys2Proof/Machine/Bus.lean ====
section
/-! DEFINITION. The host's bus accesses (spec 20_memory.md R61, R62, R68, R70): which window an address lies in, which
forms of access have a step, and what a DMEM access does, the busy window included. -/

namespace Sys2Proof.Machine

/-- Where a host bus address leads. -/
inductive Target where
  /-- an offset of the CSR window -/
  | csr (offset : Nat)
  /-- a DMEM address -/
  | dmem (addr : Nat)
deriving DecidableEq, Repr

/-- The window a host address lies in (10_state.md R23; 20_memory.md R61, R68). -/
def busTarget (addr : Nat) : Option Target :=
  if Config.csrBase ≤ addr ∧ addr < Config.csrBase + Config.csrBytes then some (.csr (addr - Config.csrBase))
  else if Config.dmemBase ≤ addr ∧ addr < Config.dmemBase + Config.dmemBytes then
    some (.dmem (addr - Config.dmemBase))
  else none

/-- The CSR accesses that have a step: aligned and 32 bits wide (20_memory.md R62; log 21). -/
def csrForm (width offset : Nat) : Bool := width == 4 && offset % 4 == 0

/-- The DMEM accesses that have a step: 1, 2 or 4 bytes, naturally aligned (20_memory.md R61; log 21). -/
def dmemForm (width addr : Nat) : Bool := (width == 1 || width == 2 || width == 4) && addr % width == 0

/-- The addresses an access touches. -/
def accessAddrs (width addr : Nat) : List Nat := (List.range width).map (addr + ·)

/-- `width` free bytes as one datum, drawing number `n` first (log 14, log 16). -/
def freeDatum : (width n : Nat) → Nat
  | 0, _ => 0
  | w + 1, n => (Config.freeByte n).toNat + 256 * freeDatum w (n + 1)

/-- A host read of DMEM: the bytes, little-endian (R60), or any value while BUSY = 1 (R70 item 3, I6). -/
def State.readDmem (s : State) (width addr : Nat) : State :=
  if s.status.busy then { s with readData := BitVec.ofNat 32 (freeDatum width s.draws), draws := s.draws + width }
  else { s with readData := BitVec.ofNat 32 (s.dmem.readLE addr width) }

/-- The engine marks that the host wrote DMEM while it was Busy (R70 item 3; log 16). -/
def Engine.disturb : Engine → Engine
  | .idle => .idle
  | .busy j _ => .busy j true

/-- A host write of DMEM: the low bytes, little-endian (R12, R60); while BUSY = 1 the target bytes take any value and
the running command's destination will (R70 item 3, I6). -/
def State.writeDmem (s : State) (width addr : Nat) (v : Word) : State :=
  if s.status.busy then { s.drawBytes (accessAddrs width addr) with engine := s.engine.disturb }
  else { s with dmem := s.dmem.writeCells (cellsAt addr (leBytes width v.toNat)) }

/-- A host read. -/
def State.busRead (s : State) (width addr : Nat) : Host.Outcome State Fault Refusal :=
  match busTarget addr with
  | none => .fault .unmappedHostAddress
  | some (.csr o) => if csrForm width o then .next { s with readData := s.readOffset o } else .refused .csrAccessForm
  | some (.dmem a) => if dmemForm width a then .next (s.readDmem width a) else .refused .dmemAccessForm

/-- A host write. -/
def State.busWrite (s : State) (width addr : Nat) (v : Word) : Host.Outcome State Fault Refusal :=
  match busTarget addr with
  | none => .fault .unmappedHostAddress
  | some (.csr o) => if csrForm width o then .next (s.writeOffset o v) else .refused .csrAccessForm
  | some (.dmem a) => if dmemForm width a then .next (s.writeDmem width a v) else .refused .dmemAccessForm

end Sys2Proof.Machine
end

