-- ==== Sys2Proof/Machine/Control.lean ====
section
/-! DEFINITION. NOP (spec 40_command_control.md R116), the word that is no command (30_encoding.md R97), and the engine's
step (R113). -/

namespace Sys2Proof.Machine

/-- What NOP computes (R116): nothing. -/
def nopOut (_ : Job) : CmdOut := .ok { writes := [], result := none }

/-- NOP (R116). -/
def execNop (s : State) : Host.Outcome State Fault Refusal := s.runCommand .nop nopOut

/-- `Complete` for a word that decodes to no command: BadCommand, with no other effect (30_encoding.md R97;
60_exceptions.md R236). -/
def State.completeBad (s : State) : State := s.failWith .badCommand

end Sys2Proof.Machine
end

