-- ==== Sys2Proof/Machine/Float.lean ====
section
/-! DEFINITION. IEEE 754 binary64 + - * / with round to nearest, ties to even, on bit patterns (spec 00_scope.md R14,
log 20), comparison, exact conversions, and the rounding to a byte of 44_fft.md R194.

A finite value is an integer number of *units* of 2^-1074, the smallest subnormal, so every exact result is a
quotient of two naturals and one function rounds them all. -/

namespace Sys2Proof

/-- The sign bit: `true` is negative. -/
def F64.sign (a : F64) : Bool := a.getLsbD 63

/-- The 11 exponent bits. -/
def F64.expBits (a : F64) : Nat := a.toNat / 2 ^ 52 % 2 ^ 11

/-- The 52 fraction bits. -/
def F64.fracBits (a : F64) : Nat := a.toNat % 2 ^ 52

/-- `isNaN` (R14). -/
def F64.isNaN (a : F64) : Bool := F64.expBits a == 2047 && F64.fracBits a != 0

/-- An infinity of either sign. -/
def F64.isInf (a : F64) : Bool := F64.expBits a == 2047 && F64.fracBits a == 0

/-- `isFinite` (R14). -/
def F64.isFinite (a : F64) : Bool := F64.expBits a != 2047

/-- A zero of either sign. -/
def F64.isZero (a : F64) : Bool := F64.expBits a == 0 && F64.fracBits a == 0

/-- The magnitude of a finite value in units of 2^-1074. -/
def F64.units (a : F64) : Nat :=
  if F64.expBits a = 0 then F64.fracBits a else (2 ^ 52 + F64.fracBits a) * 2 ^ (F64.expBits a - 1)

/-- A finite value in units of 2^-1074, signed. -/
def F64.signedUnits (a : F64) : Int := if F64.sign a then -(F64.units a : Int) else F64.units a

/-- The pattern with a given sign and the 63 bits below it. -/
def F64.pack (neg : Bool) (low : Nat) : F64 := BitVec.ofNat 64 ((if neg then 2 ^ 63 else 0) + low)

/-- The infinity of a sign. -/
def F64.inf (neg : Bool) : F64 := F64.pack neg (2047 * 2 ^ 52)

/-- The zero of a sign. -/
def F64.zero (neg : Bool) : F64 := F64.pack neg 0

/-- `qNaN` (R14). -/
def F64.qNaN : F64 := 0x7FF8000000000000

/-- The quiet NaN with a given sign and payload (I11). -/
def F64.quiet (n : NanBits) : F64 :=
  F64.pack (n.getLsbD 51) (2047 * 2 ^ 52 + 2 ^ 51 + n.toNat % 2 ^ 51)

/-- 1.0, 32.0 (`STRENGTH`) and 255.0 (the three scales of R8). -/
def F64.one : F64 := 0x3FF0000000000000
/-- See `F64.one`. -/
def F64.thirtyTwo : F64 := 0x4040000000000000
/-- See `F64.one`. -/
def F64.twoFiftyFive : F64 := 0x406FE00000000000

/-- The binary64 value nearest to `num / den` units, ties to even, with the given sign (R14). `shift` is the size of
the result's last place; a carry out of the fraction runs into the exponent, and past the largest finite value
the result is infinite. -/
def F64.roundUnits (neg : Bool) (num den : Nat) : F64 :=
  let whole := num / den
  let shift := if whole < 2 ^ 53 then 0 else whole.log2 - 52
  let place := den * 2 ^ shift
  let q := num / place
  let rest := num % place
  let up := decide (place < 2 * rest) || (decide (2 * rest = place) && q % 2 == 1)
  F64.pack neg (min (shift * 2 ^ 52 + q + up.toNat) (2047 * 2 ^ 52))

/-- The negation: the sign bit flipped. -/
def F64.neg (a : F64) : F64 := a ^^^ 0x8000000000000000

/-- The magnitude: the sign bit cleared. -/
def F64.mag (a : F64) : F64 := a &&& 0x7FFFFFFFFFFFFFFF

/-- IEEE `+` (R14); `n` is the NaN a NaN result takes (I11). An exact zero sum is +0 unless both operands are -0. -/
def F64.add (n : NanBits) (a b : F64) : F64 :=
  if F64.isNaN a || F64.isNaN b then F64.quiet n
  else if F64.isInf a then
    if F64.isInf b && (F64.sign a != F64.sign b) then F64.quiet n else a
  else if F64.isInf b then b
  else
    let sum := F64.signedUnits a + F64.signedUnits b
    if sum = 0 then F64.zero (F64.sign a && F64.sign b) else F64.roundUnits (decide (sum < 0)) sum.natAbs 1

/-- IEEE `-` (R14). -/
def F64.sub (n : NanBits) (a b : F64) : F64 := F64.add n a (F64.neg b)

/-- IEEE `*` (R14). -/
def F64.mul (n : NanBits) (a b : F64) : F64 :=
  let neg := F64.sign a != F64.sign b
  if F64.isNaN a || F64.isNaN b then F64.quiet n
  else if F64.isInf a then if F64.isZero b then F64.quiet n else F64.inf neg
  else if F64.isInf b then if F64.isZero a then F64.quiet n else F64.inf neg
  else F64.roundUnits neg (F64.units a * F64.units b) (2 ^ 1074)

/-- IEEE `/` (R14). -/
def F64.div (n : NanBits) (a b : F64) : F64 :=
  let neg := F64.sign a != F64.sign b
  if F64.isNaN a || F64.isNaN b then F64.quiet n
  else if F64.isInf a then if F64.isInf b then F64.quiet n else F64.inf neg
  else if F64.isInf b then F64.zero neg
  else if F64.isZero b then if F64.isZero a then F64.quiet n else F64.inf neg
  else F64.roundUnits neg (F64.units a * 2 ^ 1074) (F64.units b)

/-- A number that orders the values that are not NaN as IEEE does: both zeros are 0. -/
def F64.key (a : F64) : Int :=
  if F64.sign a then -((a.toNat % 2 ^ 63 : Nat) : Int) else ((a.toNat % 2 ^ 63 : Nat) : Int)

/-- IEEE `a > b` (R14): false with a NaN. -/
def F64.gt (a b : F64) : Bool := !F64.isNaN a && !F64.isNaN b && decide (F64.key b < F64.key a)

/-- `f64(n)` (R14), exact for every integer below 2^53. -/
def F64.ofNat (n : Nat) : F64 := F64.roundUnits false (n * 2 ^ 1074) 1

/-- The exact value of a finite binary64. -/
def F64.toRat (a : F64) : ℚ := (F64.signedUnits a : ℚ) / 2 ^ 1074

/-- `round_away` of the magnitude of a finite value (44_fft.md R194): `floor(|v| + 1/2)`. -/
def F64.roundAwayMag (v : F64) : Nat := (2 * F64.units v + 2 ^ 1074) / 2 ^ 1075

/-- `to_u8` (44_fft.md R194): `clamp(round_away(v), 0, 255)`, and 0 for NaN. -/
def F64.toU8 (v : F64) : Byte :=
  if F64.isNaN v then 0
  else if F64.sign v then 0
  else if F64.isInf v then 255
  else BitVec.ofNat 8 (min (F64.roundAwayMag v) 255)

/-- A binary64 result is the exact value `q` rounded to nearest, ties to even (00_scope.md R14): finite exactly below the
point that rounds to infinity, no finite value is nearer, and of two equally near ones it is the even one. -/
def Machine.NearestEven (r : F64) (q : ℚ) : Prop :=
  (F64.isFinite r = true ↔ |q| < 2 ^ 1024 - 2 ^ 970) ∧
  (F64.isFinite r = true → ∀ z : F64, F64.isFinite z = true →
    |F64.toRat r - q| ≤ |F64.toRat z - q| ∧
    (|F64.toRat r - q| = |F64.toRat z - q| → F64.toRat z ≠ F64.toRat r → r.getLsbD 0 = false))

end Sys2Proof
end

