-- ==== Sys2Proof/Laws/Float.lean ====
section
/-! SUPPORT. The laws of binary64 (spec 00_scope.md R14): the 63 bits below the sign order the magnitudes, and what the one
rounding function answers. -/

namespace Sys2Proof

/-- The magnitude, in units of 2^-1074, that the 63 bits below the sign stand for. -/
def F64.unitsOf (low : Nat) : Nat :=
  if low / 2 ^ 52 = 0 then low else (2 ^ 52 + low % 2 ^ 52) * 2 ^ (low / 2 ^ 52 - 1)

/-- The 63 bits below the sign. -/
def F64.low (a : F64) : Nat := a.toNat % 2 ^ 63

namespace F64

theorem low_lt (a : F64) : low a < 2 ^ 63 := Nat.mod_lt _ (by norm_num)

theorem sign_eq (a : F64) : sign a = decide (2 ^ 63 ≤ a.toNat) := by
  unfold sign
  rw [← BitVec.msb_eq_getLsbD_last, BitVec.msb_eq_decide]

theorem toNat_eq (a : F64) : a.toNat = (if sign a = true then 2 ^ 63 else 0) + low a := by
  have := a.isLt
  rw [sign_eq, low]
  by_cases h : 2 ^ 63 ≤ a.toNat
  · rw [if_pos (by simpa using h)]; omega
  · rw [if_neg (by simpa using h)]; omega

/-- A value is its sign and its low bits. -/
theorem ext_low {a b : F64} (hs : sign a = sign b) (hl : low a = low b) : a = b := by
  apply BitVec.eq_of_toNat_eq
  rw [toNat_eq a, toNat_eq b, hs, hl]

theorem expBits_eq (a : F64) : expBits a = low a / 2 ^ 52 := by
  have := a.isLt
  unfold expBits low
  omega

theorem fracBits_eq (a : F64) : fracBits a = low a % 2 ^ 52 := by
  unfold fracBits low
  omega

theorem units_eq (a : F64) : units a = unitsOf (low a) := by
  unfold units unitsOf
  rw [expBits_eq, fracBits_eq]
  split
  · next h => have := Nat.div_add_mod (low a) (2 ^ 52); rw [h] at this; omega
  · rfl

theorem key_eq (a : F64) : key a = if sign a = true then -(low a : Int) else (low a : Int) := rfl

theorem isFinite_iff {a : F64} : isFinite a = true ↔ low a < 2047 * 2 ^ 52 := by
  have := low_lt a
  unfold isFinite
  rw [expBits_eq]
  simp only [bne_iff_ne, ne_eq]
  omega

theorem isZero_iff {a : F64} : isZero a = true ↔ low a = 0 := by
  unfold isZero
  rw [expBits_eq, fracBits_eq]
  simp only [Bool.and_eq_true, beq_iff_eq]
  omega

theorem isNaN_iff {a : F64} : isNaN a = true ↔ 2047 * 2 ^ 52 < low a := by
  have := low_lt a
  unfold isNaN
  rw [expBits_eq, fracBits_eq]
  simp only [Bool.and_eq_true, beq_iff_eq, bne_iff_ne, ne_eq]
  omega

theorem isInf_iff {a : F64} : isInf a = true ↔ low a = 2047 * 2 ^ 52 := by
  have := low_lt a
  unfold isInf
  rw [expBits_eq, fracBits_eq]
  simp only [Bool.and_eq_true, beq_iff_eq]
  omega

theorem toNat_pack {neg : Bool} {n : Nat} (h : n < 2 ^ 63) : (pack neg n).toNat = (if neg = true then 2 ^ 63 else 0) + n := by
  unfold pack
  rw [BitVec.toNat_ofNat, Nat.mod_eq_of_lt]
  split_ifs <;> omega

@[simp] theorem sign_pack {neg : Bool} {n : Nat} (h : n < 2 ^ 63) : sign (pack neg n) = neg := by
  rw [sign_eq, toNat_pack h]
  cases neg
  · simpa using h
  · simp

@[simp] theorem low_pack {neg : Bool} {n : Nat} (h : n < 2 ^ 63) : low (pack neg n) = n := by
  rw [low, toNat_pack h]
  cases neg <;> simp <;> omega

theorem pack_sign_low (a : F64) : pack (sign a) (low a) = a :=
  ext_low (sign_pack (low_lt a)) (low_pack (low_lt a))

/-! ### The magnitudes rise with the low bits -/

theorem unitsOf_small {n : Nat} (h : n < 2 ^ 52) : unitsOf n = n := by
  unfold unitsOf
  rw [if_pos (Nat.div_eq_of_lt h)]

/-- The magnitude of `q` places of size `2^s`: a carry out of the fraction runs into the exponent. -/
theorem unitsOf_places {s q : Nat} (h : (s = 0 ∧ q ≤ 2 ^ 53) ∨ (2 ^ 52 ≤ q ∧ q ≤ 2 ^ 53)) :
    unitsOf (s * 2 ^ 52 + q) = q * 2 ^ s := by
  by_cases h0 : s = 0 ∧ q < 2 ^ 52
  · obtain ⟨rfl, hq⟩ := h0
    rw [Nat.zero_mul, Nat.zero_add, unitsOf_small hq, pow_zero, Nat.mul_one]
  · have hq : 2 ^ 52 ≤ q ∧ q ≤ 2 ^ 53 := by omega
    by_cases h1 : q = 2 ^ 53
    · subst h1
      have hd : (s * 2 ^ 52 + 2 ^ 53) / 2 ^ 52 = s + 2 := by omega
      have hm : (s * 2 ^ 52 + 2 ^ 53) % 2 ^ 52 = 0 := by omega
      unfold unitsOf
      rw [hd, hm, if_neg (by omega), show s + 2 - 1 = s + 1 by omega, pow_succ]
      ring
    · have hd : (s * 2 ^ 52 + q) / 2 ^ 52 = s + 1 := by omega
      have hm : (s * 2 ^ 52 + q) % 2 ^ 52 = q - 2 ^ 52 := by omega
      unfold unitsOf
      rw [hd, hm, if_neg (by omega), Nat.add_sub_cancel, Nat.add_sub_cancel' hq.1]

/-- Every string of low bits is `q` places of size `2^s`. -/
theorem exists_places (n : Nat) : ∃ s q, ((s = 0 ∧ q < 2 ^ 53) ∨ (2 ^ 52 ≤ q ∧ q < 2 ^ 53)) ∧ n = s * 2 ^ 52 + q := by
  by_cases h : n < 2 ^ 53
  · exact ⟨0, n, .inl ⟨rfl, h⟩, by omega⟩
  · exact ⟨n / 2 ^ 52 - 1, 2 ^ 52 + n % 2 ^ 52, .inr (by omega), by omega⟩

theorem unitsOf_lt_succ (n : Nat) : unitsOf n < unitsOf (n + 1) := by
  obtain ⟨s, q, h, rfl⟩ := exists_places n
  rw [unitsOf_places (by omega), Nat.add_assoc, unitsOf_places (by omega)]
  exact Nat.mul_lt_mul_of_pos_right (Nat.lt_succ_self q) (by positivity)

theorem unitsOf_strictMono : StrictMono unitsOf := strictMono_nat_of_lt_succ unitsOf_lt_succ

/-- A magnitude of at least `2^52` places is a whole number of places. -/
theorem places_dvd {n s : Nat} (h : 2 ^ 52 * 2 ^ s ≤ unitsOf n) : 2 ^ s ∣ unitsOf n := by
  obtain ⟨t, q, hq, rfl⟩ := exists_places n
  rw [unitsOf_places (by omega)] at h ⊢
  by_cases hst : s ≤ t
  · exact Dvd.dvd.mul_left (pow_dvd_pow 2 hst) q
  · exfalso
    have h1 : q * 2 ^ t < 2 ^ 53 * 2 ^ t := Nat.mul_lt_mul_of_pos_right (by omega) (by positivity)
    have h2 : 2 ^ 53 * 2 ^ t ≤ 2 ^ 52 * 2 ^ s := by
      calc 2 ^ 53 * 2 ^ t = 2 ^ 52 * 2 ^ (t + 1) := by rw [pow_succ 2 t]; ring
        _ ≤ 2 ^ 52 * 2 ^ s := Nat.mul_le_mul_left _ (Nat.pow_le_pow_right (by norm_num) (by omega))
    omega

/-! ### Rounding -/

/-- Everything `roundUnits` answers: `q` places of size `2^s`, the nearest number of places to the exact quotient, the even
one of two, capped at infinity. -/
theorem roundUnits_spec (neg : Bool) (num : Nat) {den : Nat} (hd : 0 < den) : ∃ s q,
    ((s = 0 ∧ q ≤ 2 ^ 53) ∨ (2 ^ 52 ≤ q ∧ q ≤ 2 ^ 53)) ∧
    roundUnits neg num den = pack neg (min (s * 2 ^ 52 + q) (2047 * 2 ^ 52)) ∧
    2 * (q * (den * 2 ^ s)) ≤ 2 * num + den * 2 ^ s ∧ 2 * num ≤ 2 * (q * (den * 2 ^ s)) + den * 2 ^ s ∧
    ((2 * (q * (den * 2 ^ s)) = 2 * num + den * 2 ^ s ∨ 2 * num = 2 * (q * (den * 2 ^ s)) + den * 2 ^ s) → q % 2 = 0) ∧
    (s ≠ 0 → 2 ^ 52 * (den * 2 ^ s) ≤ num) := by
  unfold roundUnits
  simp only
  generalize hs : (if num / den < 2 ^ 53 then 0 else (num / den).log2 - 52) = s
  generalize hp : den * 2 ^ s = p
  have hp0 : 0 < p := by rw [← hp]; positivity
  have hdm := Nat.div_add_mod num p
  have hml := Nat.mod_lt num hp0
  have hq : num / p = num / den / 2 ^ s := by rw [← hp, Nat.div_div_eq_div_mul]
  have hrange : (s = 0 ∧ num / p < 2 ^ 53) ∨ (2 ^ 52 ≤ num / p ∧ num / p < 2 ^ 53) := by
    by_cases h : num / den < 2 ^ 53
    · rw [if_pos h] at hs
      subst hs
      left
      rw [hq, pow_zero, Nat.div_one]
      exact ⟨rfl, h⟩
    · rw [if_neg h] at hs
      right
      have hne : num / den ≠ 0 := by omega
      have hlog : 53 ≤ (num / den).log2 := (Nat.le_log2 hne).2 (by omega)
      have h1 := Nat.log2_self_le hne
      have h2 := Nat.lt_log2_self (n := num / den)
      rw [hq]
      constructor
      · rw [Nat.le_div_iff_mul_le (by positivity), ← pow_add, show 52 + s = (num / den).log2 by omega]
        exact h1
      · rw [Nat.div_lt_iff_lt_mul (by positivity), ← pow_add, show 53 + s = (num / den).log2 + 1 by omega]
        exact h2
  have hlow : s ≠ 0 → 2 ^ 52 * p ≤ num := by
    intro hs0
    have h52 : 2 ^ 52 ≤ num / p := by omega
    calc 2 ^ 52 * p ≤ num / p * p := Nat.mul_le_mul_right p h52
      _ ≤ num := Nat.div_mul_le_self num p
  have hmul : p * (num / p) = num / p * p := Nat.mul_comm _ _
  generalize hqq : num / p = q at *
  generalize hrr : num % p = r at *
  by_cases hup : p < 2 * r ∨ (2 * r = p ∧ q % 2 = 1)
  · have hb : (decide (p < 2 * r) || (decide (2 * r = p) && q % 2 == 1)) = true := by
      simp only [Bool.or_eq_true, Bool.and_eq_true, decide_eq_true_eq, beq_iff_eq]; exact hup
    refine ⟨s, q + 1, by omega, ?_⟩
    rw [hp]
    refine ⟨?_, ?_, ?_, ?_, hlow⟩
    · rw [hb, Bool.toNat_true, Nat.add_assoc]
    · rw [Nat.add_mul, Nat.one_mul]; omega
    · rw [Nat.add_mul, Nat.one_mul]; omega
    · rw [Nat.add_mul, Nat.one_mul]; omega
  · have hb : (decide (p < 2 * r) || (decide (2 * r = p) && q % 2 == 1)) = false := by
      rw [Bool.eq_false_iff]
      simp only [ne_eq, Bool.or_eq_true, Bool.and_eq_true, decide_eq_true_eq, beq_iff_eq]; exact hup
    refine ⟨s, q, by omega, ?_⟩
    rw [hp]
    refine ⟨?_, ?_, ?_, ?_, hlow⟩
    · rw [hb, Bool.toNat_false, Nat.add_zero]
    · omega
    · omega
    · omega

/-- No magnitude of the format is nearer to `num / den` than a rounded one; of two equally near ones the rounded one has
an even number of places. -/
theorem nearest_of_places {num den s q : Nat} (hd : 0 < den)
    (h1 : 2 * (q * (den * 2 ^ s)) ≤ 2 * num + den * 2 ^ s) (h2 : 2 * num ≤ 2 * (q * (den * 2 ^ s)) + den * 2 ^ s)
    (heven : (2 * (q * (den * 2 ^ s)) = 2 * num + den * 2 ^ s ∨ 2 * num = 2 * (q * (den * 2 ^ s)) + den * 2 ^ s) →
      q % 2 = 0)
    (hlow : s ≠ 0 → 2 ^ 52 * (den * 2 ^ s) ≤ num) (n : Nat) :
    |((q * 2 ^ s * den : Nat) : Int) - num| ≤ |((unitsOf n * den : Nat) : Int) - num| ∧
    (|((q * 2 ^ s * den : Nat) : Int) - num| = |((unitsOf n * den : Nat) : Int) - num| → unitsOf n ≠ q * 2 ^ s →
      q % 2 = 0) := by
  have hr : q * 2 ^ s * den = q * (den * 2 ^ s) := by ring
  rw [hr]
  generalize hp : den * 2 ^ s = p at *
  have hp0 : 0 < p := by rw [← hp]; positivity
  -- the nearest multiple of a place
  have mult : ∀ k : Nat, |((q * p : Nat) : Int) - num| ≤ |((k * p : Nat) : Int) - num| ∧
      (|((q * p : Nat) : Int) - num| = |((k * p : Nat) : Int) - num| → k ≠ q → q % 2 = 0) := by
    intro k
    rcases Nat.lt_trichotomy k q with h | h | h
    · have hk : k * p + p ≤ q * p := by rw [← Nat.succ_mul]; exact Nat.mul_le_mul_right p h
      generalize k * p = a at *
      generalize q * p = b at *
      have e1 := abs_cases ((b : Int) - num)
      have e2 := abs_cases ((a : Int) - num)
      exact ⟨by omega, fun he _ => heven (by omega)⟩
    · subst h; exact ⟨le_refl _, fun _ h => absurd rfl h⟩
    · have hk : q * p + p ≤ k * p := by rw [← Nat.succ_mul]; exact Nat.mul_le_mul_right p h
      generalize k * p = a at *
      generalize q * p = b at *
      have e1 := abs_cases ((b : Int) - num)
      have e2 := abs_cases ((a : Int) - num)
      exact ⟨by omega, fun he _ => heven (by omega)⟩
  by_cases hbig : s = 0 ∨ 2 ^ 52 * 2 ^ s ≤ unitsOf n
  · obtain ⟨k, hk⟩ : 2 ^ s ∣ unitsOf n := by
      rcases hbig with rfl | h
      · simp
      · exact places_dvd h
    have e : unitsOf n * den = k * p := by rw [hk, ← hp]; ring
    rw [e]
    refine ⟨(mult k).1, fun he hne => (mult k).2 he fun hkq => hne ?_⟩
    rw [hk, hkq, Nat.mul_comm]
  · have hs0 : s ≠ 0 := fun h => hbig (.inl h)
    have hl : unitsOf n < 2 ^ 52 * 2 ^ s := by
      by_contra hc; exact hbig (.inr (Nat.le_of_not_lt hc))
    have hlt : unitsOf n * den < 2 ^ 52 * p := by
      rw [← hp, Nat.mul_comm den, ← Nat.mul_assoc]; exact Nat.mul_lt_mul_of_pos_right hl hd
    have hge := hlow hs0
    obtain ⟨m1, m2⟩ := mult (2 ^ 52)
    have hstrict : |((2 ^ 52 * p : Nat) : Int) - num| < |((unitsOf n * den : Nat) : Int) - num| := by
      generalize 2 ^ 52 * p = a at *
      generalize unitsOf n * den = b at *
      have e1 := abs_cases ((a : Int) - num)
      have e2 := abs_cases ((b : Int) - num)
      omega
    exact ⟨le_trans m1 (le_of_lt hstrict), fun he _ => absurd he (ne_of_lt (lt_of_le_of_lt m1 hstrict))⟩

/-- The low bits that `roundUnits` answers. -/
theorem low_roundUnits_lt (neg : Bool) (num : Nat) {den : Nat} (hd : 0 < den) :
    sign (roundUnits neg num den) = neg ∧ low (roundUnits neg num den) ≤ 2047 * 2 ^ 52 := by
  obtain ⟨s, q, _, hr, _⟩ := roundUnits_spec neg num hd
  have hm : min (s * 2 ^ 52 + q) (2047 * 2 ^ 52) ≤ 2047 * 2 ^ 52 := Nat.min_le_right _ _
  have hlt : min (s * 2 ^ 52 + q) (2047 * 2 ^ 52) < 2 ^ 63 := lt_of_le_of_lt hm (by norm_num)
  rw [hr, sign_pack hlt, low_pack hlt]
  exact ⟨rfl, hm⟩

/-- Rounding never passes a value of the format: what is at most a finite magnitude rounds to at most it. -/
theorem low_roundUnits_le (neg : Bool) {num den : Nat} (hd : 0 < den) {n : Nat}
    (h : num ≤ unitsOf n * den) : low (roundUnits neg num den) ≤ n := by
  obtain ⟨s, q, hq, hr, h1, h2, h3, h4⟩ := roundUnits_spec neg num hd
  have hlt : min (s * 2 ^ 52 + q) (2047 * 2 ^ 52) < 2 ^ 63 := lt_of_le_of_lt (Nat.min_le_right _ _) (by norm_num)
  rw [hr, low_pack hlt]
  by_contra hc
  have hlt' : n < s * 2 ^ 52 + q := lt_of_not_ge fun hge => hc (le_trans (Nat.min_le_left _ _) hge)
  have hu := unitsOf_strictMono hlt'
  rw [unitsOf_places hq] at hu
  have hm : unitsOf n * den < q * 2 ^ s * den := Nat.mul_lt_mul_of_pos_right hu hd
  have hnear := (nearest_of_places hd h1 h2 h3 h4 n).1
  generalize unitsOf n * den = a at *
  generalize q * 2 ^ s * den = b at *
  have e1 := abs_cases ((b : Int) - num)
  have e2 := abs_cases ((a : Int) - num)
  omega

/-- And what is at least a magnitude rounds to at least it. -/
theorem le_low_roundUnits (neg : Bool) {num den : Nat} (hd : 0 < den) {n : Nat} (hn : n ≤ 2047 * 2 ^ 52)
    (h : unitsOf n * den ≤ num) : n ≤ low (roundUnits neg num den) := by
  obtain ⟨s, q, hq, hr, h1, h2, h3, h4⟩ := roundUnits_spec neg num hd
  have hlt : min (s * 2 ^ 52 + q) (2047 * 2 ^ 52) < 2 ^ 63 := lt_of_le_of_lt (Nat.min_le_right _ _) (by norm_num)
  rw [hr, low_pack hlt]
  refine le_min ?_ hn
  by_contra hc
  have hu := unitsOf_strictMono (Nat.lt_of_not_le hc)
  rw [unitsOf_places hq] at hu
  have hm : q * 2 ^ s * den < unitsOf n * den := Nat.mul_lt_mul_of_pos_right hu hd
  have hnear := (nearest_of_places hd h1 h2 h3 h4 n).1
  generalize unitsOf n * den = a at *
  generalize q * 2 ^ s * den = b at *
  have e1 := abs_cases ((b : Int) - num)
  have e2 := abs_cases ((a : Int) - num)
  omega

/-- A magnitude of the format is its own rounding. -/
theorem roundUnits_exact (neg : Bool) {den : Nat} (hd : 0 < den) {n : Nat} (hn : n ≤ 2047 * 2 ^ 52) :
    roundUnits neg (unitsOf n * den) den = pack neg n := by
  have hl : low (roundUnits neg (unitsOf n * den) den) = n :=
    le_antisymm (low_roundUnits_le neg hd (le_refl _)) (le_low_roundUnits neg hd hn (le_refl _))
  have hlt : n < 2 ^ 63 := lt_of_le_of_lt hn (by norm_num)
  exact ext_low (by rw [(low_roundUnits_lt neg _ hd).1, sign_pack hlt]) (by rw [hl, low_pack hlt])

end F64

end Sys2Proof
end

