-- ==== Sys2Proof/Laws/Arith.lean ====
section
/-! SUPPORT. What the four operations and their one rounding answer (spec 00_scope.md R14): NaN in, NaN out; a result that
is not NaN does not depend on the NaN bits; `roundUnits` rounds to nearest, ties to even. -/

namespace Sys2Proof.Machine

open F64

theorem not_nan_of_finite {m : F64} (h : F64.isFinite m = true) : F64.isNaN m = false ∧ F64.isInf m = false := by
  have := F64.isFinite_iff.1 h
  constructor <;> rw [Bool.eq_false_iff] <;> intro hc
  · have := F64.isNaN_iff.1 hc; omega
  · have := F64.isInf_iff.1 hc; omega

theorem finite_of_not_nan {f : F64} (hn : F64.isNaN f = false) (hi : F64.isInf f = false) : F64.isFinite f
    = true := by
  rw [F64.isFinite_iff]
  by_contra hc
  rcases Nat.lt_or_ge (2047 * 2^52) (F64.low f) with h | h
  · rw [F64.isNaN_iff.2 h] at hn; cases hn
  · rw [F64.isInf_iff.2 (by omega)] at hi; cases hi

theorem units_pos {m : F64} (h : F64.isZero m = false) : 0 < F64.units m := by
  rw [F64.units_eq]
  have h0 : F64.unitsOf 0 = 0 := by decide
  rw [← h0]
  apply F64.unitsOf_strictMono
  rcases Nat.eq_zero_or_pos (F64.low m) with h' | h'
  · rw [F64.isZero_iff.2 h'] at h; cases h
  · exact h'

theorem isNaN_quiet (n : NanBits) : F64.isNaN (F64.quiet n) = true := by
  unfold F64.quiet
  have h : 2047 * 2 ^ 52 + 2 ^ 51 + n.toNat % 2 ^ 51 < 2 ^ 63 := by
    have := Nat.mod_lt n.toNat (show 0 < 2 ^ 51 by norm_num); omega
  rw [F64.isNaN_iff, F64.low_pack h]; omega

theorem not_inf_of_nan {v : F64} (h : F64.isNaN v = true) : F64.isInf v = false := by
  rw [Bool.eq_false_iff]; intro hc
  have := F64.isNaN_iff.1 h; have := F64.isInf_iff.1 hc; omega

theorem not_special_of_zero {v : F64} (h : F64.isZero v = true) : F64.isInf v = false ∧ F64.isNaN v = false := by
  have := F64.isZero_iff.1 h
  constructor <;> rw [Bool.eq_false_iff] <;> intro hc
  · have := F64.isInf_iff.1 hc; omega
  · have := F64.isNaN_iff.1 hc; omega

/-! ### NaN bits -/

theorem isNaN_add (n : NanBits) (a b : F64) (h : F64.isNaN a = true ∨ F64.isNaN b = true) : F64.isNaN
    (F64.add n a b) = true := by
  unfold F64.add; rw [if_pos (by simpa using h)]; exact isNaN_quiet n

theorem neg_eq_pack (b : F64) : F64.neg b = F64.pack (!F64.sign b) (F64.low b) := by
  have hl := F64.low_lt b
  have hs : F64.sign (F64.neg b) = !F64.sign b := by
    unfold F64.sign F64.neg
    rw [BitVec.getLsbD_xor]
    rw [show (0x8000000000000000 : BitVec 64).getLsbD 63 = true by decide]; simp
  have hlow : F64.low (F64.neg b) = F64.low b := by
    unfold F64.low F64.neg
    rw [BitVec.toNat_xor]
    show (b.toNat ^^^ 2^63) % 2^63 = _
    apply Nat.eq_of_testBit_eq
    intro i
    rw [Nat.testBit_mod_two_pow, Nat.testBit_mod_two_pow, Nat.testBit_xor, Nat.testBit_two_pow]
    by_cases h : i < 63
    · have : ¬ 63 = i := by omega
      simp [this]
    · simp [h]
  apply F64.ext_low
  · rw [hs, F64.sign_pack hl]
  · rw [hlow, F64.low_pack hl]

theorem isNaN_neg (b : F64) : F64.isNaN (F64.neg b) = F64.isNaN b := by
  rw [Bool.eq_iff_iff, F64.isNaN_iff, F64.isNaN_iff, neg_eq_pack, F64.low_pack (F64.low_lt b)]

theorem isInf_neg (b : F64) : F64.isInf (F64.neg b) = F64.isInf b := by
  rw [Bool.eq_iff_iff, F64.isInf_iff, F64.isInf_iff, neg_eq_pack, F64.low_pack (F64.low_lt b)]

theorem isFinite_neg (b : F64) : F64.isFinite (F64.neg b) = F64.isFinite b := by
  rw [Bool.eq_iff_iff, F64.isFinite_iff, F64.isFinite_iff, neg_eq_pack, F64.low_pack (F64.low_lt b)]

theorem isNaN_sub (n : NanBits) (a b : F64) (h : F64.isNaN a = true ∨ F64.isNaN b = true) : F64.isNaN
    (F64.sub n a b) = true := by
  unfold F64.sub; apply isNaN_add; rw [isNaN_neg]; exact h

theorem isNaN_mul (n : NanBits) (a b : F64) (h : F64.isNaN a = true ∨ F64.isNaN b = true) : F64.isNaN
    (F64.mul n a b) = true := by
  unfold F64.mul; simp only; rw [if_pos (by simpa using h)]; exact isNaN_quiet n

theorem isNaN_div (n : NanBits) (a b : F64) (h : F64.isNaN a = true ∨ F64.isNaN b = true) : F64.isNaN
    (F64.div n a b) = true := by
  unfold F64.div; simp only; rw [if_pos (by simpa using h)]; exact isNaN_quiet n

theorem div_nanBits (n : NanBits) (a b : F64) (h : F64.isNaN (F64.div 0 a b) = false) : F64.div n a b
    = F64.div 0 a b := by
  unfold F64.div at *
  simp only at *
  split_ifs at * <;> first | rfl | (rw [isNaN_quiet] at h; cases h)

theorem mul_nanBits (n : NanBits) (a b : F64) (h : F64.isNaN (F64.mul 0 a b) = false) : F64.mul n a b
    = F64.mul 0 a b := by
  unfold F64.mul at *
  simp only at *
  split_ifs at * <;> first | rfl | (rw [isNaN_quiet] at h; cases h)

theorem add_nanBits (n : NanBits) (a b : F64) (h : F64.isNaN (F64.add 0 a b) = false) : F64.add n a b
    = F64.add 0 a b := by
  unfold F64.add at *
  simp only at *
  split_ifs at * <;> first | rfl | (rw [isNaN_quiet] at h; cases h)

theorem sub_nanBits (n : NanBits) (a b : F64) (h : F64.isNaN (F64.sub 0 a b) = false) : F64.sub n a b
    = F64.sub 0 a b := add_nanBits n a _ h

/-! ### Exact values -/

theorem mag_eq_pack (v : F64) : F64.mag v = F64.pack false (F64.low v) := by
  apply BitVec.eq_of_toNat_eq
  rw [F64.toNat_pack (F64.low_lt v)]
  unfold F64.mag F64.low
  rw [BitVec.toNat_and]
  show v.toNat &&& (2^63-1) = _
  rw [Nat.and_two_pow_sub_one_eq_mod]; simp

theorem units_neg (b : F64) : F64.units (F64.neg b) = F64.units b := by
  rw [F64.units_eq, F64.units_eq, neg_eq_pack, F64.low_pack (F64.low_lt b)]

theorem sign_neg (b : F64) : F64.sign (F64.neg b) = !F64.sign b := by rw [neg_eq_pack, F64.sign_pack (F64.low_lt b)]

theorem signedUnits_neg (b : F64) : F64.signedUnits (F64.neg b) = - F64.signedUnits b := by
  unfold F64.signedUnits
  rw [units_neg, sign_neg]
  cases F64.sign b <;> simp

theorem toRat_neg (b : F64) : F64.toRat (F64.neg b) = - F64.toRat b := by
  unfold F64.toRat; rw [signedUnits_neg]; push_cast; ring

theorem toRat_eq (a : F64) : F64.toRat a = (if F64.sign a then -1 else 1) * (F64.units a : ℚ) / 2 ^ 1074 := by
  unfold F64.toRat F64.signedUnits
  split <;> push_cast <;> ring

theorem even_low {a : F64} (h : F64.low a % 2 = 0) : a.getLsbD 0 = false := by
  have : a.getLsbD 0 = a.toNat.testBit 0 := rfl
  rw [this, Nat.testBit_zero]
  have := F64.toNat_eq a
  simp; split_ifs at this <;> omega

/-- Every integer below 2^53 is a magnitude of the format. -/
theorem exists_unitsOf (k : Nat) (hk : k < 2 ^ 53) : ∃ n, n < 2047 * 2 ^ 52 ∧ F64.unitsOf n = k * 2 ^ 1074 := by
  rcases Nat.eq_zero_or_pos k with rfl | h0
  · exact ⟨0, by norm_num, by rw [F64.unitsOf_small (by norm_num)]; simp⟩
  · have hl := Nat.log2_self_le (n := k) (by omega)
    have hu := Nat.lt_log2_self (n := k)
    have he : k.log2 ≤ 52 := by
      by_contra hc
      have : 2 ^ 53 ≤ 2 ^ k.log2 := Nat.pow_le_pow_right (by norm_num) (by omega)
      omega
    obtain ⟨e, hee⟩ : ∃ e, k.log2 = e := ⟨_, rfl⟩
    rw [hee] at hl hu he
    have h1 : 2 ^ 52 ≤ k * 2 ^ (52 - e) := by
      calc 2 ^ 52 = 2 ^ e * 2 ^ (52 - e) := by rw [← pow_add]; congr 1; omega
        _ ≤ _ := Nat.mul_le_mul_right _ hl
    have h2 : k * 2 ^ (52 - e) < 2 ^ 53 := by
      calc _ < 2 ^ (e+1) * 2 ^ (52 - e) := Nat.mul_lt_mul_of_pos_right hu (by positivity)
        _ = 2 ^ 53 := by rw [← pow_add]; congr 1; omega
    refine ⟨(1022 + e) * 2 ^ 52 + k * 2 ^ (52 - e), by omega, ?_⟩
    rw [F64.unitsOf_places (.inr ⟨h1, by omega⟩), Nat.mul_assoc, ← pow_add]
    congr 2; omega

/-! ### Rounding -/

theorem unitsOf_big : F64.unitsOf (2047 * 2 ^ 52 - 1) = (2 ^ 53 - 1) * 2 ^ 2045 := by
  have := F64.unitsOf_places (s := 2045) (q := 2 ^ 53 - 1) (.inr ⟨by norm_num, by norm_num⟩)
  rwa [show 2045 * 2 ^ 52 + (2 ^ 53 - 1) = 2047 * 2 ^ 52 - 1 by norm_num] at this

theorem unitsOf_big2 : F64.unitsOf (2047 * 2 ^ 52) = 2 ^ 53 * 2 ^ 2045 := by
  have := F64.unitsOf_places (s := 2045) (q := 2 ^ 53) (.inr ⟨by norm_num, by norm_num⟩)
  rwa [show 2045 * 2 ^ 52 + 2 ^ 53 = 2047 * 2 ^ 52 by norm_num] at this

theorem unitsOf_big0 : F64.unitsOf (2047 * 2 ^ 52 - 2) = (2 ^ 53 - 2) * 2 ^ 2045 := by
  have := F64.unitsOf_places (s := 2045) (q := 2 ^ 53 - 2) (.inr ⟨by norm_num, by norm_num⟩)
  rwa [show 2045 * 2 ^ 52 + (2 ^ 53 - 2) = 2047 * 2 ^ 52 - 2 by norm_num] at this

theorem isFinite_roundUnits_aux (P : Nat) (hP : P = 2 ^ 2045) (neg : Bool) (num den : Nat) (hd : 0 < den) :
    F64.isFinite (F64.roundUnits neg num den) = true ↔ 2 * num < (2 ^ 54 - 1) * P * den := by
  have unitsOf_big := unitsOf_big
  have unitsOf_big0 := unitsOf_big0
  have unitsOf_big2 := unitsOf_big2
  rw [← hP] at unitsOf_big unitsOf_big0 unitsOf_big2
  have hP0 : 0 < P := by rw [hP]; exact Nat.pow_pos (by norm_num)
  obtain ⟨s, q, hq, hr, h1, h2, h3, h4⟩ := F64.roundUnits_spec neg num hd
  have hlt : min (s * 2 ^ 52 + q) (2047 * 2 ^ 52) < 2 ^ 63 := lt_of_le_of_lt (Nat.min_le_right _ _) (by norm_num)
  rw [hr, F64.isFinite_iff, F64.low_pack hlt]
  have hmono := F64.unitsOf_strictMono
  have hPs : s = 2045 → 2 ^ s = P := by intro h; rw [hP, h]
  have hps : s ≤ 2045 → (2:Nat) ^ s ≤ P := by intro h; rw [hP]; exact Nat.pow_le_pow_right (by norm_num) h
  have huq := F64.unitsOf_places hq
  have near := F64.nearest_of_places hd h1 h2 h3 h4 (2047 * 2 ^ 52 - 1)
  generalize hS : 2 ^ s = S at *
  clear hP hS
  constructor
  · intro h
    have hsq : s * 2 ^ 52 + q ≤ 2047 * 2 ^ 52 - 1 := by omega
    have hs : s ≤ 2045 := by omega
    have hps := hps hs
    by_cases he : s * 2 ^ 52 + q = 2047 * 2 ^ 52 - 1
    · have hs' : s = 2045 ∧ q = 2 ^ 53 - 1 := by omega
      obtain ⟨h5, rfl⟩ := hs'
      rw [hPs h5, Nat.mul_comm den P] at h2 h3
      rw [Nat.mul_assoc]
      clear hr hlt hmono near huq unitsOf_big unitsOf_big0 unitsOf_big2
      generalize P * den = Q at *
      by_contra hc
      have e : (2 ^ 54 - 1) * Q = 2 * ((2 ^ 53 - 1) * Q) + Q := by norm_num; ring
      rw [e] at hc
      have := h3 (.inr (le_antisymm h2 (Nat.le_of_not_lt hc)))
      revert this; norm_num
    · have hu := hmono.monotone (show s * 2 ^ 52 + q ≤ 2047 * 2 ^ 52 - 2 by omega)
      rw [huq, unitsOf_big0] at hu
      have e1 : q * (den * S) = q * S * den := by ring
      have l1 : q * S * den ≤ (2 ^ 53 - 2) * P * den := Nat.mul_le_mul_right _ hu
      have l2 : den * S ≤ P * den := by rw [Nat.mul_comm]; exact Nat.mul_le_mul_right _ hps
      have l3 : 0 < P * den := Nat.mul_pos hP0 hd
      rw [e1] at h2
      rw [Nat.mul_assoc (2 ^ 53 - 2)] at l1
      rw [Nat.mul_assoc (2 ^ 54 - 1)]
      clear hr hlt hmono near huq unitsOf_big unitsOf_big0 unitsOf_big2 h1 h3 h4 hq
      generalize q * S * den = A at *
      generalize den * S = B at *
      generalize P * den = Q at *
      clear e1 hu
      have e : (2 ^ 54 - 1) * Q = 2 * ((2 ^ 53 - 2) * Q) + 3 * Q := by norm_num; ring
      rw [e]
      generalize (2 ^ 53 - 2) * Q = Z at *
      omega
  · intro h
    by_contra hc
    have hge : 2047 * 2 ^ 52 ≤ s * 2 ^ 52 + q := by omega
    have hu := hmono.monotone hge
    rw [huq, unitsOf_big2] at hu
    have hn := near.1
    have l1 : 2 ^ 53 * P * den ≤ q * S * den := Nat.mul_le_mul_right _ hu
    rw [unitsOf_big, Nat.mul_assoc _ P den] at hn
    rw [Nat.mul_assoc _ P den] at l1 h
    have l3 : 0 < P * den := Nat.mul_pos hP0 hd
    clear near hu hge hc h1 h2 h3 h4 hr hlt huq unitsOf_big unitsOf_big0 unitsOf_big2 hmono
    generalize q * S * den = A at *
    generalize P * den = Q at *
    have e3 : (2 ^ 54 - 1) * Q = 2 * ((2 ^ 53 - 1) * Q) + Q := by norm_num; ring
    have e4 : 2 ^ 53 * Q = (2 ^ 53 - 1) * Q + Q := by norm_num; ring
    rw [e3] at h
    rw [e4] at l1
    clear e3 e4
    generalize (2 ^ 53 - 1) * Q = Z at *
    have e1 := abs_cases ((A : Int) - num)
    have e2 := abs_cases ((Z : Int) - num)
    omega

/-- What rounds to a finite value: everything below the middle between the largest finite value and 2^1024. -/
theorem isFinite_roundUnits (neg : Bool) (num den : Nat) (hd : 0 < den) :
    F64.isFinite (F64.roundUnits neg num den) = true ↔ 2 * num < (2 ^ 54 - 1) * 2 ^ 2045 * den := by
  exact isFinite_roundUnits_aux _ rfl neg num den hd

theorem threshold_iff (num den : Nat) (hdq : (0 : ℚ) < den) : (2 * num < (2 ^ 54 - 1) * 2 ^ 2045 * den) ↔
    (num : ℚ) / den / 2 ^ 1074 < 2 ^ 1024 - 2 ^ 970 := by
  have hUp : (0 : ℚ) < 2 ^ 1074 := by positivity
  rw [div_lt_iff₀ hUp, div_lt_iff₀ hdq]
  have e2 : ((2:ℚ) ^ 1024 - 2 ^ 970) * 2 ^ 1074 * den = ((2 ^ 54 - 1) * 2 ^ 2044) * den := by
    have : (2:ℚ) ^ 1024 = 2 ^ 54 * 2 ^ 970 := by rw [← pow_add]
    rw [this, show (2:ℚ) ^ 2044 = 2 ^ 970 * 2 ^ 1074 by rw [← pow_add]]
    generalize (2:ℚ) ^ 970 = A
    generalize (2:ℚ) ^ 1074 = B
    ring
  rw [e2]
  have e3 : (2 ^ 54 - 1) * 2 ^ 2045 * den = 2 * ((2 ^ 54 - 1) * 2 ^ 2044 * den) := by
    rw [show (2:Nat) ^ 2045 = 2 * 2 ^ 2044 by rw [← pow_succ']]
    generalize (2:Nat) ^ 2044 = A
    ring
  rw [e3, Nat.mul_lt_mul_left (by norm_num)]
  have e4 : (((2:Nat) ^ 2044 : Nat) : ℚ) = 2 ^ 2044 := by rw [Nat.cast_pow]; rfl
  rw [← e4]
  generalize (2:Nat) ^ 2044 = A
  rw [← Nat.cast_lt (α := ℚ)]
  push_cast
  norm_num

theorem nearestEven_roundUnits_aux (U : ℚ) (hU : U = 2 ^ 1074) (neg : Bool) (num den : Nat) (hd : 0 < den) :
    NearestEven (F64.roundUnits neg num den) ((if neg then -1 else 1) * ((num : ℚ) / den) / U) := by
  have toRat_eq : ∀ a, F64.toRat a = (if F64.sign a then -1 else 1) * (F64.units a : ℚ) / U := by intro a; rw [hU]; exact toRat_eq a
  have hdq : (0 : ℚ) < den := by exact_mod_cast hd
  have hUp : (0 : ℚ) < U := by rw [hU]; positivity
  refine ⟨?_, ?_⟩
  · rw [isFinite_roundUnits neg num den hd, threshold_iff num den hdq]
    have e : |(if neg then (-1 : ℚ) else 1) * ((num : ℚ) / den) / U| = (num : ℚ) / den / U := by
      rw [abs_div, abs_mul, abs_of_pos hUp, abs_of_nonneg (show (0:ℚ) ≤ num / den from div_nonneg (Nat.cast_nonneg _) (Nat.cast_nonneg _))]
      cases neg <;> simp
    rw [e, hU]
  · intro hf z hz
    obtain ⟨s, q, hq, hr, h1, h2, h3, h4⟩ := F64.roundUnits_spec neg num hd
    have hlt : min (s * 2 ^ 52 + q) (2047 * 2 ^ 52) < 2 ^ 63 := lt_of_le_of_lt (Nat.min_le_right _ _) (by norm_num)
    have hf' := hf
    rw [hr, F64.isFinite_iff, F64.low_pack hlt] at hf'
    have hmin : min (s * 2 ^ 52 + q) (2047 * 2 ^ 52) = s * 2 ^ 52 + q := by omega
    rw [hmin] at hr hlt
    have hru : F64.units (F64.roundUnits neg num den) = q * 2 ^ s := by rw [hr, F64.units_eq, F64.low_pack hlt, F64.unitsOf_places hq]
    have hrs : F64.sign (F64.roundUnits neg num den) = neg := by rw [hr, F64.sign_pack hlt]
    have near := F64.nearest_of_places hd h1 h2 h3 h4
    have heven : q % 2 = 0 → (F64.roundUnits neg num den).getLsbD 0 = false := by
      intro h; apply even_low; rw [hr, F64.low_pack hlt]; omega
    -- rational version
    have nq : ∀ n, |((q * 2 ^ s : Nat) : ℚ) - num / den| ≤ |((F64.unitsOf n : Nat) : ℚ) - num / den| ∧
        (|((q * 2 ^ s : Nat) : ℚ) - num / den| = |((F64.unitsOf n : Nat) : ℚ) - num / den| → F64.unitsOf n ≠ q * 2 ^ s → q % 2 = 0) := by
      intro n
      obtain ⟨g1, g2⟩ := near n
      have cv : ∀ m : Nat, |((m : Nat) : ℚ) - num / den| = (|((m * den : Nat) : Int) - num| : ℤ) / den := by
        intro m
        rw [show ((m : ℚ) - num / den) = (((m * den : Nat) : Int) - num : ℤ) / den by push_cast; field_simp, abs_div, abs_of_pos hdq, ← Int.cast_abs]
      rw [cv, cv]
      constructor
      · apply (div_le_div_iff_of_pos_right hdq).2; exact_mod_cast g1
      · intro h; apply g2
        have := (div_left_inj' (ne_of_gt hdq)).1 h
        exact_mod_cast this
    have hM : ∃ M : Nat, M = q * 2 ^ s := ⟨_, rfl⟩
    obtain ⟨M, hM⟩ := hM
    rw [← hM] at nq hru
    have h0 := nq 0
    have hz0 : F64.unitsOf 0 = 0 := F64.unitsOf_small (by norm_num)
    obtain ⟨zn, hzn⟩ : ∃ n, F64.units z = F64.unitsOf n := ⟨_, F64.units_eq z⟩
    have hzz := nq zn
    rw [toRat_eq, toRat_eq, hru, hrs, hzn]
    rw [hz0] at h0
    have hX : (0:ℚ) ≤ num / den := div_nonneg (Nat.cast_nonneg _) (Nat.cast_nonneg _)
    have hu0 : (0:ℚ) ≤ (F64.unitsOf zn : Nat) := Nat.cast_nonneg _
    have hinj : F64.unitsOf zn = M ↔ ((F64.unitsOf zn : Nat) : ℚ) = ((M : Nat) : ℚ) := by norm_cast
    have hinj0 : 0 = M ↔ (0 : ℚ) = ((M : Nat) : ℚ) := by norm_cast
    have hm0 : (0:ℚ) ≤ ((M : Nat) : ℚ) := Nat.cast_nonneg _
    generalize ((M : Nat) : ℚ) = m at *
    generalize ((F64.unitsOf zn : Nat) : ℚ) = u at *
    generalize (num : ℚ) / den = X at *
    clear hU h1 h2 h3 h4 near hM hq hf' hmin hr hlt hf
    generalize F64.roundUnits neg num den = R at *
    have hab : ∀ t : ℚ, |t / U| = |t| / U := fun t => by rw [abs_div, abs_of_pos hUp]
    rw [← sub_div, ← sub_div, hab, hab]
    rw [div_le_div_iff_of_pos_right hUp, div_left_inj' (ne_of_gt hUp)]
    rw [ne_eq, div_left_inj' (ne_of_gt hUp)]
    push_cast at h0
    rw [ne_eq, hinj] at hzz
    rw [ne_eq, hinj0] at h0
    have a1 := abs_cases (m - X); have a2 := abs_cases (u - X); have a3 := abs_cases (0 - X)
    rw [zero_sub, abs_neg, abs_of_nonneg hX] at h0
    cases neg <;> cases F64.sign z <;> simp only [if_true, if_false, Bool.false_eq_true, one_mul, neg_mul]
    · exact ⟨hzz.1, fun h hne => heven (hzz.2 h hne)⟩
    · have a4 : |-u - X| = u + X := by rw [abs_of_nonpos (by linarith)]; ring
      rw [a4]
      refine ⟨by linarith [h0.1], fun h hne => heven (h0.2 (by linarith [h0.1]) fun hm => hne ?_)⟩
      linarith [h0.1]
    · have a4 : |u - -X| = u + X := by rw [abs_of_nonneg (by linarith)]; ring
      have a5 : |-m - -X| = |m - X| := by rw [← abs_neg]; congr 1; ring
      rw [a4, a5]
      refine ⟨by linarith [h0.1], fun h hne => heven (h0.2 (by linarith [h0.1]) fun hm => hne ?_)⟩
      linarith [h0.1]
    · have a4 : |-u - -X| = |u - X| := by rw [← abs_neg]; congr 1; ring
      have a5 : |-m - -X| = |m - X| := by rw [← abs_neg]; congr 1; ring
      rw [a4, a5]
      exact ⟨hzz.1, fun h hne => heven (hzz.2 h fun h' => hne (by rw [h']))⟩

/-- `roundUnits` rounds to nearest, ties to even. -/
theorem nearestEven_roundUnits (neg : Bool) (num den : Nat) (hd : 0 < den) :
    NearestEven (F64.roundUnits neg num den) ((if neg then -1 else 1) * ((num : ℚ) / den) / 2 ^ 1074) := by
  exact nearestEven_roundUnits_aux _ rfl neg num den hd

end Sys2Proof.Machine
end

