-- ==== Sys2Proof/Laws/Rounding.lean ====
section
/-! SUPPORT. How far one operation's result is from the exact one (spec 00_scope.md R14): a sum,
and a product that is a whole number of units, is finite below the overflow point, and where it is finite it is within `2^-53`
of the exact one; a quotient is no farther than any value of the format. -/

namespace Sys2Proof.Machine

/-- A result is finite where the exact value `q` is below the overflow point, and then within `2^-53` of it. -/
structure RoundsNear (r : F64) (q : ℚ) : Prop where
  finite : |q| < 2 ^ 1024 - 2 ^ 970 → F64.isFinite r = true
  near : F64.isFinite r = true → |F64.toRat r - q| ≤ |q| / 2 ^ 53

/-- A whole number of units rounds within `2^-53` of itself. -/
theorem roundUnits_near (neg : Bool) {num den : Nat} (hd : 0 < den) (hdvd : den ∣ num)
    (hf : F64.isFinite (F64.roundUnits neg num den) = true) :
    |F64.toRat (F64.roundUnits neg num den) - (if neg then -1 else 1) * ((num : ℚ) / den) / 2 ^ 1074| ≤
      (num : ℚ) / den / 2 ^ 1074 / 2 ^ 53 := by
  obtain ⟨s, q, hq, hr, h1, h2, -, h4⟩ := F64.roundUnits_spec neg num hd
  have hlt : min (s * 2 ^ 52 + q) (2047 * 2 ^ 52) < 2 ^ 63 := lt_of_le_of_lt (Nat.min_le_right _ _) (by norm_num)
  rw [hr, F64.isFinite_iff, F64.low_pack hlt] at hf
  have hmin : min (s * 2 ^ 52 + q) (2047 * 2 ^ 52) = s * 2 ^ 52 + q := by omega
  rw [hr, toRat_eq, F64.sign_pack hlt, F64.units_eq, F64.low_pack hlt, hmin, F64.unitsOf_places hq]
  obtain ⟨k, rfl⟩ := hdvd
  have hdq : (0 : ℚ) < den := by exact_mod_cast hd
  have e1 : ((den * k : Nat) : ℚ) / den = k := by push_cast; field_simp
  rw [e1]
  -- in whole units: `q * 2^s` against `k`
  have g1 : 2 * (q * 2 ^ s) ≤ 2 * k + 2 ^ s := by
    refine Nat.le_of_mul_le_mul_left ?_ hd
    calc den * (2 * (q * 2 ^ s)) = 2 * (q * (den * 2 ^ s)) := by ring
      _ ≤ 2 * (den * k) + den * 2 ^ s := h1
      _ = den * (2 * k + 2 ^ s) := by ring
  have g2 : 2 * k ≤ 2 * (q * 2 ^ s) + 2 ^ s := by
    refine Nat.le_of_mul_le_mul_left ?_ hd
    calc den * (2 * k) = 2 * (den * k) := by ring
      _ ≤ 2 * (q * (den * 2 ^ s)) + den * 2 ^ s := h2
      _ = den * (2 * (q * 2 ^ s) + 2 ^ s) := by ring
  have g3 : s ≠ 0 → 2 ^ 52 * 2 ^ s ≤ k := fun h => by
    refine Nat.le_of_mul_le_mul_left ?_ hd
    calc den * (2 ^ 52 * 2 ^ s) = 2 ^ 52 * (den * 2 ^ s) := by ring
      _ ≤ den * k := h4 h
  have key : |((q * 2 ^ s : Nat) : ℚ) - k| ≤ (k : ℚ) / 2 ^ 53 := by
    have hk0 : (0 : ℚ) ≤ k := Nat.cast_nonneg _
    rcases Nat.eq_zero_or_pos s with rfl | hs
    · have : q * 2 ^ 0 = k := by omega
      rw [this, sub_self, abs_zero]
      positivity
    · have c1 : (2 * (q * 2 ^ s : Nat) : ℚ) ≤ 2 * k + 2 ^ s := by exact_mod_cast g1
      have c2 : (2 * k : ℚ) ≤ 2 * (q * 2 ^ s : Nat) + 2 ^ s := by exact_mod_cast g2
      have c3 : (2 ^ 52 * 2 ^ s : ℚ) ≤ k := by exact_mod_cast g3 (by omega)
      rw [le_div_iff₀ (by norm_num)]
      generalize ((q * 2 ^ s : Nat) : ℚ) = Q at *
      generalize (2 : ℚ) ^ s = p at *
      have : |Q - k| ≤ p / 2 := abs_le.2 ⟨by linarith, by linarith⟩
      linarith
  have hU : (0 : ℚ) < 2 ^ 1074 := by positivity
  have e2 : (if neg = true then (-1 : ℚ) else 1) * ((q * 2 ^ s : Nat) : ℚ) / 2 ^ 1074 -
      (if neg = true then -1 else 1) * (k : ℚ) / 2 ^ 1074 =
      (if neg = true then -1 else 1) * ((((q * 2 ^ s : Nat) : ℚ) - k) / 2 ^ 1074) := by ring
  have e3 : |(if neg = true then (-1 : ℚ) else 1)| = 1 := by cases neg <;> simp
  rw [e2, abs_mul, e3, one_mul, abs_div, abs_of_pos hU, div_right_comm]
  exact div_le_div_of_nonneg_right key hU.le

theorem abs_signed (neg : Bool) (x : ℚ) (hx : 0 ≤ x) : |(if neg then -1 else 1) * x / 2 ^ 1074| = x / 2 ^ 1074 := by
  have e3 : |(if neg = true then (-1 : ℚ) else 1)| = 1 := by cases neg <;> simp
  rw [abs_div, abs_mul, e3, one_mul, abs_of_nonneg hx, abs_of_pos (show (0 : ℚ) < 2 ^ 1074 by positivity)]

theorem roundUnits_roundsNear (neg : Bool) {num den : Nat} (hd : 0 < den) (hdvd : den ∣ num) :
    RoundsNear (F64.roundUnits neg num den) ((if neg then -1 else 1) * ((num : ℚ) / den) / 2 ^ 1074) := by
  refine ⟨(nearestEven_roundUnits neg num den hd).1.2, fun hf => ?_⟩
  rw [abs_signed neg _ (div_nonneg (Nat.cast_nonneg _) (Nat.cast_nonneg _))]
  exact roundUnits_near neg hd hdvd hf

theorem sum_finite {n : NanBits} {a b : F64} (ha : F64.isFinite a = true) (hb : F64.isFinite b = true) :
    F64.add n a b = (if F64.signedUnits a + F64.signedUnits b = 0 then F64.zero (F64.sign a && F64.sign b)
      else F64.roundUnits (decide (F64.signedUnits a + F64.signedUnits b < 0))
        (F64.signedUnits a + F64.signedUnits b).natAbs 1) := by
  obtain ⟨c1, c2⟩ := not_nan_of_finite ha
  obtain ⟨d1, d2⟩ := not_nan_of_finite hb
  unfold F64.add
  simp only [c1, c2, d1, d2, Bool.or_self, Bool.false_eq_true, if_false]

theorem finite_zero (b : Bool) : F64.isFinite (F64.zero b) = true := by cases b <;> decide

theorem toRat_zero (b : Bool) : F64.toRat (F64.zero b) = 0 := by
  rw [toRat_eq, show F64.units (F64.zero b) = 0 by cases b <;> decide]
  simp

theorem finite_of_add {n : NanBits} {a b : F64} (h : F64.isFinite (F64.add n a b) = true) :
    F64.isFinite a = true ∧ F64.isFinite b = true := by
  have ⟨h1, h2⟩ := not_nan_of_finite h
  by_cases hn : (F64.isNaN a || F64.isNaN b) = true
  · rw [isNaN_add n a b (by simpa using hn)] at h1; cases h1
  · have hna : F64.isNaN a = false := by revert hn; cases F64.isNaN a <;> simp
    have hnb : F64.isNaN b = false := by revert hn; cases F64.isNaN b <;> simp
    unfold F64.add at h1 h2
    rw [if_neg hn] at h1 h2
    by_cases ia : F64.isInf a = true
    · rw [if_pos ia] at h1 h2
      split_ifs at h1 h2
      · rw [isNaN_quiet] at h1; cases h1
      · rw [ia] at h2; cases h2
    · rw [if_neg ia] at h2
      by_cases ib : F64.isInf b = true
      · rw [if_pos ib, ib] at h2; cases h2
      · exact ⟨finite_of_not_nan hna (Bool.eq_false_iff.2 ia), finite_of_not_nan hnb (Bool.eq_false_iff.2 ib)⟩

theorem finite_of_sub {n : NanBits} {a b : F64} (h : F64.isFinite (F64.sub n a b) = true) :
    F64.isFinite a = true ∧ F64.isFinite b = true := by
  have := finite_of_add h
  rwa [isFinite_neg] at this

/-- A sum of finite values. -/
theorem add_near (n : NanBits) {a b : F64} (ha : F64.isFinite a = true) (hb : F64.isFinite b = true) :
    RoundsNear (F64.add n a b) (F64.toRat a + F64.toRat b) := by
  rw [sum_finite ha hb]
  have e : F64.toRat a + F64.toRat b = ((F64.signedUnits a + F64.signedUnits b : Int) : ℚ) / 2 ^ 1074 := by
    unfold F64.toRat; push_cast; ring
  rw [e]
  generalize F64.signedUnits a + F64.signedUnits b = S
  by_cases h : S = 0
  · subst h
    rw [if_pos rfl]
    exact ⟨fun _ => finite_zero _, fun _ => by rw [toRat_zero]; simp⟩
  · rw [if_neg h]
    have hS : (S : ℚ) = (if decide (S < 0) = true then -1 else 1) * ((S.natAbs : ℚ) / (1 : Nat)) := by
      have h3 : (S.natAbs : ℚ) = |(S : ℚ)| := by rw [← Int.cast_abs, ← Int.natCast_natAbs, Int.cast_natCast]
      rw [h3]
      by_cases hs : S < 0
      · simp [hs, abs_of_neg (show (S : ℚ) < 0 by exact_mod_cast hs)]
      · simp [hs, abs_of_nonneg (show (0 : ℚ) ≤ S by exact_mod_cast not_lt.1 hs)]
    rw [hS]
    exact roundUnits_roundsNear _ one_pos (one_dvd _)

/-- A difference of finite values. -/
theorem sub_near (n : NanBits) {a b : F64} (ha : F64.isFinite a = true) (hb : F64.isFinite b = true) :
    RoundsNear (F64.sub n a b) (F64.toRat a - F64.toRat b) := by
  have e : F64.toRat a - F64.toRat b = F64.toRat a + F64.toRat (F64.neg b) := by rw [toRat_neg]; ring
  rw [e]
  exact add_near n ha (by rw [isFinite_neg]; exact hb)

/-- `f64(m)` is exact below `2^53`. -/
theorem ofNat_exact {m : Nat} (hm : m < 2 ^ 53) : F64.isFinite (F64.ofNat m) = true ∧
    F64.sign (F64.ofNat m) = false ∧ F64.units (F64.ofNat m) = m * 2 ^ 1074 := by
  obtain ⟨n, hn, hu⟩ := exists_unitsOf m hm
  have hlt : n < 2 ^ 63 := by omega
  have : F64.ofNat m = F64.pack false n := by
    have := F64.roundUnits_exact false (den := 1) one_pos (le_of_lt hn)
    rwa [Nat.mul_one, hu] at this
  rw [this, F64.isFinite_iff, F64.low_pack hlt, F64.sign_pack hlt, F64.units_eq, F64.low_pack hlt]
  exact ⟨hn, rfl, hu⟩

/-- A product that is a whole number of units. -/
theorem mul_near (n : NanBits) {a b : F64} (ha : F64.isFinite a = true) (hb : F64.isFinite b = true)
    (hdvd : 2 ^ 1074 ∣ F64.units a * F64.units b) : RoundsNear (F64.mul n a b) (F64.toRat a * F64.toRat b) := by
  obtain ⟨c1, c2⟩ := not_nan_of_finite ha
  obtain ⟨d1, d2⟩ := not_nan_of_finite hb
  have e : F64.mul n a b = F64.roundUnits (F64.sign a != F64.sign b) (F64.units a * F64.units b) (2 ^ 1074) := by
    unfold F64.mul
    simp only [c1, c2, d1, d2, Bool.or_self, Bool.false_eq_true, if_false]
  have hUn : 0 < 2 ^ 1074 := by positivity
  have hq : F64.toRat a * F64.toRat b = (if (F64.sign a != F64.sign b) = true then -1 else 1) *
      (((F64.units a * F64.units b : Nat) : ℚ) / ((2 ^ 1074 : Nat) : ℚ)) / 2 ^ 1074 := by
    rw [toRat_eq, toRat_eq, Nat.cast_mul, Nat.cast_pow, Nat.cast_ofNat]
    generalize (2 : ℚ) ^ 1074 = U
    cases F64.sign a <;> cases F64.sign b <;> simp <;> ring
  rw [e, hq]
  exact roundUnits_roundsNear _ hUn hdvd

theorem toRat_ofNat {m : Nat} (hm : m < 2 ^ 53) : F64.toRat (F64.ofNat m) = m := by
  obtain ⟨-, g2, g3⟩ := ofNat_exact hm
  rw [toRat_eq, g2, g3, Nat.cast_mul, Nat.cast_pow, Nat.cast_ofNat, if_neg Bool.false_ne_true, one_mul,
    mul_div_cancel_right₀ _ (pow_ne_zero _ two_ne_zero)]

/-- A product with a whole number. -/
theorem mul_ofNat_near (n : NanBits) {a : F64} {m : Nat} (ha : F64.isFinite a = true) (hm : m < 2 ^ 53) :
    RoundsNear (F64.mul n a (F64.ofNat m)) (m * F64.toRat a) := by
  have h := mul_near n ha (ofNat_exact hm).1 (by
    rw [(ofNat_exact hm).2.2]
    exact Dvd.dvd.mul_left (Dvd.intro_left _ rfl) _)
  rwa [toRat_ofNat hm, mul_comm] at h

/-- A finite value is below the overflow point. -/
theorem toRat_lt {a : F64} (ha : F64.isFinite a = true) : |F64.toRat a| < 2 ^ 1024 - 2 ^ 970 := by
  have hl := F64.isFinite_iff.1 ha
  have h := nearestEven_roundUnits (F64.sign a) (F64.units a * 1) 1 one_pos
  rw [F64.units_eq, F64.roundUnits_exact _ one_pos (le_of_lt hl), F64.pack_sign_low] at h
  have := h.1.1 ha
  rw [toRat_eq, F64.units_eq]
  simpa using this

theorem abs_div_le {q : ℚ} {m : Nat} (h0 : 0 < m) : |q / m| ≤ |q| := by
  have : (1 : ℚ) ≤ m := by exact_mod_cast h0
  rw [abs_div, abs_of_nonneg (by linarith : (0 : ℚ) ≤ m)]
  exact div_le_self (abs_nonneg q) this

/-- A quotient by a whole number below overflow is finite, and no value of the format is nearer. -/
theorem div_near (n : NanBits) {a c : F64} {m : Nat} (ha : F64.isFinite a = true) (hc : F64.isFinite c = true)
    (h0 : 0 < m) (hm : m < 2 ^ 53) :
    F64.isFinite (F64.div n a (F64.ofNat m)) = true ∧
    |F64.toRat (F64.div n a (F64.ofNat m)) - F64.toRat a / m| ≤ |F64.toRat c - F64.toRat a / m| := by
  obtain ⟨g1, g2, g3⟩ := ofNat_exact hm
  obtain ⟨c1, c2⟩ := not_nan_of_finite ha
  obtain ⟨d1, d2⟩ := not_nan_of_finite g1
  have hUn : 0 < 2 ^ 1074 := by positivity
  have hz : F64.isZero (F64.ofNat m) = false := by
    rw [Bool.eq_false_iff]
    intro h
    have : F64.units (F64.ofNat m) = 0 := by rw [F64.units_eq, F64.isZero_iff.1 h]; decide
    rw [g3] at this
    have := Nat.mul_pos h0 hUn
    omega
  have e : F64.div n a (F64.ofNat m) = F64.roundUnits (F64.sign a) (F64.units a * 2 ^ 1074) (m * 2 ^ 1074) := by
    unfold F64.div
    simp only [c1, c2, d1, d2, hz, Bool.or_self, Bool.false_eq_true, if_false, g2, g3, Bool.bne_false]
  have hmq : (0 : ℚ) < m := by exact_mod_cast h0
  have hq : F64.toRat a / m = (if F64.sign a = true then -1 else 1) *
      (((F64.units a * 2 ^ 1074 : Nat) : ℚ) / ((m * 2 ^ 1074 : Nat) : ℚ)) / 2 ^ 1074 := by
    rw [toRat_eq]
    have : (((F64.units a * 2 ^ 1074 : Nat) : ℚ) / ((m * 2 ^ 1074 : Nat) : ℚ)) = F64.units a / m := by
      push_cast; field_simp
    rw [this]; ring
  rw [e, hq]
  have hr := lt_of_le_of_lt (abs_div_le h0) (toRat_lt ha)
  rw [hq] at hr
  have hn := nearestEven_roundUnits (F64.sign a) (F64.units a * 2 ^ 1074) (m * 2 ^ 1074) (Nat.mul_pos h0 hUn)
  have hf := hn.1.2 hr
  exact ⟨hf, (hn.2 hf c hc).1⟩

theorem not_finite_inf (b : Bool) : F64.isFinite (F64.inf b) = false := by cases b <;> decide

theorem not_finite_of_nan {v : F64} (h : F64.isNaN v = true) : F64.isFinite v = false := by
  rw [Bool.eq_false_iff]
  intro hc
  rw [(not_nan_of_finite hc).1] at h
  cases h

theorem finite_of_mul {n : NanBits} {a b : F64} (h : F64.isFinite (F64.mul n a b) = true) : F64.isFinite a = true := by
  have ⟨h1, h2⟩ := not_nan_of_finite h
  by_cases hn : (F64.isNaN a || F64.isNaN b) = true
  · rw [isNaN_mul n a b (by simpa using hn)] at h1; cases h1
  · have hna : F64.isNaN a = false := by revert hn; cases F64.isNaN a <;> simp
    refine finite_of_not_nan hna (Bool.eq_false_iff.2 fun ia => ?_)
    unfold F64.mul at h
    simp only [hn, ia, if_true, Bool.false_eq_true, if_false] at h
    split_ifs at h
    · rw [not_finite_of_nan (isNaN_quiet n)] at h; cases h
    · rw [not_finite_inf] at h; cases h

theorem finite_of_div {n : NanBits} {a b : F64} (h : F64.isFinite (F64.div n a b) = true) : F64.isFinite a = true := by
  have ⟨h1, h2⟩ := not_nan_of_finite h
  by_cases hn : (F64.isNaN a || F64.isNaN b) = true
  · rw [isNaN_div n a b (by simpa using hn)] at h1; cases h1
  · have hna : F64.isNaN a = false := by revert hn; cases F64.isNaN a <;> simp
    refine finite_of_not_nan hna (Bool.eq_false_iff.2 fun ia => ?_)
    unfold F64.div at h
    simp only [hn, ia, if_true, Bool.false_eq_true, if_false] at h
    split_ifs at h
    · rw [not_finite_of_nan (isNaN_quiet n)] at h; cases h
    · rw [not_finite_inf] at h; cases h

end Sys2Proof.Machine
end

