-- ==== Sys2Proof/Machine/Num.lean ====
section
/-! DEFINITION. The numeric kernel `Num` (spec 44_fft.md R170): every result that N2 and N3 state is computed here,
every other is a free value of Config (logs 9 to 11, 23). N1 holds because every field is a function. The 1D transform for
lengths of 3 and more is an argument here; Machine/Kernel.lean gives it, with N4. -/

namespace Sys2Proof

open Config (NumFn)

/-- `Num.abs(re, im)`. An infinite component gives +inf even beside a NaN (N3, K3; log 23). -/
def Num.abs (re im : F64) : F64 :=
  if F64.isInf re || F64.isInf im then F64.inf false
  else if F64.isNaN re || F64.isNaN im then F64.quiet (Config.numNan .abs [re, im])
  else if F64.isZero im then F64.mag re
  else if F64.isZero re then F64.mag im
  else Config.numAbs re im

/-- `Num.arg(re, im)`: +0 for `im = +0` and `re > 0` or `re = +0` (N3), and for `re = -0` (92_eei_decisions.md D27;
log 10). -/
def Num.arg (re im : F64) : F64 :=
  if F64.isNaN re || F64.isNaN im then F64.quiet (Config.numNan .arg [re, im])
  else if im = F64.zero false ∧ (F64.sign re = false ∨ F64.isZero re = true) then F64.zero false
  else Config.numArg re im

/-- `Num.log10(v)`: -inf at both zeros, +0 at 1 (N3). -/
def Num.log10 (v : F64) : F64 :=
  if F64.isNaN v then F64.quiet (Config.numNan .log10 [v])
  else if F64.isZero v then F64.inf true
  else if v = F64.one then F64.zero false
  else Config.numLog10 v

/-- `Num.pow10(v)`: +0 at -inf, 1 at +0 (N3). -/
def Num.pow10 (v : F64) : F64 :=
  if F64.isNaN v then F64.quiet (Config.numNan .pow10 [v])
  else if v = F64.inf true then F64.zero false
  else if v = F64.zero false then F64.one
  else Config.numPow10 v

/-- `Num.cos(v)`: 1 at both zeros (N3). -/
def Num.cos (v : F64) : F64 :=
  if F64.isNaN v then F64.quiet (Config.numNan .cos [v])
  else if F64.isZero v then F64.one
  else Config.numCos v

/-- `Num.sin(v)`: +0 at +0 (N3). -/
def Num.sin (v : F64) : F64 :=
  if F64.isNaN v then F64.quiet (Config.numNan .sin [v])
  else if v = F64.zero false then F64.zero false
  else Config.numSin v

/-- A complex value with a NaN component. -/
def C64.hasNaN (z : C64) : Bool := F64.isNaN z.re || F64.isNaN z.im

/-- A value with every NaN replaced by `qNaN`: what a function of binary64 values, and not of NaN bits, sees (N1,
I11; log 11). -/
def F64.canon (v : F64) : F64 := if F64.isNaN v then F64.qNaN else v

/-- `F64.canon` of both components. -/
def C64.canon (z : C64) : C64 := { re := F64.canon z.re, im := F64.canon z.im }

/-- Output `k` of a 1D transform, as a function of the sign, the vector and `k`, for vectors of length 3 and more. -/
abbrev DftBin := DftSign → List C64 → Nat → C64

/-- Output `k` of `Num.dft1` for a vector of length 3 or more: `bin`'s (I1), but with a NaN component where an input has
one (N3). The bits of the inputs' NaNs reach only that NaN's bits (log 11). -/
def Num.dftOutputOf (bin : DftBin) (sign : DftSign) (v : List C64) (k : Nat) : C64 :=
  let u := v.map C64.canon
  let z := bin sign u k
  if v.any C64.hasNaN then
    let nan := F64.quiet (Config.dftNan sign v (2 * k))
    if Config.dftNanInReal sign u k then { z with re := nan } else { z with im := nan }
  else z

/-- `Num.dft1(sign, v)` (R170) with `bin` for lengths of 3 and more: N2 for lengths 1 and 2. The empty vector does not
occur. -/
def Num.dft1Of (bin : DftBin) (sign : DftSign) (v : List C64) : List C64 :=
  match v with
  | [] => []
  | [a] => [a]
  | [a, b] =>
    let n := Config.dftNan sign v
    [{ re := F64.add (n 0) a.re b.re, im := F64.add (n 1) a.im b.im },
     { re := F64.sub (n 2) a.re b.re, im := F64.sub (n 3) a.im b.im }]
  | _ => (List.range v.length).map (Num.dftOutputOf bin sign v)

end Sys2Proof
end

