-- ==== Sys2Proof/Machine/Transform.lean ====
section
/-! DEFINITION. The two-pass 2D transforms (spec 44_fft.md R172, R173) over any 1D transform, and N4 of R170: what the round
trip of R177 asks of one. One channel is a list of its `W` rows, each of `H` elements. -/

namespace Sys2Proof.Machine

/-- The element of a channel at `(x, y)`. -/
def entry (rows : List (List C64)) (x y : Nat) : C64 := (rows.getD x []).getD y default

/-- Rows to columns: column `y` of `w` rows, for each `y < h`. -/
def transpose (h : Nat) (rows : List (List C64)) : List (List C64) :=
  (List.range h).map fun y => rows.map fun row => row.getD y default

/-- The two passes of R172 and R173: axis 1 to completion, then axis 0. -/
def passesOf (dft1 : DftSign → List C64 → List C64) (sign : DftSign) (w h : Nat) (rows : List (List C64)) :
    List (List C64) :=
  let pass1 := rows.map (dft1 sign)
  let pass2 := (transpose h pass1).map (dft1 sign)
  transpose w pass2

/-- `ifft2` (R173): the passes with the other sign, then every component divided by `f64(W * H)`; `nan` gives the NaN
bits of the division of component `k`, counted re, im, re, im, … over the channel. -/
def ifft2Of (dft1 : DftSign → List C64 → List C64) (nan : Nat → NanBits) (w h : Nat) (rows : List (List C64)) :
    List (List C64) :=
  let r := passesOf dft1 .plus w h rows
  let n := F64.ofNat (w * h)
  (List.range w).map fun u => (List.range h).map fun v =>
    let z := entry r u v
    { re := F64.div (nan (2 * (u * h + v))) z.re n, im := F64.div (nan (2 * (u * h + v) + 1)) z.im n }

/-- The real part at `(x, y)` of the inverse transform of the transform of a real array (R177); `nan` is a choice of NaN
bits. -/
def roundTripOf (dft1 : DftSign → List C64 → List C64) (nan : Nat → NanBits) (w h : Nat) (a : Nat → Nat → F64)
    (x y : Nat) : F64 :=
  (entry (ifft2Of dft1 nan w h (passesOf dft1 .minus w h ((List.range w).map fun x => (List.range h).map fun y =>
    ({ re := a x y, im := F64.zero false } : C64)))) x y).re

/-- The exact transforms of a real array do not overflow: none of their values, the largest of which is `W*H` times the
array's before R173 divides it, rounds to an infinity. For the sides 1 and 2, where N2 of R170 fixes every rounding, half of
that range is enough for N2's roundings never to overflow. -/
def RoundTripHasRoom (w h : Nat) (a : Nat → Nat → F64) : Prop :=
  ∀ x < w, ∀ y < h, (w * h : ℚ) * |F64.toRat (a x y)| < 2 ^ 1024 - 2 ^ 970 ∧
    (w ≤ 2 → h ≤ 2 → (w * h : ℚ) * |F64.toRat (a x y)| ≤ 2 ^ 1023)

/-- N4 of R170, for every finite real array of a legal shape: the real part of a round trip (R177) that is finite is within
`tol` of the array's, relative to the array's largest magnitude, and it is finite where the exact transforms do not
overflow (log 28). -/
def RoundTripKept (tol : ℚ) (dft1 : DftSign → List C64 → List C64) : Prop :=
  ∀ (w h : Nat) (a : Nat → Nat → F64), 1 ≤ w ∧ w ≤ Config.maxDim → 1 ≤ h ∧ h ≤ Config.maxDim →
    (∀ x < w, ∀ y < h, F64.isFinite (a x y) = true) →
    ∀ (nan : Nat → NanBits), ∀ x < w, ∀ y < h,
      let r := roundTripOf dft1 nan w h a x y
      (RoundTripHasRoom w h a → F64.isFinite r = true) ∧
      (F64.isFinite r = true → ∃ x0 < w, ∃ y0 < h,
        |F64.toRat r - F64.toRat (a x y)| ≤ tol * |F64.toRat (a x0 y0)|)

/-- A value of magnitude 1 or more times `1 - 2^-30`, any other as it is. -/
def shrink (v : F64) : F64 := if F64.expBits v < 1023 then v else F64.mul 0 v 0x3FEFFFFFFF800000

/-- A 1D transform whose round trip is easily bounded: forward `shrink`, which keeps later sums from overflow, and inverse a
product with the length. It is no Fourier transform, and no block need have it: it is only the evidence that N1 to N4 can
be met together. -/
def scaledBin : DftBin := fun sign v k =>
  let z := v.getD k default
  match sign with
  | .minus => { re := shrink z.re, im := shrink z.im }
  | .plus => { re := F64.mul 0 z.re (F64.ofNat v.length), im := F64.mul 0 z.im (F64.ofNat v.length) }

end Sys2Proof.Machine
end

