-- ==== Sys2Proof/Laws/RoundTrip.lean ====
section
/-! SUPPORT. Entries of the two-pass transforms over any 1D transform (spec 44_fft.md R172, R173), and that `scaledBin` keeps
N4 of R170 within FFT_TOL: N1 to N4 can be met together (Machine/Kernel.lean needs it). -/

namespace Sys2Proof.Machine

theorem getD_map_range {α : Type} (f : Nat → α) (d : α) {k n : Nat} (h : k < n) :
    ((List.range n).map f).getD k d = f k := by
  rw [List.getD_eq_getElem?_getD, List.getElem?_map, List.getElem?_range h]; rfl

theorem entry_table {w h : Nat} (f : Nat → Nat → C64) {x y : Nat} (hx : x < w) (hy : y < h) :
    entry ((List.range w).map fun x => (List.range h).map fun y => f x y) x y = f x y := by
  unfold entry
  rw [getD_map_range _ _ hx, getD_map_range _ _ hy]

/-- One entry of the two passes: axis 1 first. -/
theorem entry_passesOf (dft1 : DftSign → List C64 → List C64) (sign : DftSign) {w h : Nat} (a : Nat → Nat → C64) {u v : Nat}
    (hu : u < w) (hv : v < h) :
    entry (passesOf dft1 sign w h ((List.range w).map fun x => (List.range h).map fun y => a x y)) u v =
      (dft1 sign ((List.range w).map fun x => (dft1 sign ((List.range h).map fun y => a x y)).getD v default)).getD u
        default := by
  unfold passesOf entry transpose
  simp only
  rw [getD_map_range _ _ hu, List.map_map, List.map_map, getD_map_range _ _ hv]
  simp only [Function.comp, List.map_map]
  rfl

/-- What the passes answer is the table of its entries. -/
theorem passesOf_table (dft1 : DftSign → List C64 → List C64) (hl : ∀ s v, (dft1 s v).length = v.length) (sign : DftSign)
    (w h : Nat) (a : Nat → Nat → C64) :
    let r := passesOf dft1 sign w h ((List.range w).map fun x => (List.range h).map fun y => a x y)
    r = (List.range w).map fun u => (List.range h).map fun v => entry r u v := by
  intro r
  have h1 : r.length = w := by simp [r, passesOf, transpose]
  have h2 : ∀ q ∈ r, q.length = h := by
    intro q hq
    simp only [r, passesOf, transpose, List.mem_map] at hq
    obtain ⟨k, -, rfl⟩ := hq
    simp
  refine List.ext_getElem (by simp [h1]) fun i hi hj => ?_
  rw [List.getElem_map, List.getElem_range]
  have hri : (r.getD i []) = r[i] := by
    rw [List.getD_eq_getElem?_getD, List.getElem?_eq_getElem hi]; rfl
  refine List.ext_getElem (by simp [h2 _ (List.getElem_mem hi)]) fun j hj1 hj2 => ?_
  rw [List.getElem_map, List.getElem_range]
  unfold entry
  rw [hri, List.getD_eq_getElem?_getD, List.getElem?_eq_getElem hj1]
  rfl

theorem dft1Of_length (bin : DftBin) (s : DftSign) (v : List C64) : (Num.dft1Of bin s v).length = v.length := by
  unfold Num.dft1Of; split <;> simp

/-- The real part of a round trip, entry by entry. -/
theorem roundTripOf_eq (bin : DftBin) (nan : Nat → NanBits) {w h : Nat} (a : Nat → Nat → F64) {x y : Nat} (hx : x < w)
    (hy : y < h) :
    let d := Num.dft1Of bin
    let f := fun u v => (d .minus ((List.range w).map fun x => (d .minus ((List.range h).map fun y =>
      ({ re := a x y, im := F64.zero false } : C64))).getD v default)).getD u default
    roundTripOf d nan w h a x y = F64.div (nan (2 * (x * h + y)))
      ((d .plus ((List.range w).map fun u => (d .plus ((List.range h).map fun v => f u v)).getD y default)).getD x default).re
      (F64.ofNat (w * h)) := by
  intro d f
  unfold roundTripOf ifft2Of
  simp only
  rw [entry_table _ hx hy]
  have hf : passesOf d .minus w h ((List.range w).map fun x => (List.range h).map fun y =>
      ({ re := a x y, im := F64.zero false } : C64)) = (List.range w).map fun u => (List.range h).map fun v => f u v := by
    refine (passesOf_table d (dft1Of_length bin) .minus w h _).trans (List.map_congr_left fun u hu =>
      List.map_congr_left fun v hv => ?_)
    exact entry_passesOf d .minus _ (List.mem_range.1 hu) (List.mem_range.1 hv)
  simp only [d] at hf ⊢
  rw [hf, entry_passesOf _ _ _ hx hy]

/-! ### One axis of `scaledBin` on real values -/

/-- What `scaledBin`'s 1D transform of `n` real values answers at `k`. -/
def axisOut (s : DftSign) (n : Nat) (f : Nat → F64) (k : Nat) : F64 :=
  if n = 2 then if k = 0 then F64.add 0 (f 0) (f 1) else F64.sub 0 (f 0) (f 1)
  else if n = 1 then f k
  else match s with
    | .minus => shrink (f k)
    | .plus => F64.mul 0 (f k) (F64.ofNat n)

/-- The exact value it stands for, `shrink` aside. -/
def axis (s : DftSign) (n : Nat) (g : Nat → ℚ) (k : Nat) : ℚ :=
  if n = 2 then if k = 0 then g 0 + g 1 else g 0 - g 1
  else match s with
    | .minus => g k
    | .plus => n * g k

/-- What `shrink` multiplies by. -/
def shrinkBy : ℚ := 1 - 1 / 2 ^ 30

/-- `shrink`'s part in a pass. -/
def share (s : DftSign) (n : Nat) : ℚ :=
  match s with
  | .minus => if 3 ≤ n then shrinkBy else 1
  | .plus => 1

/-- How much a pass can grow a value. -/
def gain (s : DftSign) (n : Nat) : ℚ :=
  match s with
  | .minus => if n = 2 then 2 else 1
  | .plus => n

theorem add_nan_free (n m : NanBits) {a b : F64} (ha : F64.isFinite a = true) (hb : F64.isFinite b = true) :
    F64.add n a b = F64.add m a b := by rw [sum_finite ha hb, sum_finite ha hb]

theorem sub_nan_free (n m : NanBits) {a b : F64} (ha : F64.isFinite a = true) (hb : F64.isFinite b = true) :
    F64.sub n a b = F64.sub m a b := add_nan_free n m ha (by rw [isFinite_neg]; exact hb)

theorem add_zeros (n : NanBits) : F64.add n (F64.zero false) (F64.zero false) = F64.zero false := by
  rw [add_nan_free n 0 (finite_zero _) (finite_zero _)]; decide +kernel

theorem sub_zeros (n : NanBits) : F64.sub n (F64.zero false) (F64.zero false) = F64.zero false := by
  rw [sub_nan_free n 0 (finite_zero _) (finite_zero _)]; decide +kernel

theorem mul_zero_ofNat {m : Nat} (hm : m < 2 ^ 53) : F64.mul 0 (F64.zero false) (F64.ofNat m) = F64.zero false := by
  obtain ⟨g1, g2, g3⟩ := ofNat_exact hm
  obtain ⟨d1, d2⟩ := not_nan_of_finite g1
  obtain ⟨c1, c2⟩ := not_nan_of_finite (finite_zero false)
  unfold F64.mul
  simp only [c1, c2, d1, d2, Bool.or_self, Bool.false_eq_true, if_false, g2]
  rw [show F64.units (F64.zero false) = 0 by decide, Nat.zero_mul]
  decide +kernel

theorem shrink_zero : shrink (F64.zero false) = F64.zero false := by decide

theorem finite_of_shrink {v : F64} (h : F64.isFinite (shrink v) = true) : F64.isFinite v = true := by
  unfold shrink at h
  split_ifs at h
  · exact h
  · exact finite_of_mul h

theorem shrinkBy_exact : F64.isFinite 0x3FEFFFFFFF800000 = true ∧ F64.toRat 0x3FEFFFFFFF800000 = shrinkBy := by
  refine ⟨by decide, ?_⟩
  have hu : F64.units 0x3FEFFFFFFF800000 = (2 ^ 53 - 2 ^ 23) * 2 ^ 1021 := by decide +kernel
  have hs : F64.sign 0x3FEFFFFFFF800000 = false := by decide
  rw [toRat_eq, hs, hu, Nat.cast_mul, Nat.cast_pow, Nat.cast_ofNat, if_neg Bool.false_ne_true, one_mul]
  rw [show (2 : ℚ) ^ 1074 = 2 ^ 53 * 2 ^ 1021 by rw [← pow_add]]
  have : (0 : ℚ) < 2 ^ 1021 := by positivity
  generalize (2 : ℚ) ^ 1021 = p at *
  unfold shrinkBy
  field_simp
  norm_num

/-- `shrink` on a finite value: finite, and off by rounding alone from 1 on, by `2^-30` of the value below it. -/
theorem shrink_spec {v : F64} (hv : F64.isFinite v = true) : F64.isFinite (shrink v) = true ∧
    (|F64.toRat (shrink v) - shrinkBy * F64.toRat v| ≤ |F64.toRat v| / 2 ^ 53 ∨
      (|F64.toRat v| ≤ 1 ∧ |F64.toRat (shrink v) - shrinkBy * F64.toRat v| ≤ |F64.toRat v| / 2 ^ 30)) := by
  unfold shrink
  split_ifs with he
  · refine ⟨hv, .inr ⟨?_, ?_⟩⟩
    · have hu : F64.units v ≤ 2 ^ 1074 := by
        unfold F64.units
        have hfr : F64.fracBits v < 2 ^ 52 := Nat.mod_lt _ (by norm_num)
        split
        · exact le_trans hfr.le (Nat.pow_le_pow_right (by norm_num) (by norm_num))
        · calc (2 ^ 52 + F64.fracBits v) * 2 ^ (F64.expBits v - 1) ≤ 2 ^ 53 * 2 ^ 1021 :=
                Nat.mul_le_mul (by omega) (Nat.pow_le_pow_right (by norm_num) (by omega))
            _ = 2 ^ 1074 := by rw [← pow_add]
      have hq : (F64.units v : ℚ) ≤ 2 ^ 1074 := by
        have : ((F64.units v : Nat) : ℚ) ≤ ((2 ^ 1074 : Nat) : ℚ) := Nat.cast_le.2 hu
        rwa [Nat.cast_pow, Nat.cast_ofNat] at this
      rw [toRat_eq, abs_signed _ _ (Nat.cast_nonneg _)]
      exact (div_le_one (by positivity)).2 hq
    · have : F64.toRat v - shrinkBy * F64.toRat v = F64.toRat v / 2 ^ 30 := by unfold shrinkBy; ring
      rw [this, abs_div, abs_of_pos (show (0 : ℚ) < 2 ^ 30 by norm_num)]
  · obtain ⟨c1, c2⟩ := shrinkBy_exact
    have hdvd : 2 ^ 1074 ∣ F64.units v * F64.units 0x3FEFFFFFFF800000 := by
      have hu : F64.units 0x3FEFFFFFFF800000 = (2 ^ 53 - 2 ^ 23) * 2 ^ 1021 := by decide +kernel
      have hd : 2 ^ 53 ∣ F64.units v := by
        unfold F64.units
        rw [if_neg (by omega)]
        exact Dvd.dvd.mul_left (Nat.pow_dvd_pow 2 (by omega)) _
      rw [hu, show (2 : Nat) ^ 1074 = 2 ^ 53 * 2 ^ 1021 by rw [← pow_add]]
      exact Nat.mul_dvd_mul hd (Dvd.intro_left _ rfl)
    have hn := mul_near 0 hv c1 hdvd
    rw [c2, mul_comm] at hn
    have hle : |shrinkBy * F64.toRat v| ≤ |F64.toRat v| := by
      rw [abs_mul, abs_of_nonneg (by unfold shrinkBy; norm_num)]
      exact mul_le_of_le_one_left (abs_nonneg _) (by unfold shrinkBy; norm_num)
    have hf := hn.finite (lt_of_le_of_lt hle (toRat_lt hv))
    exact ⟨hf, .inl (le_trans (hn.near hf) (div_le_div_of_nonneg_right hle (by norm_num)))⟩

/-! The vector a pass transforms, and its outputs -/

theorem dft1Of_long (bin : DftBin) (s : DftSign) (v : List C64) (h : 3 ≤ v.length) :
    Num.dft1Of bin s v = (List.range v.length).map (Num.dftOutputOf bin s v) := by
  match v, h with
  | _ :: _ :: _ :: _, _ => rfl

/-- A finite real part of an output is `axisOut` of the real parts, whatever else the vector holds. -/
theorem dft1_re (s : DftSign) {n : Nat} (z : Nat → C64) {k : Nat} (hk : k < n)
    (hf : F64.isFinite ((Num.dft1Of scaledBin s ((List.range n).map z)).getD k default).re = true) :
    ((Num.dft1Of scaledBin s ((List.range n).map z)).getD k default).re = axisOut s n (fun j => (z j).re) k := by
  match n, hk with
  | 1, hk =>
    obtain rfl : k = 0 := by omega
    rfl
  | 2, hk =>
    change F64.isFinite ((Num.dft1Of scaledBin s [z 0, z 1]).getD k default).re = true at hf
    change ((Num.dft1Of scaledBin s [z 0, z 1]).getD k default).re = _
    rcases (by omega : k = 0 ∨ k = 1) with rfl | rfl
    · simp only [Num.dft1Of, List.getD_cons_zero, axisOut, if_true] at hf ⊢
      exact add_nan_free _ _ (finite_of_add hf).1 (finite_of_add hf).2
    · simp only [Num.dft1Of, List.getD_cons_succ, List.getD_cons_zero, axisOut, if_true, one_ne_zero, if_false] at hf ⊢
      exact sub_nan_free _ _ (finite_of_sub hf).1 (finite_of_sub hf).2
  | n + 3, hk =>
    have hlen : ((List.range (n + 3)).map z).length = n + 3 := by simp
    rw [dft1Of_long _ _ _ (by rw [hlen]; omega), getD_map_range _ _ (by rw [hlen]; exact hk)] at hf ⊢
    have hb : (Num.dftOutputOf scaledBin s ((List.range (n + 3)).map z) k).re =
        (scaledBin s (((List.range (n + 3)).map z).map C64.canon) k).re := by
      unfold Num.dftOutputOf at hf ⊢
      simp only at hf ⊢
      split
      · next hany =>
        rw [if_pos hany] at hf
        split
        · next hre =>
          rw [if_pos hre] at hf
          simp only at hf
          rw [not_finite_of_nan (isNaN_quiet _)] at hf
          cases hf
        · rfl
      · rfl
    rw [hb] at hf ⊢
    have hg : (((List.range (n + 3)).map z).map C64.canon).getD k default = C64.canon (z k) := by
      rw [List.map_map, getD_map_range _ _ hk]; rfl
    have hcan : F64.isFinite (F64.canon (z k).re) = true → F64.canon (z k).re = (z k).re := fun h => by
      unfold F64.canon at h ⊢
      split
      · next hn =>
        rw [if_pos hn, show F64.isFinite F64.qNaN = false by decide] at h
        cases h
      · rfl
    have e2 : n + 3 ≠ 2 := by omega
    have e1 : n + 3 ≠ 1 := by omega
    cases s with
    | minus =>
      simp only [scaledBin, hg, axisOut, e2, e1, if_false] at hf ⊢
      show shrink (F64.canon (z k).re) = _
      rw [hcan (finite_of_shrink hf)]
    | plus =>
      simp only [scaledBin, hg, axisOut, e2, e1, if_false, List.length_map, List.length_range] at hf ⊢
      show F64.mul 0 (F64.canon (z k).re) _ = _
      rw [hcan (finite_of_mul hf)]

/-- A 1D transform of real values, imaginary parts +0, is again one of real values. -/
theorem dft1_real (s : DftSign) {n : Nat} (hn : n < 2 ^ 53) (f : Nat → F64) (hf : ∀ j < n, F64.isFinite (f j) = true)
    {k : Nat} (hk : k < n) :
    (Num.dft1Of scaledBin s ((List.range n).map fun j => ({ re := f j, im := F64.zero false } : C64))).getD k default =
      { re := axisOut s n f k, im := F64.zero false } := by
  match n, hn, hf, hk with
  | 1, _, _, hk =>
    obtain rfl : k = 0 := by omega
    rfl
  | 2, _, hf, hk =>
    show (Num.dft1Of scaledBin s [{ re := f 0, im := F64.zero false }, { re := f 1, im := F64.zero false }]).getD k default = _
    have h0 := hf 0 (by omega)
    have h1 := hf 1 (by omega)
    rcases (by omega : k = 0 ∨ k = 1) with rfl | rfl
    · simp only [Num.dft1Of, List.getD_cons_zero, axisOut, if_true, add_zeros]
      rw [add_nan_free _ 0 h0 h1]
    · simp only [Num.dft1Of, List.getD_cons_succ, List.getD_cons_zero, axisOut, if_true, sub_zeros, one_ne_zero, if_false]
      rw [sub_nan_free _ 0 h0 h1]
  | n + 3, hn, hf, hk =>
    generalize hv : ((List.range (n + 3)).map fun j => ({ re := f j, im := F64.zero false } : C64)) = v
    have hlen : v.length = n + 3 := by simp [← hv]
    have hval : ∀ z ∈ v, C64.canon z = z ∧ C64.hasNaN z = false := by
      intro z hz
      rw [← hv, List.mem_map] at hz
      obtain ⟨j, hj, rfl⟩ := hz
      have hn := (not_nan_of_finite (hf j (List.mem_range.1 hj))).1
      have hz := (not_nan_of_finite (finite_zero false)).1
      unfold C64.canon C64.hasNaN F64.canon
      simp [hn, hz]
    have hcan : v.map C64.canon = v := by
      conv_rhs => rw [← List.map_id v]
      exact List.map_congr_left fun z hz => (hval z hz).1
    have hany : v.any C64.hasNaN = false := by
      rw [Bool.eq_false_iff]
      intro h
      obtain ⟨z, hz, hc⟩ := List.any_eq_true.1 h
      rw [(hval z hz).2] at hc
      cases hc
    rw [dft1Of_long _ _ _ (by omega), getD_map_range _ _ (by omega)]
    unfold Num.dftOutputOf
    simp only [hcan, hany, Bool.false_eq_true, if_false]
    have hg : v.getD k default = { re := f k, im := F64.zero false } := by rw [← hv, getD_map_range _ _ hk]
    have e2 : n + 3 ≠ 2 := by omega
    have e1 : n + 3 ≠ 1 := by omega
    cases s with
    | minus => simp only [scaledBin, hg, axisOut, e2, e1, if_false, shrink_zero]
    | plus => simp only [scaledBin, hg, hlen, axisOut, e2, e1, if_false, mul_zero_ofNat hn]

/-! ### One pass against the exact one -/

theorem gain_nonneg (s : DftSign) (n : Nat) : 0 ≤ gain s n := by
  cases s <;> simp only [gain]
  · split <;> norm_num
  · exact Nat.cast_nonneg n

theorem axis_bound (s : DftSign) {n : Nat} {g : Nat → ℚ} {B : ℚ} (hg : ∀ j < n, |g j| ≤ B) {k : Nat} (hk : k < n) :
    |axis s n g k| ≤ gain s n * B := by
  have hn : (1 : ℚ) ≤ n := by exact_mod_cast (by omega : 1 ≤ n)
  unfold axis
  by_cases h2 : n = 2
  · subst h2
    have h0 := abs_le.1 (hg 0 (by omega))
    have h1 := abs_le.1 (hg 1 (by omega))
    have : gain s 2 = 2 := by cases s <;> simp [gain]
    rw [if_pos rfl, this]
    split <;> exact abs_le.2 ⟨by linarith, by linarith⟩
  · rw [if_neg h2]
    cases s with
    | minus => simpa [gain, h2] using hg k hk
    | plus =>
      simp only [gain]
      rw [abs_mul, abs_of_nonneg (by linarith : (0 : ℚ) ≤ n)]
      exact mul_le_mul_of_nonneg_left (hg k hk) (by linarith)

theorem axis_sub (s : DftSign) (n : Nat) (f g : Nat → ℚ) (k : Nat) :
    axis s n f k - axis s n g k = axis s n (fun j => f j - g j) k := by
  unfold axis
  split_ifs <;> [ring; ring; (cases s <;> ring)]

theorem axis_smul (s : DftSign) (n : Nat) (c : ℚ) (g : Nat → ℚ) (k : Nat) :
    axis s n (fun j => c * g j) k = c * axis s n g k := by
  unfold axis
  split_ifs <;> [ring; ring; (cases s <;> ring)]

/-- Passes along the two axes commute. -/
theorem axis_comm (s t : DftSign) (n m : Nat) (g : Nat → Nat → ℚ) (k l : Nat) :
    axis s n (fun j => axis t m (fun i => g j i) l) k = axis t m (fun i => axis s n (fun j => g j i) k) l := by
  unfold axis
  split_ifs <;> cases s <;> cases t <;> ring

/-- Backward undoes forward, but for the length. -/
theorem axis_inverse {n : Nat} (g : Nat → ℚ) {k : Nat} (hk : k < n) :
    axis .plus n (fun j => axis .minus n g j) k = n * g k := by
  unfold axis
  by_cases h2 : n = 2
  · subst h2
    rcases (by omega : k = 0 ∨ k = 1) with rfl | rfl <;> norm_num <;> ring
  · simp only [if_neg h2]

theorem share_le (s : DftSign) (n : Nat) : 0 ≤ share s n ∧ share s n ≤ 1 := by
  cases s <;> simp only [share, shrinkBy]
  · split <;> norm_num
  · norm_num

/-- The error `η` per pass that an argument may count on, relative to a bound: a rounding; and forward also `shrink`'s below
1, or little of it where the bound is large. -/
def PassError (s : DftSign) (η B : ℚ) : Prop :=
  (s = .minus → 1 / 2 ^ 30 ≤ η ∨ (1 / 2 ^ 50 ≤ η ∧ 2 ^ 30 ≤ B)) ∧ 1 / 2 ^ 53 ≤ η

/-- One pass on real values: where the finite inputs are within `E` of the exact values, a finite result is within the error
grown by the pass and one more; and the result of finite inputs is finite where the exact one is below overflow. -/
theorem axisOut_near (s : DftSign) {n : Nat} (hn : n < 2 ^ 53) {f : Nat → F64} {g : Nat → ℚ} {E X B η : ℚ}
    (hf : ∀ j < n, F64.isFinite (f j) = true → |F64.toRat (f j) - g j| ≤ E) (hE : gain s n * E ≤ X)
    {k : Nat} (hk : k < n) (hB : |axis s n g k| ≤ B) (hη : PassError s η (X + B)) :
    (F64.isFinite (axisOut s n f k) = true → |F64.toRat (axisOut s n f k) - share s n * axis s n g k| ≤ X + η * (X + B)) ∧
    ((∀ j < n, F64.isFinite (f j) = true) → X + B < 2 ^ 1024 - 2 ^ 970 → F64.isFinite (axisOut s n f k) = true) := by
  obtain ⟨hs, hr⟩ := hη
  -- `q` is the exact pass on the machine's inputs
  have bound : ∀ {q : ℚ}, |q - axis s n g k| ≤ X → |q| ≤ X + B := fun {q} hq => by
    have := abs_sub_abs_le_abs_sub q (axis s n g k)
    linarith
  have rounded : ∀ {q : ℚ} {r : F64}, |q - axis s n g k| ≤ X → RoundsNear r q → share s n = 1 →
      (F64.isFinite r = true → |F64.toRat r - share s n * axis s n g k| ≤ X + η * (X + B)) ∧
      (X + B < 2 ^ 1024 - 2 ^ 970 → F64.isFinite r = true) := fun {q r} hq h1 h2 => by
    have hb := bound hq
    refine ⟨fun hf => ?_, fun h => h1.finite (lt_of_le_of_lt hb h)⟩
    have e1 : |q| / 2 ^ 53 ≤ η * (X + B) :=
      calc |q| / 2 ^ 53 = 1 / 2 ^ 53 * |q| := by ring
        _ ≤ η * (X + B) := mul_le_mul hr hb (abs_nonneg _) (le_trans (by norm_num) hr)
    have := abs_sub_le (F64.toRat r) q (axis s n g k)
    rw [h2, one_mul]
    linarith [h1.near hf]
  by_cases e2 : n = 2
  · subst e2
    have hsh : share s 2 = 1 := by cases s <;> simp [share]
    have hq : F64.isFinite (f 0) = true → F64.isFinite (f 1) = true →
        |axis s 2 (fun j => F64.toRat (f j)) k - axis s 2 g k| ≤ X := fun h0 h1 => by
      rw [axis_sub]
      refine le_trans (axis_bound s (fun j hj => hf j hj ?_) hk) hE
      rcases (by omega : j = 0 ∨ j = 1) with rfl | rfl
      exacts [h0, h1]
    rcases (by omega : k = 0 ∨ k = 1) with rfl | rfl
    · have key := fun h0 h1 => rounded (hq h0 h1) (r := axisOut s 2 f 0)
        (by simpa only [axis, axisOut, if_true] using add_near 0 h0 h1) hsh
      refine ⟨fun h => ?_, fun h => (key (h 0 (by omega)) (h 1 (by omega))).2⟩
      obtain ⟨h0, h1⟩ := finite_of_add (by simpa only [axisOut, if_true] using h)
      exact (key h0 h1).1 h
    · have key := fun h0 h1 => rounded (hq h0 h1) (r := axisOut s 2 f 1)
        (by simpa only [axis, axisOut, if_true, one_ne_zero, if_false] using sub_near 0 h0 h1) hsh
      refine ⟨fun h => ?_, fun h => (key (h 0 (by omega)) (h 1 (by omega))).2⟩
      obtain ⟨h0, h1⟩ := finite_of_sub (by simpa only [axisOut, if_true, one_ne_zero, if_false] using h)
      exact (key h0 h1).1 h
  · -- any other length takes its input at `k` alone
    have hq : F64.isFinite (f k) = true → |axis s n (fun _ => F64.toRat (f k)) k - axis s n g k| ≤ X := fun h => by
      have e : axis s n g k = axis s n (fun _ => g k) k := by simp only [axis, if_neg e2]
      rw [e, axis_sub]
      exact le_trans (axis_bound s (fun _ _ => hf k hk h) hk) hE
    have hX0 : F64.isFinite (f k) = true → 0 ≤ X := fun h => le_trans (abs_nonneg _) (hq h)
    by_cases e1 : n = 1
    · subst e1
      have key : F64.isFinite (f k) = true → RoundsNear (f k) (axis s 1 (fun _ => F64.toRat (f k)) k) := fun h => by
        have : axis s 1 (fun _ => F64.toRat (f k)) k = F64.toRat (f k) := by cases s <;> simp [axis]
        rw [this]
        exact ⟨fun _ => h, fun _ => by rw [sub_self, abs_zero]; positivity⟩
      have hsh : share s 1 = 1 := by cases s <;> simp [share]
      simp only [axisOut, e2, if_false, if_true]
      exact ⟨fun h => (rounded (hq h) (key h) hsh).1 h, fun h _ => h k hk⟩
    · cases s with
      | plus =>
        have ho : axisOut .plus n f k = F64.mul 0 (f k) (F64.ofNat n) := by simp only [axisOut, e2, e1, if_false]
        have key := fun h => rounded (hq h) (r := axisOut .plus n f k)
          (by rw [ho]; simpa only [axis, if_neg e2] using mul_ofNat_near 0 h hn) rfl
        exact ⟨fun h => (key (finite_of_mul (ho ▸ h))).1 h, fun h => (key (h k hk)).2⟩
      | minus =>
        have ho : axisOut .minus n f k = shrink (f k) := by simp only [axisOut, e2, e1, if_false]
        have hsh : share .minus n = shrinkBy := by simp only [share]; rw [if_pos (by omega)]
        rw [ho, hsh]
        refine ⟨fun h => ?_, fun h _ => (shrink_spec (h k hk)).1⟩
        have hfk := finite_of_shrink h
        have hqk := hq hfk
        simp only [axis, if_neg e2] at hqk ⊢ bound
        have hb := bound hqk
        have hXB : 0 ≤ X + B := le_trans (abs_nonneg _) hb
        have c0 := share_le .minus n
        rw [hsh] at c0
        have t1 : |shrinkBy * F64.toRat (f k) - shrinkBy * g k| ≤ X := by
          rw [← mul_sub, abs_mul, abs_of_nonneg c0.1]
          exact le_trans (mul_le_of_le_one_left (abs_nonneg _) c0.2) hqk
        have t2 : |F64.toRat (shrink (f k)) - shrinkBy * F64.toRat (f k)| ≤ η * (X + B) := by
          have mono : ∀ {c : ℚ}, 0 ≤ c → c ≤ η → |F64.toRat (f k)| * c ≤ η * (X + B) := fun {c} h0 hc => by
            rw [mul_comm]
            exact mul_le_mul hc hb (abs_nonneg _) (le_trans h0 hc)
          rcases (shrink_spec hfk).2 with h' | ⟨h1, h'⟩
          · exact le_trans h' (by rw [div_eq_mul_one_div]; exact mono (by norm_num) hr)
          · rcases hs rfl with hs | ⟨hs1, hs2⟩
            · exact le_trans h' (by rw [div_eq_mul_one_div]; exact mono (by norm_num) hs)
            · have : (1 / 2 ^ 50 : ℚ) * 2 ^ 30 ≤ η * (X + B) :=
                mul_le_mul hs1 hs2 (by norm_num) (le_trans (by norm_num) hs1)
              have h3 : |F64.toRat (f k)| / 2 ^ 30 ≤ 1 / 2 ^ 30 := div_le_div_of_nonneg_right h1 (by norm_num)
              exact le_trans h' (le_trans h3 (le_trans (by norm_num) this))
        have := abs_sub_le (F64.toRat (shrink (f k))) (shrinkBy * F64.toRat (f k)) (shrinkBy * g k)
        linarith

/-! ### The four passes -/

theorem fftTol_le : (1 / 1000000 : ℚ) ≤ Config.fftTol := le_max_left _ _

/-- The largest magnitude of an array stands somewhere. -/
theorem exists_largest {w h : Nat} (hw : 1 ≤ w) (hh : 1 ≤ h) (g : Nat → Nat → ℚ) :
    ∃ x0 < w, ∃ y0 < h, ∀ x < w, ∀ y < h, |g x y| ≤ |g x0 y0| := by
  obtain ⟨p, hp, hmax⟩ := Finset.exists_max_image (Finset.range w ×ˢ Finset.range h) (fun p => |g p.1 p.2|)
    ⟨(0, 0), by simp; omega⟩
  simp only [Finset.mem_product, Finset.mem_range] at hp hmax
  exact ⟨p.1, hp.1, p.2, hp.2, fun x hx y hy => hmax (x, y) ⟨hx, hy⟩⟩

theorem gain_minus {n : Nat} (hn : 1 ≤ n) : 1 ≤ gain .minus n ∧ gain .minus n ≤ 2 ∧ gain .minus n ≤ n := by
  have : (1 : ℚ) ≤ n := by exact_mod_cast hn
  simp only [gain]
  split
  · next h => subst h; norm_num
  · exact ⟨le_refl _, by norm_num, this⟩

/-- `shrink`'s part in the round trip. -/
def shares (w h : Nat) : ℚ := share .minus w * share .minus h

theorem shares_le (w h : Nat) : 0 ≤ shares w h ∧ shares w h ≤ 1 :=
  ⟨mul_nonneg (share_le _ _).1 (share_le _ _).1, mul_le_one₀ (share_le _ _).2 (share_le _ _).1 (share_le _ _).2⟩

/-- The real values of a round trip before its division, pass by pass, where they are finite. -/
structure FourPasses (w h : Nat) (a F1 F2 G1 G2 : Nat → Nat → F64) : Prop where
  forward1 : ∀ x < w, ∀ v < h, F64.isFinite (F1 x v) = true → F1 x v = axisOut .minus h (a x) v
  forward0 : ∀ u < w, ∀ v < h, F64.isFinite (F2 u v) = true → F2 u v = axisOut .minus w (fun x => F1 x v) u
  inverse1 : ∀ u < w, ∀ y < h, F64.isFinite (G1 u y) = true → G1 u y = axisOut .plus h (F2 u) y
  inverse0 : ∀ x < w, ∀ y < h, F64.isFinite (G2 x y) = true → G2 x y = axisOut .plus w (fun u => G1 u y) x

/-- What the passes answer on an array of magnitudes up to `M`, with an error of `η` a pass: a finite value at the end is
`W*H` times the array's, `shrink` aside; and each pass of finite values is finite where its bound is below overflow. -/
theorem FourPasses.near {w h : Nat} (hw1 : 1 ≤ w) (hh1 : 1 ≤ h) (hmw : w < 2 ^ 53) (hmh : h < 2 ^ 53)
    {a F1 F2 G1 G2 : Nat → Nat → F64} (p : FourPasses w h a F1 F2 G1 G2) {M η : ℚ} (hM0 : 0 ≤ M)
    (hM : ∀ x < w, ∀ y < h, |F64.toRat (a x y)| ≤ M) (hη1 : 1 / 2 ^ 53 ≤ η) (hη2 : η ≤ 1)
    (hη : 1 / 2 ^ 30 ≤ η ∨ (1 / 2 ^ 50 ≤ η ∧ 2 ^ 30 ≤ M)) :
    let B := gain .minus h * M
    let P := gain .minus w * B
    let Q := h * (gain .minus w * M)
    let T := w * h * M
    (∀ x < w, ∀ y < h, F64.isFinite (G2 x y) = true →
      |F64.toRat (G2 x y) - shares w h * (w * h * F64.toRat (a x y))| ≤ 53 * (η * T)) ∧
    (B < 2 ^ 1024 - 2 ^ 970 → ∀ x < w, (∀ y < h, F64.isFinite (a x y) = true) → ∀ v < h,
      F64.isFinite (axisOut .minus h (a x) v) = true) ∧
    (η * P + P < 2 ^ 1024 - 2 ^ 970 → ∀ v < h, (∀ x < w, F64.isFinite (F1 x v) = true) → ∀ u < w,
      F64.isFinite (axisOut .minus w (fun x => F1 x v) u) = true) ∧
    (6 * (η * Q) + shares w h * Q < 2 ^ 1024 - 2 ^ 970 → ∀ u < w, (∀ v < h, F64.isFinite (F2 u v) = true) → ∀ y < h,
      F64.isFinite (axisOut .plus h (F2 u) y) = true) ∧
    (26 * (η * T) + shares w h * T < 2 ^ 1024 - 2 ^ 970 → ∀ y < h, (∀ u < w, F64.isFinite (G1 u y) = true) → ∀ x < w,
      F64.isFinite (axisOut .plus w (fun u => G1 u y) x) = true) := by
  intro B P Q T
  -- the exact values of the passes, `shrink` included
  let A := fun x y => F64.toRat (a x y)
  let cw := share .minus w
  let ch := share .minus h
  let e1 := fun x v => ch * axis .minus h (A x) v
  let e2 := fun u v => cw * axis .minus w (fun x => e1 x v) u
  let e3 := fun u y => axis .plus h (e2 u) y
  have hcw := share_le .minus w
  have hch := share_le .minus h
  have he3 : ∀ u, ∀ y < h, e3 u y = shares w h * (h * axis .minus w (fun x => A x y) u) := by
    intro u y hy
    have : e2 u = fun v => cw * ch * axis .minus h (fun y => axis .minus w (fun x => A x y) u) v := funext fun v => by
      show cw * axis .minus w (fun x => ch * axis .minus h (A x) v) u = _
      rw [axis_smul, axis_comm .minus .minus w h A u v, mul_assoc]
    show axis .plus h (e2 u) y = _
    rw [this, axis_smul, axis_inverse (fun y => axis .minus w (fun x => A x y) u) hy]
    rfl
  have he4 : ∀ x < w, ∀ y < h, axis .plus w (fun u => e3 u y) x = shares w h * (w * h * A x y) := by
    intro x hx y hy
    have : (fun u => e3 u y) = fun u => shares w h * (h * axis .minus w (fun x => A x y) u) := funext fun u => he3 u y hy
    rw [this, axis_smul, axis_smul, axis_inverse (fun x => A x y) hx]
    ring
  -- their bounds
  have hwq : (1 : ℚ) ≤ w := by exact_mod_cast hw1
  have hhq : (1 : ℚ) ≤ h := by exact_mod_cast hh1
  obtain ⟨gw1, gw2, gw3⟩ := gain_minus hw1
  obtain ⟨gh1, gh2, gh3⟩ := gain_minus hh1
  have hs := shares_le w h
  have hη0 : 0 ≤ η := le_trans (by norm_num) hη1
  have b1 : ∀ x < w, ∀ v < h, |axis .minus h (A x) v| ≤ B := fun x hx v hv => axis_bound _ (hM x hx) hv
  have b1' : ∀ x < w, ∀ v < h, |e1 x v| ≤ B := fun x hx v hv => by
    rw [abs_mul, abs_of_nonneg hch.1]
    exact le_trans (mul_le_of_le_one_left (abs_nonneg _) hch.2) (b1 x hx v hv)
  have b2 : ∀ u < w, ∀ v < h, |axis .minus w (fun x => e1 x v) u| ≤ P := fun u hu v hv =>
    axis_bound _ (fun x hx => b1' x hx v hv) hu
  have b3 : ∀ u < w, ∀ y < h, |e3 u y| ≤ shares w h * Q := fun u hu y hy => by
    rw [he3 u y hy, abs_mul, abs_mul, abs_of_nonneg hs.1, abs_of_nonneg (by linarith : (0 : ℚ) ≤ h)]
    exact mul_le_mul_of_nonneg_left (mul_le_mul_of_nonneg_left (axis_bound _ (fun x hx => hM x hx y hy) hu) (by linarith)) hs.1
  have b4 : ∀ x < w, ∀ y < h, |axis .plus w (fun u => e3 u y) x| ≤ shares w h * T := fun x hx y hy => by
    rw [he4 x hx y hy, abs_mul, abs_of_nonneg hs.1, abs_mul, abs_of_nonneg (by positivity : (0 : ℚ) ≤ w * h)]
    exact mul_le_mul_of_nonneg_left (mul_le_mul_of_nonneg_left (hM x hx y hy) (by positivity)) hs.1
  have hB0 : 0 ≤ B := mul_nonneg (by linarith) hM0
  have hBM : M ≤ B := le_mul_of_one_le_left hM0 gh1
  have hPB : B ≤ P := le_mul_of_one_le_left hB0 gw1
  have hQ0 : 0 ≤ Q := mul_nonneg (by linarith) (mul_nonneg (by linarith) hM0)
  have hT0 : 0 ≤ T := mul_nonneg (by positivity) hM0
  have hPQ : h * P ≤ 2 * Q := by
    calc h * P = gain .minus h * Q := by ring
      _ ≤ 2 * Q := mul_le_mul_of_nonneg_right gh2 hQ0
  have hQT : w * Q ≤ 2 * T := by
    calc w * Q = gain .minus w * T := by ring
      _ ≤ 2 * T := mul_le_mul_of_nonneg_right gw2 hT0
  have small : ∀ {z : ℚ}, 0 ≤ z → η * (η * z) ≤ η * z ∧ 0 ≤ η * z := fun {z} hz =>
    ⟨mul_le_of_le_one_left (mul_nonneg hη0 hz) hη2, mul_nonneg hη0 hz⟩
  have sP := small (le_trans hB0 hPB)
  have sQ := small hQ0
  have sT := small hT0
  have le1 : ∀ {z : ℚ}, 0 ≤ z → η * (shares w h * z) ≤ η * z := fun {z} hz =>
    mul_le_mul_of_nonneg_left (mul_le_of_le_one_left hz hs.2) hη0
  have hpe : ∀ {s : DftSign} {z : ℚ}, (s = .minus → M ≤ z) → PassError s η z := fun {s z} hz =>
    ⟨fun e => hη.imp_right fun h => ⟨h.1, le_trans h.2 (hz e)⟩, hη1⟩
  -- pass by pass
  have n1 : ∀ x < w, ∀ v < h,
      (F64.isFinite (axisOut .minus h (a x) v) = true → |F64.toRat (axisOut .minus h (a x) v) - e1 x v| ≤ η * B) ∧
      ((∀ j < h, F64.isFinite (a x j) = true) → B < 2 ^ 1024 - 2 ^ 970 →
        F64.isFinite (axisOut .minus h (a x) v) = true) := fun x hx v hv => by
    have := axisOut_near .minus hmh (f := a x) (g := A x) (E := 0) (X := 0) (B := B) (η := η)
      (fun j hj _ => by simp [A]) (by simp) hv (b1 x hx v hv) (hpe fun _ => by linarith)
    simpa only [zero_add] using this
  have n2 := fun u hu v hv => axisOut_near .minus hmw (f := fun x => F1 x v) (g := fun x => e1 x v) (E := η * B) (X := η * P)
    (B := P) (η := η) (k := u) (fun j hj hf => by
      have := (n1 j hj v hv).1
      rw [← p.forward1 j hj v hv hf] at this
      exact this hf) (le_of_eq (by ring)) hu (b2 u hu v hv) (hpe fun _ => by linarith)
  have n3 := fun u hu y hy => axisOut_near .plus hmh (f := F2 u) (g := e2 u) (E := 3 * (η * P)) (X := 6 * (η * Q))
    (B := shares w h * Q) (η := η) (k := y) (fun v hv hf => by
      have := (n2 u hu v hv).1
      rw [← p.forward0 u hu v hv hf] at this
      refine le_trans (this hf) ?_
      rw [mul_add]
      linarith) (by
      show (h : ℚ) * (3 * (η * P)) ≤ _
      have := mul_le_mul_of_nonneg_left hPQ hη0
      linarith) hy (b3 u hu y hy) (hpe fun e => by cases e)
  have n4 := fun x hx y hy => axisOut_near .plus hmw (f := fun u => G1 u y) (g := fun u => e3 u y) (E := 13 * (η * Q))
    (X := 26 * (η * T)) (B := shares w h * T) (η := η) (k := x) (fun u hu hf => by
      have := (n3 u hu y hy).1
      rw [← p.inverse1 u hu y hy hf] at this
      have h1 := this hf
      simp only [share, one_mul] at h1
      refine le_trans h1 ?_
      rw [mul_add]
      linarith [le1 hQ0]) (by
      show (w : ℚ) * (13 * (η * Q)) ≤ _
      have := mul_le_mul_of_nonneg_left hQT hη0
      linarith) hx (b4 x hx y hy) (hpe fun e => by cases e)
  refine ⟨fun x hx y hy hf => ?_, fun hr x hx hf v hv => (n1 x hx v hv).2 hf hr,
    fun hr v hv hf u hu => (n2 u hu v hv).2 hf hr, fun hr u hu hf y hy => (n3 u hu y hy).2 hf hr,
    fun hr y hy hf x hx => (n4 x hx y hy).2 hf hr⟩
  have := (n4 x hx y hy).1
  rw [← p.inverse0 x hx y hy hf, he4 x hx y hy] at this
  have h1 := this hf
  simp only [share, one_mul] at h1
  refine le_trans h1 ?_
  rw [mul_add]
  linarith [le1 hT0]

theorem shrinkBy_le_shares (w h : Nat) : 1 - 1 / 2 ^ 29 ≤ shares w h := by
  simp only [shares, share, shrinkBy]
  split_ifs <;> norm_num

theorem shares_le_shrinkBy {w h : Nat} (hx : 3 ≤ w ∨ 3 ≤ h) : shares w h ≤ 1 - 1 / 2 ^ 30 := by
  simp only [shares, share, shrinkBy]
  split_ifs <;> first | omega | norm_num

/-- The overflow point against numbers the argument meets. -/
theorem overflow_gt : (2 ^ 100 : ℚ) < 2 ^ 1024 - 2 ^ 970 ∧ (3 / 2 * 2 ^ 1023 : ℚ) < 2 ^ 1024 - 2 ^ 970 := by
  rw [show (2 : ℚ) ^ 1023 = 2 ^ 53 * 2 ^ 970 by rw [← pow_add], show (2 : ℚ) ^ 1024 = 2 ^ 54 * 2 ^ 970 by rw [← pow_add],
    show (2 : ℚ) ^ 970 = 2 ^ 870 * 2 ^ 100 by rw [← pow_add]]
  have h1 : (1 : ℚ) ≤ 2 ^ 870 := one_le_pow₀ one_le_two
  have h2 : (0 : ℚ) < 2 ^ 100 := by positivity
  have h3 : (2 : ℚ) ^ 100 ≤ 2 ^ 870 * 2 ^ 100 := le_mul_of_one_le_left h2.le h1
  generalize (2 : ℚ) ^ 870 * 2 ^ 100 = p at *
  constructor <;> linarith

/-- With room, the four passes of real values stay finite. -/
theorem passes_finite {w h : Nat} (hw : 1 ≤ w ∧ w ≤ Config.maxDim) (hh : 1 ≤ h ∧ h ≤ Config.maxDim) {a : Nat → Nat → F64}
    (hfin : ∀ x < w, ∀ y < h, F64.isFinite (a x y) = true) (hroom : RoundTripHasRoom w h a) :
    let F1 := fun x v => axisOut .minus h (a x) v
    let F2 := fun u v => axisOut .minus w (fun x => F1 x v) u
    let G1 := fun u y => axisOut .plus h (F2 u) y
    let G2 := fun x y => axisOut .plus w (fun u => G1 u y) x
    (∀ x < w, ∀ v < h, F64.isFinite (F1 x v) = true) ∧ (∀ u < w, ∀ v < h, F64.isFinite (F2 u v) = true) ∧
    (∀ u < w, ∀ y < h, F64.isFinite (G1 u y) = true) ∧ ∀ x < w, ∀ y < h, F64.isFinite (G2 x y) = true := by
  intro F1 F2 G1 G2
  have hmw : w < 2 ^ 53 := lt_of_le_of_lt hw.2 (by decide)
  have hmh : h < 2 ^ 53 := lt_of_le_of_lt hh.2 (by decide)
  obtain ⟨x0, hx0, y0, hy0, hmax⟩ := exists_largest hw.1 hh.1 fun x y => F64.toRat (a x y)
  have hr := hroom x0 hx0 y0 hy0
  have hM0 : 0 ≤ |F64.toRat (a x0 y0)| := abs_nonneg _
  generalize |F64.toRat (a x0 y0)| = M at hmax hr hM0
  have pass : FourPasses w h a F1 F2 G1 G2 :=
    ⟨fun _ _ _ _ _ => rfl, fun _ _ _ _ _ => rfl, fun _ _ _ _ _ => rfl, fun _ _ _ _ _ => rfl⟩
  -- an error per pass with which every bound is below overflow
  suffices hs : ∃ η : ℚ, 1 / 2 ^ 53 ≤ η ∧ η ≤ 1 / 2 ^ 30 ∧ (1 / 2 ^ 30 ≤ η ∨ (1 / 2 ^ 50 ≤ η ∧ 2 ^ 30 ≤ M)) ∧
      26 * (η * (w * h * M)) + shares w h * (w * h * M) < 2 ^ 1024 - 2 ^ 970 ∧
      η * (gain .minus w * (gain .minus h * M)) + gain .minus w * (gain .minus h * M) < 2 ^ 1024 - 2 ^ 970 by
    obtain ⟨η, hη1, hη2, hη3, r4, r2⟩ := hs
    obtain ⟨-, f1, f2, f3, f4⟩ := pass.near hw.1 hh.1 hmw hmh hM0 hmax hη1 (le_trans hη2 (by norm_num)) hη3
    have hη0 : 0 ≤ η := le_trans (by norm_num) hη1
    obtain ⟨gw1, gw2, gw3⟩ := gain_minus hw.1
    obtain ⟨gh1, gh2, gh3⟩ := gain_minus hh.1
    have hB0 : 0 ≤ gain .minus h * M := mul_nonneg (by linarith) hM0
    have hPB : gain .minus h * M ≤ gain .minus w * (gain .minus h * M) := le_mul_of_one_le_left hB0 gw1
    have hQT : (h : ℚ) * (gain .minus w * M) ≤ w * h * M := by
      calc (h : ℚ) * (gain .minus w * M) ≤ h * (w * M) :=
            mul_le_mul_of_nonneg_left (mul_le_mul_of_nonneg_right gw3 hM0) (Nat.cast_nonneg _)
        _ = w * h * M := by ring
    have hT0 : (0 : ℚ) ≤ w * h * M := mul_nonneg (by positivity) hM0
    have r1 : gain .minus h * M < 2 ^ 1024 - 2 ^ 970 :=
      lt_of_le_of_lt (le_trans hPB (le_add_of_nonneg_left (mul_nonneg hη0 (le_trans hB0 hPB)))) r2
    have r3 : 6 * (η * (h * (gain .minus w * M))) + shares w h * (h * (gain .minus w * M)) < 2 ^ 1024 - 2 ^ 970 := by
      refine lt_of_le_of_lt (add_le_add ?_ (mul_le_mul_of_nonneg_left hQT (shares_le w h).1)) r4
      have := mul_le_mul_of_nonneg_left hQT hη0
      have := mul_nonneg hη0 hT0
      linarith
    have g1 := fun x hx v hv => f1 r1 x hx (hfin x hx) v hv
    have g2 := fun u hu v hv => f2 r2 v hv (fun x hx => g1 x hx v hv) u hu
    have g3 := fun u hu y hy => f3 r3 u hu (fun v hv => g2 u hu v hv) y hy
    exact ⟨g1, g2, g3, fun x hx y hy => f4 r4 y hy (fun u hu => g3 u hu y hy) x hx⟩
  obtain ⟨o1, o2⟩ := overflow_gt
  obtain ⟨gw1, gw2, gw3⟩ := gain_minus hw.1
  obtain ⟨gh1, gh2, gh3⟩ := gain_minus hh.1
  have hP0 : 0 ≤ gain .minus w * (gain .minus h * M) := mul_nonneg (by linarith) (mul_nonneg (by linarith) hM0)
  have hPT : gain .minus w * (gain .minus h * M) ≤ w * h * M := by
    rw [← mul_assoc]
    exact mul_le_mul_of_nonneg_right (mul_le_mul gw3 gh3 (by linarith) (by linarith)) hM0
  have hT0 : (0 : ℚ) ≤ w * h * M := le_trans hP0 hPT
  obtain ⟨s0, s1⟩ := shares_le w h
  have hsT : shares w h * (w * h * M) ≤ w * h * M := mul_le_of_le_one_left hT0 s1
  by_cases hbig : 3 ≤ w ∨ 3 ≤ h
  · by_cases hm : M < 2 ^ 30
    · have hT : (w * h * M : ℚ) ≤ 2 ^ 32 * 2 ^ 30 := by
        refine mul_le_mul ?_ hm.le hM0 (by norm_num)
        have : w * h ≤ 2 ^ 32 := le_trans (Nat.mul_le_mul hw.2 hh.2) (by decide)
        exact_mod_cast this
      generalize (w * h * M : ℚ) = T at *
      refine ⟨1 / 2 ^ 30, by norm_num, le_refl _, .inl (le_refl _), lt_of_le_of_lt ?_ o1, lt_of_le_of_lt ?_ o1⟩ <;> linarith
    · have h3 : 3 * (gain .minus w * (gain .minus h * M)) ≤ w * h * M := by
        have key : 3 * (gain .minus w * gain .minus h) ≤ (w : ℚ) * h := by
          rcases hbig with hb | hb
          · have e : gain .minus w = 1 := by simp only [gain]; rw [if_neg (by omega)]
            have hq : (3 : ℚ) ≤ w := by exact_mod_cast hb
            rw [e, one_mul]
            exact mul_le_mul hq gh3 (by linarith) (by linarith)
          · have e : gain .minus h = 1 := by simp only [gain]; rw [if_neg (by omega)]
            have hq : (3 : ℚ) ≤ h := by exact_mod_cast hb
            rw [e, mul_one, mul_comm]
            exact mul_le_mul gw3 hq (by norm_num) (by linarith)
        calc 3 * (gain .minus w * (gain .minus h * M)) = 3 * (gain .minus w * gain .minus h) * M := by ring
          _ ≤ w * h * M := mul_le_mul_of_nonneg_right key hM0
      have hc := mul_le_mul_of_nonneg_right (shares_le_shrinkBy hbig) hT0
      generalize (w * h * M : ℚ) = T at *
      refine ⟨1 / 2 ^ 50, by norm_num, by norm_num, .inr ⟨le_refl _, le_of_not_gt hm⟩, lt_of_le_of_lt ?_ hr.1,
        lt_of_le_of_lt ?_ hr.1⟩ <;> linarith
  · have hT := hr.2 (by omega) (by omega)
    generalize (w * h * M : ℚ) = T at *
    have : T ≤ 2 ^ 1023 := hT
    generalize (2 : ℚ) ^ 1023 = R at *
    refine ⟨1 / 2 ^ 30, by norm_num, le_refl _, .inl (le_refl _), lt_of_le_of_lt ?_ o2, lt_of_le_of_lt ?_ o2⟩ <;> linarith

/-- `scaledBin`'s transform keeps N4 within FFT_TOL. -/
theorem scaledBin_keepsRoundTrip : RoundTripKept Config.fftTol (Num.dft1Of scaledBin) := by
  intro w h a hw hh hfin nan x hx y hy r
  have hmw : w < 2 ^ 53 := lt_of_le_of_lt hw.2 (by decide)
  have hmh : h < 2 ^ 53 := lt_of_le_of_lt hh.2 (by decide)
  have hmwh : w * h < 2 ^ 53 := lt_of_le_of_lt (Nat.mul_le_mul hw.2 hh.2) (by decide)
  -- the complex values of the four passes
  let d := Num.dft1Of scaledBin
  let Z1 : Nat → Nat → C64 := fun x v =>
    (d .minus ((List.range h).map fun y => ({ re := a x y, im := F64.zero false } : C64))).getD v default
  let Z2 : Nat → Nat → C64 := fun u v => (d .minus ((List.range w).map fun x => Z1 x v)).getD u default
  let Z3 : Nat → Nat → C64 := fun u y => (d .plus ((List.range h).map fun v => Z2 u v)).getD y default
  let Z4 : Nat → Nat → C64 := fun x y => (d .plus ((List.range w).map fun u => Z3 u y)).getD x default
  have hr : r = F64.div (nan (2 * (x * h + y))) (Z4 x y).re (F64.ofNat (w * h)) := roundTripOf_eq scaledBin nan a hx hy
  refine ⟨fun hroom => ?_, fun hf => ?_⟩
  · let F1 := fun x v => axisOut .minus h (a x) v
    let F2 := fun u v => axisOut .minus w (fun x => F1 x v) u
    let G1 := fun u y => axisOut .plus h (F2 u) y
    let G2 := fun x y => axisOut .plus w (fun u => G1 u y) x
    obtain ⟨g1, g2, g3, g4⟩ := passes_finite hw hh hfin hroom
    have s1 : ∀ x < w, ∀ v < h, Z1 x v = { re := F1 x v, im := F64.zero false } := fun x hx v hv =>
      dft1_real .minus hmh (a x) (hfin x hx) hv
    have s2 : ∀ u < w, ∀ v < h, Z2 u v = { re := F2 u v, im := F64.zero false } := fun u hu v hv => by
      show (d .minus ((List.range w).map fun x => Z1 x v)).getD u default = _
      rw [List.map_congr_left fun x hx => s1 x (List.mem_range.1 hx) v hv]
      exact dft1_real .minus hmw (fun x => F1 x v) (fun x hx => g1 x hx v hv) hu
    have s3 : ∀ u < w, ∀ y < h, Z3 u y = { re := G1 u y, im := F64.zero false } := fun u hu y hy => by
      show (d .plus ((List.range h).map fun v => Z2 u v)).getD y default = _
      rw [List.map_congr_left fun v hv => s2 u hu v (List.mem_range.1 hv)]
      exact dft1_real .plus hmh (F2 u) (fun v hv => g2 u hu v hv) hy
    have s4 : Z4 x y = { re := G2 x y, im := F64.zero false } := by
      show (d .plus ((List.range w).map fun u => Z3 u y)).getD x default = _
      rw [List.map_congr_left fun u hu => s3 u (List.mem_range.1 hu) y hy]
      exact dft1_real .plus hmw (fun u => G1 u y) (fun u hu => g3 u hu y hy) hx
    rw [hr, s4]
    exact (div_near _ (g4 x hx y hy) (hfin x hx y hy) (Nat.mul_pos hw.1 hh.1) hmwh).1
  · obtain ⟨x0, hx0, y0, hy0, hmax⟩ := exists_largest hw.1 hh.1 fun x y => F64.toRat (a x y)
    refine ⟨x0, hx0, y0, hy0, ?_⟩
    have hM0 : 0 ≤ |F64.toRat (a x0 y0)| := abs_nonneg _
    generalize |F64.toRat (a x0 y0)| = M at hmax hM0 ⊢
    have pass : FourPasses w h a (fun x v => (Z1 x v).re) (fun u v => (Z2 u v).re) (fun u y => (Z3 u y).re)
        (fun x y => (Z4 x y).re) :=
      ⟨fun x _ v hv hf => dft1_re .minus _ hv hf, fun u hu v _ hf => dft1_re .minus _ hu hf,
        fun u _ y hy hf => dft1_re .plus _ hy hf, fun x hx y _ hf => dft1_re .plus _ hx hf⟩
    rw [hr] at hf
    have hZ := finite_of_div hf
    have hn := (pass.near hw.1 hh.1 hmw hmh hM0 hmax (η := 1 / 2 ^ 30) (by norm_num) (by norm_num) (.inl (le_refl _))).1
      x hx y hy hZ
    have hnear := (div_near (nan (2 * (x * h + y))) hZ (hfin x hx y hy) (Nat.mul_pos hw.1 hh.1) hmwh).2
    rw [← hr] at hnear
    have hmq : (0 : ℚ) < (w * h : Nat) := by exact_mod_cast Nat.mul_pos hw.1 hh.1
    have hA := hmax x hx y hy
    have hN : ((w * h : Nat) : ℚ) = w * h := by push_cast; ring
    rw [hN] at hmq hnear
    -- the quotient before its rounding
    have h2 : |F64.toRat (Z4 x y).re / (w * h) - shares w h * F64.toRat (a x y)| ≤ 53 * (1 / 2 ^ 30 * M) := by
      have e : F64.toRat (Z4 x y).re / (w * h) - shares w h * F64.toRat (a x y) =
          (F64.toRat (Z4 x y).re - shares w h * (w * h * F64.toRat (a x y))) / (w * h) := by
        rw [eq_div_iff hmq.ne', sub_mul, div_mul_cancel₀ _ hmq.ne']; ring
      rw [e, abs_div, abs_of_pos hmq, div_le_iff₀ hmq]
      exact le_trans hn (le_of_eq (by ring))
    have h3 : |shares w h * F64.toRat (a x y) - F64.toRat (a x y)| ≤ 1 / 2 ^ 29 * M := by
      have e : shares w h * F64.toRat (a x y) - F64.toRat (a x y) = -((1 - shares w h) * F64.toRat (a x y)) := by ring
      obtain ⟨-, s1⟩ := shares_le w h
      have s2 := shrinkBy_le_shares w h
      rw [e, abs_neg, abs_mul, abs_of_nonneg (by linarith)]
      exact mul_le_mul (by linarith) hA (abs_nonneg _) (by norm_num)
    have h4 := abs_sub_le (F64.toRat (Z4 x y).re / (w * h)) (shares w h * F64.toRat (a x y)) (F64.toRat (a x y))
    have h5 := abs_sub_le (F64.toRat r) (F64.toRat (Z4 x y).re / (w * h)) (F64.toRat (a x y))
    rw [abs_sub_comm (F64.toRat (a x y)) (F64.toRat (Z4 x y).re / (w * h))] at hnear
    have h6 : M * (1 / 1000000) ≤ Config.fftTol * M := by
      rw [mul_comm]; exact mul_le_mul_of_nonneg_right fftTol_le hM0
    linarith

end Sys2Proof.Machine
end

