-- ==== Sys2Proof/Machine/Kernel.lean ====
section
/-! DEFINITION. `Num.dft1` (spec 44_fft.md R170): N1 to N3 by its form (Machine/Num.lean), and N4 by the choice of its free
part. -/

namespace Sys2Proof

/-- What completes `Num.dft1` for lengths of 3 and more: any function with which N4 holds within FFT_TOL (log 28). -/
structure DftKernel where
  bin : DftBin
  keepsRoundTrip : Machine.RoundTripKept Config.fftTol (Num.dft1Of bin)

/-- The block's one (I1): nothing but N4 is known of it. The argument says that there is one. -/
opaque Config.dftKernel [Inhabited DftKernel] : DftKernel

/-- One output of `Num.dft1` for a vector of length 3 or more (I1; log 9), of a kernel with N4. -/
def Config.dftBin : DftBin :=
  (@Config.dftKernel ⟨⟨Machine.scaledBin, Machine.scaledBin_keepsRoundTrip⟩⟩).bin

/-- `Num.dft1(sign, v)` (R170). -/
def Num.dft1 (sign : DftSign) (v : List C64) : List C64 := Num.dft1Of Config.dftBin sign v

end Sys2Proof
end

