-- ==== Sys2Proof/Machine/Qr.lean ====
section
/-! DEFINITION. The QR module-grid encoder (spec 41_qr_encoder.md) and the grid source of the embedders
(40_command_control.md R120). -/

namespace Sys2Proof.Machine

/-- `QrEncode` (41_qr_encoder.md R131): a function of the payload (Q1) whose result is a grid of 177*177 cells (Q2;
cells beyond them are false and no command reads one) or `none` exactly above QR_CAPACITY (Q3). The modules are the
free function `Config.qrModule` (log 8). -/
def qrEncode (p : List Byte) : Option (Nat → Bool) :=
  if p.length ≤ Config.qrCapacity then
    some fun i => if h : i < 31329 then Config.qrModule p ⟨i, h⟩ else false
  else none

/-- The `n` bytes from an address on, as the snapshot holds them. -/
def Job.bytes (j : Job) (base n : Nat) : List Byte := (List.range n).map fun i => j.snap.readByte (base + i)

/-- `gridsrc(g, L)` (40_command_control.md R120): the encoded payload, or the direct grid, where every byte other
than 0x00 reads true (20_memory.md R63). -/
def gridSource (g : Bool) (j : Job) : Except CmdError (Nat → Bool) :=
  if g then .ok fun i => j.snap.readByte (j.latched.src.toNat + i) != 0
  else
    match qrEncode (j.bytes j.latched.src.toNat j.latched.len.toNat) with
    | some grid => .ok grid
    | none => .error .payloadTooLarge

/-- The bytes of a grid (R130; 20_memory.md R63): one a cell, 0x00 or 0x01. -/
def gridBytes (grid : Nat → Bool) : List Byte :=
  (List.range (Config.gridSide * Config.gridSide)).map fun i => if grid i then 1 else 0

/-- What QR_ENCODE computes (R130). -/
def qrEncodeOut (j : Job) : CmdOut := do
  checks .qrEncode j.latched
  let grid ← gridSource false j
  okBytes j.latched.dst.toNat (gridBytes grid)

/-- QR_ENCODE (R130). -/
def execQrEncode (s : State) : Host.Outcome State Fault Refusal := s.runCommand .qrEncode qrEncodeOut

end Sys2Proof.Machine
end

