-- ==== Sys2Proof/Machine/Tiling.lean ====
section
/-! DEFINITION. The periodic tiling index mapper (spec 42_tiling.md). -/

namespace Sys2Proof.Machine

/-- `tile(x, y, L)` (40_command_control.md R121; 42_tiling.md R140). -/
def tile (x y l : Nat) : Nat := x % l * l + y % l

/-- What TILE_INDEX computes (R140). -/
def tileIndexOut (j : Job) : CmdOut := do
  checks .tileIndex j.latched
  okResult (BitVec.ofNat 64 (tile j.latched.x.toNat j.latched.y.toNat j.latched.tileL.toNat))

/-- TILE_INDEX (R140). -/
def execTileIndex (s : State) : Host.Outcome State Fault Refusal := s.runCommand .tileIndex tileIndexOut

/-- The entries of the map of `w * h` positions, in layout order: entry `x * h + y` is `tile(x, y, L)` (R142;
20_memory.md R63). -/
def tileEntries (w h l : Nat) : List Nat := (List.range (w * h)).map fun k => tile (k / h) (k % h) l

/-- What TILE_MAP computes (R142): 32-bit entries. -/
def tileMapOut (j : Job) : CmdOut := do
  checks .tileMap j.latched
  okBytes j.latched.dst.toNat
    ((tileEntries j.latched.width.toNat j.latched.height.toNat j.latched.tileL.toNat).flatMap (leBytes 4))

/-- TILE_MAP (R142). -/
def execTileMap (s : State) : Host.Outcome State Fault Refusal := s.runCommand .tileMap tileMapOut

end Sys2Proof.Machine
end

