-- ==== Sys2Proof/Machine/Lsb.lean ====
section
/-! DEFINITION. The LSB bit-plane encoder and decoder (spec 43_lsb.md). -/

namespace Sys2Proof.Machine

/-- The grid's value at sample `k` of a pixel array of height `h`: sample `k` is channel `k % 3` of pixel
`(k / 3 / h, k / 3 % h)` (20_memory.md R63; 42_tiling.md R144). -/
def tiledCell (grid : Nat → Bool) (h l k : Nat) : Bool := grid (tile (k / 3 / h) (k / 3 % h) l)

/-- A sample with its bit 0 replaced (43_lsb.md R150). -/
def withLsb (old : Byte) (bit : Bool) : Byte := old &&& 0xFE ||| (if bit then 1 else 0)

/-- What LSB_EMBED computes (R150). -/
def lsbEmbedOut (g : Bool) (j : Job) : CmdOut := do
  checks (.lsbEmbed g) j.latched
  let grid ← gridSource g j
  let o := j.latched
  okBytes o.dst.toNat ((List.range (3 * o.area)).map fun k =>
    withLsb (j.snap.readByte (o.dst.toNat + k)) (tiledCell grid o.height.toNat (gridSideOf g o) k))

/-- LSB_EMBED (R150). -/
def execLsbEmbed (g : Bool) (s : State) : Host.Outcome State Fault Refusal :=
  s.runCommand (.lsbEmbed g) (lsbEmbedOut g)

/-- The grayscale byte of a red sample (R153): bright where its bit 0 is set, dark where it is not. -/
def grayOf (red : Byte) : Byte := if red.getLsbD 0 then 0xFF else 0x00

/-- What LSB_EXTRACT computes (R153): pixel `k` in layout order has its red sample at `3 * k`. -/
def lsbExtractOut (j : Job) : CmdOut := do
  checks .lsbExtract j.latched
  let o := j.latched
  okBytes o.dst.toNat ((List.range o.area).map fun k => grayOf (j.snap.readByte (o.src.toNat + 3 * k)))

/-- LSB_EXTRACT (R153). -/
def execLsbExtract (s : State) : Host.Outcome State Fault Refusal := s.runCommand .lsbExtract lsbExtractOut

end Sys2Proof.Machine
end

