-- ==== Sys2Proof/Machine/Norm.lean ====
section
/-! DEFINITION. Array normalization and rescaling (spec 45_normalization.md). -/

namespace Sys2Proof.Machine

/-- One step of `fmax` (R211): a NaN is skipped, an equal value does not replace. -/
def fmaxStep (cur : Option F64) (v : F64) : Option F64 :=
  if F64.isNaN v then cur
  else
    match cur with
    | none => some v
    | some m => if F64.gt v m then some v else some m

/-- `fmax(A)` (R211). -/
def fmax (a : List F64) : Option F64 := a.foldl fmaxStep none

/-- How two partial maxima of a partition combine (R212): the lower-index part wins ties. -/
def fmaxJoin (low high : Option F64) : Option F64 :=
  match high with
  | none => low
  | some v => fmaxStep low v

/-- `degenerate(m)` (R213): absent, zero or not finite. -/
def degenerate (m : Option F64) : Bool :=
  match m with
  | none => true
  | some m => F64.isZero m || !F64.isFinite m

/-- The maximum to divide by, checked before any division (R213, R218). -/
def maxToDivideBy (a : List F64) : Except CmdError F64 :=
  match fmax a with
  | none => .error .degenerateNormalization
  | some m => if degenerate (some m) then .error .degenerateNormalization else .ok m

/-- One element of `norm(A, m, f)` (R215): the division first, then the multiplication; `n`, `p` are the NaNs they
take (I11). -/
def normElem (n p : NanBits) (v m f : F64) : F64 := F64.mul p (F64.div n v m) f

/-- `norm(A, m, f)` (R215); `nan` gives the NaN bits of operation `2 * i` and `2 * i + 1` for element `i`. -/
def norm (nan : Nat → NanBits) (a : List F64) (m f : F64) : List F64 :=
  (a.zipIdx).map fun p => normElem (nan (2 * p.2)) (nan (2 * p.2 + 1)) p.1 m f

/-- The binary64 array of LEN elements at an address (20_memory.md R63), from the snapshot. -/
def Job.f64Array (j : Job) (base : Nat) : List F64 :=
  (List.range j.latched.len.toNat).map fun i => j.snap.readF64 (base + 8 * i)

/-- What MAX computes (R210): the maximum's bits, or qNaN where every element is NaN (R220). -/
def maxOut (j : Job) : CmdOut := do
  checks .max j.latched
  okResult ((fmax (j.f64Array j.latched.src.toNat)).getD F64.qNaN)

/-- MAX (R210). -/
def execMax (s : State) : Host.Outcome State Fault Refusal := s.runCommand .max maxOut

/-- What NORMALIZE computes (R214). -/
def normalizeOut (j : Job) : CmdOut := do
  checks .normalize j.latched
  let a := j.f64Array j.latched.dst.toNat
  let m ← maxToDivideBy a
  okBytes j.latched.dst.toNat ((norm (Config.nanBits j 0) a m j.latched.factor).flatMap f64Bytes)

/-- NORMALIZE (R214). -/
def execNormalize (s : State) : Host.Outcome State Fault Refusal := s.runCommand .normalize normalizeOut

end Sys2Proof.Machine
end

