-- ==== Sys2Proof/Machine/Fft.lean ====
section
/-! DEFINITION. The 2D transforms and the magnitude-domain embedder (spec 44_fft.md).

A flat array holds element `(x, y, c)` of shape `(W, H, C)` at index `(x * H + y) * C + c` (20_memory.md R63). One channel
is a list of its `W` rows, each of `H` elements. -/

namespace Sys2Proof.Machine

/-- One channel of a flat array, as rows. -/
def channel (w h n c : Nat) (a : List C64) : List (List C64) :=
  (List.range w).map fun x => (List.range h).map fun y => a.getD ((x * h + y) * n + c) default

/-- The flat array of the channels. -/
def merge (w h n : Nat) (chans : List (List (List C64))) : List C64 :=
  (List.range (w * h * n)).map fun k => entry (chans.getD (k % n) []) (k / n / h) (k / n % h)

/-- The two passes of R172 and R173 with the block's kernel. -/
def passes (sign : DftSign) (w h : Nat) (rows : List (List C64)) : List (List C64) := passesOf Num.dft1 sign w h rows

/-- `fft2` (R172). -/
def fft2 (w h : Nat) (rows : List (List C64)) : List (List C64) := passes .minus w h rows

/-- `ifft2` (R173); `nan` gives the NaN bits of its divisions. -/
def ifft2 (nan : Nat → NanBits) (w h : Nat) (rows : List (List C64)) : List (List C64) := ifft2Of Num.dft1 nan w h rows

/-- Every channel of a flat array by itself. -/
def perChannel (w h n : Nat) (f : Nat → List (List C64) → List (List C64)) (a : List C64) : List C64 :=
  merge w h n ((List.range n).map fun c => f c (channel w h n c a))

/-- The complex array of WIDTH x HEIGHT x NCHAN elements at an address (20_memory.md R63), from the snapshot. -/
def Job.c64Array (j : Job) (base : Nat) : List C64 :=
  (List.range (j.latched.area * j.latched.nchan.toNat)).map fun k => j.snap.readC64 (base + 16 * k)

/-- What FFT2 computes (R174). -/
def fft2Out (j : Job) : CmdOut := do
  checks .fft2 j.latched
  let o := j.latched
  let s := perChannel o.width.toNat o.height.toNat o.nchan.toNat
    (fun _ => fft2 o.width.toNat o.height.toNat) (j.c64Array o.src.toNat)
  okBytes o.dst.toNat (s.flatMap c64Bytes)

/-- FFT2 (R174). -/
def execFft2 (s : State) : Host.Outcome State Fault Refusal := s.runCommand .fft2 fft2Out

/-- What IFFT2 computes (R176); each channel's divisions have a stage of their own. -/
def ifft2Out (j : Job) : CmdOut := do
  checks .ifft2 j.latched
  let o := j.latched
  let r := perChannel o.width.toNat o.height.toNat o.nchan.toNat
    (fun c => ifft2 (Config.nanBits j c) o.width.toNat o.height.toNat) (j.c64Array o.src.toNat)
  okBytes o.dst.toNat (r.flatMap c64Bytes)

/-- IFFT2 (R176). -/
def execIfft2 (s : State) : Host.Outcome State Fault Refusal := s.runCommand .ifft2 ifft2Out

/-! ### The magnitude-domain embedder, step by step (R181). `nan stage` gives a step's NaN bits (I11; log 12). -/

/-- Step 1 (R183): samples to `[0, 1]`, as complex values with imaginary part +0 (R184). -/
def embedSamples (nan : Nat → Nat → NanBits) (pixels : List Byte) : List C64 :=
  (pixels.zipIdx).map fun p =>
    { re := F64.div (nan 1 p.2) (F64.ofNat p.1.toNat) F64.twoFiftyFive, im := F64.zero false }

/-- Steps 1 and 2 (R183, R184): the spectrum of the three channels. -/
def embedSpectrum (nan : Nat → Nat → NanBits) (w h : Nat) (pixels : List Byte) : List C64 :=
  perChannel w h 3 (fun _ => fft2 w h) (embedSamples nan pixels)

/-- Step 3 (R185): the log-magnitude of each element. -/
def embedLog (spectrum : List C64) : List F64 := spectrum.map fun z => Num.log10 (Num.abs z.re z.im)

/-- Step 5 (R187): 32.0 added where the tiled grid is true, 0.0 where it is false. -/
def embedPerturbed (nan : Nat → Nat → NanBits) (grid : Nat → Bool) (h l : Nat) (l1 : List F64) : List F64 :=
  (l1.zipIdx).map fun p =>
    F64.add (nan 5 p.2) p.1 (if tiledCell grid h l p.2 then F64.thirtyTwo else F64.zero false)

/-- Step 7 (R189): the new magnitude `10^x` of step 6 (R188) with the original phase of step 3. -/
def embedRebuilt (nan : Nat → Nat → NanBits) (spectrum : List C64) (l3 : List F64) : List C64 :=
  ((spectrum.zip l3).zipIdx).map fun p =>
    let phase := Num.arg p.1.1.re p.1.1.im
    let mag := Num.pow10 p.1.2
    { re := F64.mul (nan 7 (2 * p.2)) mag (Num.cos phase), im := F64.mul (nan 7 (2 * p.2 + 1)) mag (Num.sin phase) }

/-- Step 8, first part (R190): the real parts of the inverse transform. -/
def embedReal (nan : Nat → Nat → NanBits) (w h : Nat) (s2 : List C64) : List F64 :=
  (perChannel w h 3 (fun c => ifft2 (nan (8 + c)) w h) s2).map fun z => z.re

/-- Steps 1 to 8 of FFT_EMBED (R181) on the samples in layout order; the three maxima are over all channels (R182),
each checked before its division (R192). -/
def embedPixels (nan : Nat → Nat → NanBits) (grid : Nat → Bool) (w h l : Nat) (pixels : List Byte) :
    Except CmdError (List Byte) := do
  let spectrum := embedSpectrum nan w h pixels
  let lg := embedLog spectrum
  let premax ← maxToDivideBy lg
  let l2 := embedPerturbed nan grid h l (norm (nan 4) lg premax F64.twoFiftyFive)
  let m2 ← maxToDivideBy l2
  let s2 := embedRebuilt nan spectrum (norm (nan 6) l2 m2 premax)
  let r := embedReal nan w h s2
  let rmax ← maxToDivideBy r
  .ok ((norm (nan 11) r rmax F64.twoFiftyFive).map F64.toU8)

/-- What FFT_EMBED computes (R180, R181). The grid is built first, so that PayloadTooLarge comes before a degenerate
maximum (R187; 60_exceptions.md R233). -/
def fftEmbedOut (g : Bool) (j : Job) : CmdOut := do
  checks (.fftEmbed g) j.latched
  let grid ← gridSource g j
  let o := j.latched
  let bytes ← embedPixels (Config.nanBits j) grid o.width.toNat o.height.toNat (gridSideOf g o)
    (j.bytes o.dst.toNat (3 * o.area))
  okBytes o.dst.toNat bytes

/-- FFT_EMBED (R180). -/
def execFftEmbed (g : Bool) (s : State) : Host.Outcome State Fault Refusal :=
  s.runCommand (.fftEmbed g) (fftEmbedOut g)

/-- What FFT_EXTRACT does (R195): raise Unimplemented. -/
def fftExtractOut (_ : Job) : CmdOut := .error .unimplemented

/-- FFT_EXTRACT (R195). -/
def execFftExtract (s : State) : Host.Outcome State Fault Refusal := s.runCommand .fftExtract fftExtractOut

end Sys2Proof.Machine
end

