-- ==== Sys2Proof/Machine/Dispatch.lean ====
section
/-! DEFINITION. The meaning of each command: one arm for each constructor of Instr. -/

namespace Sys2Proof.Machine

def exec (i : Instr) (s : State) : Host.Outcome State Fault Refusal :=
  match i with
  | .nop => Sys2Proof.Machine.execNop s
  | .qrEncode => Sys2Proof.Machine.execQrEncode s
  | .tileIndex => Sys2Proof.Machine.execTileIndex s
  | .tileMap => Sys2Proof.Machine.execTileMap s
  | .lsbEmbed g => Sys2Proof.Machine.execLsbEmbed g s
  | .lsbExtract => Sys2Proof.Machine.execLsbExtract s
  | .fftEmbed g => Sys2Proof.Machine.execFftEmbed g s
  | .fftExtract => Sys2Proof.Machine.execFftExtract s
  | .max => Sys2Proof.Machine.execMax s
  | .normalize => Sys2Proof.Machine.execNormalize s
  | .fft2 => Sys2Proof.Machine.execFft2 s
  | .ifft2 => Sys2Proof.Machine.execIfft2 s

end Sys2Proof.Machine
end

