-- ==== Sys2Proof/Machine/Step.lean ====
section
/-! DEFINITION. One step of the machine: the next event, or the engine's turn where no event is pending (log 1). -/

namespace Sys2Proof.Machine

/-- The engine's turn: a Busy engine completes its command (40_command_control.md R113), decoding it first (R112); an
Idle engine does nothing (60_exceptions.md R250). -/
def State.engineTurn (s : State) : Host.Outcome State Fault Refusal :=
  match s.engine with
  | .idle => .next s
  | .busy j _ =>
    match decode j.word with
    | .ok i => exec i s
    | .error _ => .next s.completeBad

/-- One step. -/
def step (s : State) : Host.Outcome State Fault Refusal :=
  match s.events with
  | [] => s.engineTurn
  | .engine :: rest => ({ s with events := rest }).engineTurn
  | .read width addr :: rest => ({ s with events := rest }).busRead width addr
  | .write width addr v :: rest => ({ s with events := rest }).busWrite width addr v
  | .powerOn :: rest => .next ({ s with events := rest }).powerOnReset

/-- The machine about to run the command whose word has the bits `w` in a table row of `nbits` bits: its CMD write is
accepted on the current registers and DMEM, and the engine has the next turn (log 2). -/
def State.withFetchWord (s : State) (nbits w : Nat) : State :=
  { s.accept (BitVec.ofNat 32 (w % 2 ^ nbits)) with events := .engine :: s.events }

end Sys2Proof.Machine
end

