-- ==== Sys2Proof/Machine/Script.lean ====
section
/-! DEFINITION. The host-script notation (spec 30_encoding.md R100, R101), the block's only assembler syntax: each statement
is a list of host operations, and a script runs on the machine, among the turns of the engine and of the other agents. DMEM
addresses in it are DMEM offsets. -/

namespace Sys2Proof.Machine

/-- The mnemonic of a command in the host script (R96, R100). -/
def mnemonicOf : Instr → String
  | .nop => "NOP"
  | .qrEncode => "QR_ENCODE"
  | .tileIndex => "TILE_INDEX"
  | .tileMap => "TILE_MAP"
  | .lsbEmbed false => "LSB_EMBED"
  | .lsbEmbed true => "LSB_EMBED.G"
  | .lsbExtract => "LSB_EXTRACT"
  | .fftEmbed false => "FFT_EMBED"
  | .fftEmbed true => "FFT_EMBED.G"
  | .fftExtract => "FFT_EXTRACT"
  | .max => "MAX"
  | .normalize => "NORMALIZE"
  | .fft2 => "FFT2"
  | .ifft2 => "IFFT2"

/-- The statements of R100 and the pseudo-statements of R101. -/
inductive Stmt where
  | wr (r : Csr) (v : Word)
  | rd (r : Csr)
  | wb (a : Nat) (bytes : List Byte)
  | ww (a : Nat) (v : Word)
  | rb (a : Nat)
  | rw (a : Nat)
  | cmd (i : Instr)
  | wait
  | run (i : Instr)
  | wrf (v : F64)
  | wd (a : Nat) (v : F64)
  | rd64Result
  | clr
deriving DecidableEq, Repr

/-- A 32-bit CSR write. -/
def wrEvent (r : Csr) (v : Word) : Event := .write 4 (Config.csrBase + r.offset) v

/-- A 32-bit CSR read. -/
def rdEvent (r : Csr) : Event := .read 4 (Config.csrBase + r.offset)

/-- What the host does next in a script. -/
inductive HostOp where
  /-- one bus access -/
  | access (e : Event)
  /-- R101's WAIT: repeat `RD STATUS` until bit 0 (`BUSY`) reads 0 -/
  | untilIdle
deriving DecidableEq, Repr

/-- The bus access of an operation. -/
def HostOp.event : HostOp → Event
  | .access e => e
  | .untilIdle => rdEvent .status

/-- Whether the operation is repeated after its access: WAIT is, as long as bit 0 of what it read is 1 (R101). -/
def HostOp.again (op : HostOp) (data : Word) : Bool :=
  match op with
  | .access _ => false
  | .untilIdle => data.getLsbD 0

/-- The operations of a statement (R100), the pseudo-statements by their expansions (R101). -/
def stmtOps : Stmt → List HostOp
  | .wr r v => [.access (wrEvent r v)]
  | .rd r => [.access (rdEvent r)]
  | .wb a bytes => (bytes.zipIdx).map fun p => .access (.write 1 (Config.dmemBase + a + p.2) (p.1.zeroExtend 32))
  | .ww a v => [.access (.write 4 (Config.dmemBase + a) v)]
  | .rb a => [.access (.read 1 (Config.dmemBase + a))]
  | .rw a => [.access (.read 4 (Config.dmemBase + a))]
  | .cmd i => [.access (wrEvent .cmd (encode i))]
  | .wait => [.untilIdle]
  | .run i => [.access (wrEvent .cmd (encode i)), .untilIdle]
  | .wrf v => [.access (wrEvent .factorLo (v.extractLsb' 0 32)), .access (wrEvent .factorHi (v.extractLsb' 32 32))]
  | .wd a v => [.access (.write 4 (Config.dmemBase + a) (v.extractLsb' 0 32)),
      .access (.write 4 (Config.dmemBase + a + 4) (v.extractLsb' 32 32))]
  | .rd64Result => [.access (rdEvent .resultLo), .access (rdEvent .resultHi)]
  | .clr => [.access (wrEvent .status 0x106)]

/-- Whose turn it is: the script's host, or another agent (the engine, the platform, another bus master). -/
inductive Turn where
  | host
  | other (e : Event)
deriving DecidableEq, Repr

/-- The machine takes one event. -/
def State.take (s : State) (e : Event) : Host.Outcome State Fault Refusal := step { s with events := [e] }

/-- A script's operations on the machine, under the turns in which the agents move: the operations still to do, and the
machine. In a turn of the host its next operation makes its access, and is done unless what it read says that it is repeated
(R101). Any list of turns may be: R101 and I13 leave open when Complete happens, and R275 when another master resets
(log 29). -/
def runOps : List HostOp → List Turn → State → Host.Outcome (List HostOp × State) Fault Refusal
  | ops, [], s => .next (ops, s)
  | ops, .other e :: turns, s =>
    match s.take e with
    | .next t => runOps ops turns t
    | .fault f => .fault f
    | .refused r => .refused r
  | [], .host :: turns, s => runOps [] turns s
  | op :: ops, .host :: turns, s =>
    match s.take op.event with
    | .next t => runOps (if op.again t.readData then op :: ops else ops) turns t
    | .fault f => .fault f
    | .refused r => .refused r

/-- A script on the machine (R100, R101). -/
def runScript (p : List Stmt) (turns : List Turn) (s : State) : Host.Outcome (List HostOp × State) Fault Refusal :=
  runOps (p.flatMap stmtOps) turns s

/-- The events of one run of WAIT on a Busy machine, out of those that R101 and I13 allow: `polls` reads with BUSY = 1, the
engine's turn, the read with BUSY = 0 that ends it. -/
def waitEvents (polls : Nat) : List Event :=
  List.replicate polls (rdEvent .status) ++ [.engine, rdEvent .status]

/-- The turns of that run. -/
def waitTurns (polls : Nat) : List Turn := List.replicate polls .host ++ [.other .engine, .host]

end Sys2Proof.Machine
end

