-- ==== Sys2Proof/Safety.lean ====
section
/-! DEFINITION. What claims are stated in: the invariant of every reachable state, the duties of the host's software, and
what the spec asks of the two parameters: N4 of the kernel, which the model's keeps, and Q6 of the QR encoder, which a proof
may take as a named assumption. -/

namespace Sys2Proof.Machine

/-- What each command computes: `Exec` of spec 40_command_control.md R112 after the decoding. `exec` is
`runCommand` of it (Laws/Command.lean, `exec_eq_runCommand`). -/
def outOf : Instr → Job → CmdOut
  | .nop => nopOut
  | .qrEncode => qrEncodeOut
  | .tileIndex => tileIndexOut
  | .tileMap => tileMapOut
  | .lsbEmbed g => lsbEmbedOut g
  | .lsbExtract => lsbExtractOut
  | .fftEmbed g => fftEmbedOut g
  | .fftExtract => fftExtractOut
  | .max => maxOut
  | .normalize => normalizeOut
  | .fft2 => fft2Out
  | .ifft2 => ifft2Out

/-- The engine holds a command. -/
def Engine.isBusy : Engine → Bool
  | .idle => false
  | .busy _ _ => true

/-- What holds of every state the machine reaches: the invariants of STATUS (spec 10_state.md R26), BUSY as the engine's
state (R40), the operand registers as latched (R38), error codes 1 to 6 only (60_exceptions.md R230), and DMEM and its
snapshot as plain canonical data inside DMEM's range (R43). -/
structure State.Inv (s : State) : Prop where
  /-- BUSY is 1 exactly while the engine is Busy. -/
  busyIsEngine : s.status.busy = s.engine.isBusy
  /-- At most one of DONE and ERR is 1 (R26). -/
  notDoneAndErr : (s.status.done && s.status.err) = false
  /-- BUSY = 1 implies DONE = ERR = 0 and ERRCODE = 0 (R26). -/
  busyClears : s.status.busy = true → s.status.done = false ∧ s.status.err = false ∧ s.status.errcode = 0
  /-- DONE = 1 implies ERRCODE = 0: the last completed command succeeded (R26). -/
  doneNoCode : s.status.done = true → s.status.errcode = 0
  /-- ERR = 1 implies an error code (R230). -/
  errHasCode : s.status.err = true → s.status.errcode ≠ 0
  /-- Codes 7 to 15 are never written (R230). -/
  codeAtMostSix : s.status.errcode.toNat ≤ 6
  /-- While a command runs, CMD and the operand registers hold what was latched (R28, R38). -/
  latchedAsRegisters : ∀ j d, s.engine = .busy j d → j.word = s.cmd ∧ j.latched = s.ops
  /-- DMEM is in canonical form. -/
  dmemWf : s.dmem.wf
  /-- DMEM lists no address it does not have. -/
  dmemInRange : s.dmem.inRange
  /-- So is the snapshot of a running command, of the same power cycle. -/
  snapGood : ∀ j d, s.engine = .busy j d → j.snap.wf ∧ j.snap.inRange ∧ j.snap.cycle = s.dmem.cycle

/-- The engine has the next turn, and `s0` is the machine it takes it on (log 1): no event is pending, or its turn is
the next event. -/
def EngineMoves (s s0 : State) : Prop :=
  (s.events = [] ∧ s0 = s) ∨ ∃ rest, s.events = .engine :: rest ∧ s0 = { s with events := rest }

/-- The byte of DMEM at an address. -/
def State.byte (s : State) (a : Nat) : Byte := s.dmem.readByte a

/-- `RESULT = {RESULT_HI, RESULT_LO}` (10_state.md R36). -/
def State.result (s : State) : F64 := s.resultHi ++ s.resultLo

/-- RESULT is unchanged. -/
def SameResult (s t : State) : Prop := t.resultLo = s.resultLo ∧ t.resultHi = s.resultHi

/-- What every completion leaves alone: CTRL, CMD, the operand registers, the pending events and the read data. -/
structure SameRegisters (s t : State) : Prop where
  irqEn : t.irqEn = s.irqEn
  cmd : t.cmd = s.cmd
  ops : t.ops = s.ops
  events : t.events = s.events
  readData : t.readData = s.readData

/-- `t` is `s` after a successful completion, RESULT and DMEM aside (spec 40_command_control.md R113). -/
structure Succeeded (s t : State) : Prop where
  registers : SameRegisters s t
  engine : t.engine = .idle
  status : t.status = { s.status with busy := false, done := true }

/-- `t` is `s` after a failed completion, DMEM aside (60_exceptions.md R236). -/
structure FailedAs (s t : State) (e : CmdError) : Prop where
  registers : SameRegisters s t
  engine : t.engine = .idle
  status : t.status = { s.status with busy := false, err := true, errcode := e.code }
  result : SameResult s t

/-- Every byte of DMEM outside `[base, base + size)` is unchanged. -/
def SameOutside (s t : State) (base size : Nat) : Prop :=
  ∀ a, ¬ (base ≤ a ∧ a < base + size) → t.byte a = s.byte a

/-- A region that lies in DMEM with its alignment (20_memory.md R64). -/
abbrev Fits (base size align : Nat) : Prop := base % align = 0 ∧ base + size ≤ Config.dmemBytes

/-- Two regions without a common byte (20_memory.md R65). -/
abbrev Apart (b1 s1 b2 s2 : Nat) : Prop := s1 = 0 ∨ s2 = 0 ∨ b1 + s1 ≤ b2 ∨ b2 + s2 ≤ b1

/-- A legal extent or tile side (40_command_control.md R117, R118). -/
abbrev LegalSide (n : Nat) : Prop := 1 ≤ n ∧ n ≤ 65535

/-- The errors each command can raise once it is decoded (60_exceptions.md R231). -/
def errorsOf : Instr → List CmdError
  | .nop => []
  | .qrEncode => [.badAddress, .payloadTooLarge]
  | .tileIndex => [.dimensionMismatch]
  | .tileMap => [.dimensionMismatch, .badAddress]
  | .lsbEmbed false => [.dimensionMismatch, .badAddress, .payloadTooLarge]
  | .lsbEmbed true => [.dimensionMismatch, .badAddress]
  | .lsbExtract => [.dimensionMismatch, .badAddress]
  | .fftEmbed false => [.dimensionMismatch, .badAddress, .payloadTooLarge, .degenerateNormalization]
  | .fftEmbed true => [.dimensionMismatch, .badAddress, .degenerateNormalization]
  | .fftExtract => [.unimplemented]
  | .max => [.dimensionMismatch, .badAddress]
  | .normalize => [.dimensionMismatch, .badAddress, .degenerateNormalization]
  | .fft2 => [.dimensionMismatch, .badAddress]
  | .ifft2 => [.dimensionMismatch, .badAddress]

/-- The register values a command's dimension checks reject (60_exceptions.md R230 code 2). -/
def BadShape (i : Instr) (o : Operands) : Prop :=
  let badPixels := ¬ LegalSide o.width.toNat ∨ ¬ LegalSide o.height.toNat
  match i with
  | .nop => False
  | .qrEncode => False
  | .tileIndex => ¬ LegalSide o.tileL.toNat
  | .tileMap => badPixels ∨ ¬ LegalSide o.tileL.toNat
  | .lsbEmbed g => badPixels ∨ o.nchan ≠ 3 ∨ (g = true ∧ ¬ LegalSide o.tileL.toNat)
  | .lsbExtract => badPixels ∨ o.nchan ≠ 3
  | .fftEmbed g => badPixels ∨ o.nchan ≠ 3 ∨ (g = true ∧ ¬ LegalSide o.tileL.toNat)
  | .fftExtract => False
  | .max => o.len = 0
  | .normalize => o.len = 0
  | .fft2 => badPixels ∨ ¬ (1 ≤ o.nchan.toNat ∧ o.nchan.toNat ≤ 255)
  | .ifft2 => badPixels ∨ ¬ (1 ≤ o.nchan.toNat ∧ o.nchan.toNat ≤ 255)

/-- A command's regions break 20_memory.md R64 or R65: one does not fit, or two have a common byte, but for the SRC
and DST of the transforms where both have one base. -/
def BadRegions (i : Instr) (o : Operands) : Prop :=
  (∃ r, (srcRegion i o = some r ∨ dstRegion i o = some r ∨ auxRegion i o = some r) ∧ ¬ Fits r.base r.size r.align) ∨
  (∃ r q, srcRegion i o = some r ∧ dstRegion i o = some q ∧ ¬ Apart r.base r.size q.base q.size ∧
    ¬ ((i = .fft2 ∨ i = .ifft2) ∧ r.base = q.base)) ∨
  (∃ r q, srcRegion i o = some r ∧ auxRegion i o = some q ∧ ¬ Apart r.base r.size q.base q.size) ∨
  (∃ r q, dstRegion i o = some r ∧ auxRegion i o = some q ∧ ¬ Apart r.base r.size q.base q.size)

/-- The commands that take a payload for QrEncode (30_encoding.md R92, R95). -/
def takesPayload : Instr → Bool
  | .qrEncode => true
  | .lsbEmbed g => !g
  | .fftEmbed g => !g
  | .nop => false
  | .tileIndex => false
  | .tileMap => false
  | .lsbExtract => false
  | .fftExtract => false
  | .max => false
  | .normalize => false
  | .fft2 => false
  | .ifft2 => false

/-- The operands pass every check that does not depend on the values of an array (60_exceptions.md R233, items 3 to 5). -/
def Ready (i : Instr) (o : Operands) : Prop :=
  ¬ BadShape i o ∧ ¬ BadRegions i o ∧ (takesPayload i = true → o.len.toNat ≤ Config.qrCapacity)

/-- The reset value of each register, the parameters' registers included (10_state.md R23). -/
def Csr.resetValue : Csr → Word
  | .id => 0x44574501
  | .ctrl => 0
  | .status => 0
  | .cmd => 0
  | .src => 0
  | .dst => 0
  | .aux => 0
  | .len => 0
  | .width => 0
  | .height => 0
  | .nchan => 3
  | .tileL => 177
  | .x => 0
  | .y => 0
  | .factorLo => 0
  | .factorHi => 0
  | .resultLo => 0
  | .resultHi => 0
  | .qrSide => 177
  | .strength => 32
  | .qrCap => BitVec.ofNat 32 Config.qrCapacity
  | .dmemSize => BitVec.ofNat 32 Config.dmemBytes

/-- The next event is a 32-bit host write of `v` to the CSR offset `o`, and `s0` is the machine it reaches. -/
def HostWrites (s s0 : State) (o : Nat) (v : Word) : Prop :=
  ∃ rest, s.events = .write 4 (Config.csrBase + o) v :: rest ∧ s0 = { s with events := rest }

/-- The next event is a 32-bit host read of the CSR offset `o`, and `s0` is the machine it reaches. -/
def HostReads (s s0 : State) (o : Nat) : Prop :=
  ∃ rest, s.events = .read 4 (Config.csrBase + o) :: rest ∧ s0 = { s with events := rest }

/-- A reset happens in this step: the power-on reset, or a host write of CTRL with SOFT_RESET set
(70_reset_and_hazards.md R261). -/
def ResetComes (s : State) : Prop :=
  (∃ rest, s.events = .powerOn :: rest) ∨ ∃ s0 v, HostWrites s s0 0x004 v ∧ v.getLsbD 1 = true

/-- What a soft reset leaves (70_reset_and_hazards.md R262, R263), `s0` being the machine it is taken on: every register at
its reset value, an Idle engine, a low interrupt line, and DMEM as it was, but for the bytes of an aborted command whose word
decodes: its destination region, where its regions pass the checks (log 17), and its AUX region (44_fft.md R193; log 27). -/
structure SoftResetDone (s s0 t : State) : Prop where
  registers : ∀ r : Csr, t.readCsr r = r.resetValue
  idle : t.engine = .idle
  irqLow : t.irq = false
  events : t.events = s0.events
  readData : t.readData = s.readData
  idleMemory : s.engine = .idle → t.dmem = s.dmem
  abortMemory : ∀ (j : Job) (d : Bool), s.engine = .busy j d → ∀ a,
    (∀ i, decode j.word = .ok i → (¬ BadRegions i j.latched → inRegion (dstRegion i j.latched) a = false) ∧
      inRegion (auxRegion i j.latched) a = false) →
    t.byte a = s.byte a

/-- `n` steps lead from one state to another, each answering a next state. -/
def StepsTo : Nat → State → State → Prop
  | 0, s, t => s = t
  | n + 1, s, t => ∃ u, step s = .next u ∧ StepsTo n u t

/-- `round_away` of an exact value (44_fft.md R194): ties away from zero. -/
def roundAway (q : ℚ) : ℤ := if q < 0 then -⌊-q + 1 / 2⌋ else ⌊q + 1 / 2⌋

/-- The registers a host write is ignored on while BUSY = 1 (10_state.md R38). -/
def Csr.isOperand : Csr → Bool
  | .src => true
  | .dst => true
  | .aux => true
  | .len => true
  | .width => true
  | .height => true
  | .nchan => true
  | .tileL => true
  | .x => true
  | .y => true
  | .factorLo => true
  | .factorHi => true
  | .id => false
  | .ctrl => false
  | .status => false
  | .cmd => false
  | .resultLo => false
  | .resultHi => false
  | .qrSide => false
  | .strength => false
  | .qrCap => false
  | .dmemSize => false

/-- The event keeps the duties of 70_reset_and_hazards.md R270 to R272 in a state: while BUSY = 1 the host touches no
DMEM and writes neither an operand register nor CMD. -/
def Event.keepsHazards (s : State) : Event → Bool
  | .engine => true
  | .powerOn => true
  | .read _ addr =>
    match busTarget addr with
    | some (.dmem _) => !s.status.busy
    | _ => true
  | .write _ addr _ =>
    match busTarget addr with
    | some (.dmem _) => !s.status.busy
    | some (.csr o) =>
      match csrAt o with
      | some r => !s.status.busy || !(r.isOperand || r == .cmd)
      | none => true
    | none => true

/-- A whole number as a binary64 value; exact below 2^53. -/
def f64OfInt (z : ℤ) : F64 := if z < 0 then F64.neg (F64.ofNat z.natAbs) else F64.ofNat z.natAbs

/-- The real part at `(x, y)` of the inverse transform of the transform of a real array (44_fft.md R177); `nan` is a choice of
NaN bits. -/
def roundTrip (nan : Nat → NanBits) (w h : Nat) (a : Nat → Nat → F64) (x y : Nat) : F64 :=
  roundTripOf Num.dft1 nan w h a x y

/-- N4 of 44_fft.md R170, of the block's kernel (R177; log 28). Laws/RoundTrip.lean has the evidence that N1 to N4 can be met,
and Laws/Kernel.lean proves this of the model. -/
def FftRoundTrip : Prop := RoundTripKept Config.fftTol Num.dft1

/-- The source's reading of normalization exactness (45_normalization.md R216, I12): the new maximum is within `tol` of the
factor, relative to it. The spec's `tol` is `Config.normTolDefault`. -/
def NormWithin (tol : ℚ) : Prop :=
  ∀ (nan : Nat → NanBits) (a : List F64) (m f : F64), fmax a = some m → F64.isFinite m = true →
    F64.gt m (F64.zero false) = true → F64.isFinite f = true → F64.gt f (F64.zero false) = true →
    ∃ k, fmax (Sys2Proof.Machine.norm nan a m f) = some k ∧ |F64.toRat k - F64.toRat f| ≤ tol * F64.toRat f

/-- Q6 of 41_qr_encoder.md R131: a standard decoder reads every symbol back. A claim may take it as a hypothesis about
a decoder. Nothing here does (log 8). -/
def QrReadsBack (decoder : (Nat → Bool) → Option (List Byte)) : Prop :=
  ∀ p grid, qrEncode p = some grid → decoder grid = some p

end Sys2Proof.Machine
end

