-- ==== Sys2Proof/Certificates/Slice0/Obligations.lean ====
section
/-! DEFINITION. The statements about the model, for the provers. Each docstring names the rules of the spec that the
statement formalises. Every `Job` is what the engine latched at accept; `false` beside it says that the host wrote no
DMEM while the command ran (20_memory.md R270). -/

section
open Sys2Proof Sys2Proof.Machine

/-! ### The encoding (30_encoding.md) -/

/-- R96 and R99: the fourteen words of the opcode map, and one word that each of the decoder's three checks rejects. -/
def Obligations.SpecWordsDecodeToTheirCommands : Prop :=
  decode 0x00000000 = .ok .nop ∧ decode 0x00000001 = .ok .qrEncode ∧ decode 0x00000002 = .ok .tileIndex ∧
  decode 0x00000003 = .ok .tileMap ∧ decode 0x00000004 = .ok (.lsbEmbed false) ∧
  decode 0x00000104 = .ok (.lsbEmbed true) ∧ decode 0x00000005 = .ok .lsbExtract ∧
  decode 0x00000006 = .ok (.fftEmbed false) ∧ decode 0x00000106 = .ok (.fftEmbed true) ∧
  decode 0x00000007 = .ok .fftExtract ∧ decode 0x00000008 = .ok .max ∧ decode 0x00000009 = .ok .normalize ∧
  decode 0x0000000A = .ok .fft2 ∧ decode 0x0000000B = .ok .ifft2 ∧
  decode 0x0000000C = .error .reservedOpcode ∧ decode 0x00000100 = .error .gNotAllowed ∧
  decode 0x00000200 = .error .reservedBits

/-- R90, R96, R99: every command is well-formed, and a word decodes to a command exactly when it is that command's word. -/
def Obligations.DecodeAndEncodeAgree : Prop :=
  (∀ i : Instr, i.wf = true) ∧ ∀ (w : Word) (i : Instr), decode w = .ok i ↔ w = encode i

/-- R99: the decoder rejects exactly the words the rule rejects, its command has the word's own OPC and G, and exactly
fourteen words decode to a command. -/
def Obligations.DecoderAcceptsExactlyFourteenWords : Prop :=
  (∀ w : Word, (∃ e, decode w = .error e) ↔
    w.extractLsb' 9 23 ≠ 0 ∨ 0x0B < (w.extractLsb' 0 8).toNat ∨
      (w.getLsbD 8 = true ∧ w.extractLsb' 0 8 ≠ 0x04 ∧ w.extractLsb' 0 8 ≠ 0x06)) ∧
  (∀ (w : Word) (i : Instr), decode w = .ok i → i.opc = w.extractLsb' 0 8 ∧ i.gFlag = w.getLsbD 8) ∧
  ∀ w : Word, (∃ i, decode w = .ok i) ↔
    w ∈ ([0x000, 0x001, 0x002, 0x003, 0x004, 0x005, 0x006, 0x007, 0x008, 0x009, 0x00A, 0x00B, 0x104, 0x106] : List Word)

/-- R93, R97: when the engine's turn comes on a word with a reserved bit set, a reserved opcode, or a G that its opcode
does not allow, the command fails with BadCommand, code 4, and DMEM is unchanged. -/
def Obligations.ReservedWordsFailWithBadCommand : Prop :=
  ∀ (s s0 : State) (j : Job) (d : Bool), EngineMoves s s0 → s.engine = .busy j d →
    (j.word.extractLsb' 9 23 ≠ 0 ∨ 0x0B < (j.word.extractLsb' 0 8).toNat ∨
      (j.word.getLsbD 8 = true ∧ j.word.extractLsb' 0 8 ≠ 0x04 ∧ j.word.extractLsb' 0 8 ≠ 0x06)) →
    ∃ t, step s = .next t ∧ FailedAs s0 t .badCommand ∧ t.status.errcode = 4 ∧ t.dmem = s0.dmem

/-! ### The step (10_state.md R22, 40_command_control.md R112, R113) -/

/-- R22, R112, R250: when the engine's turn comes and the latched word decodes to a command, the step is `exec` of it;
an idle engine's turn changes nothing. The last clause is the model's own form of placing a command (log 2):
`withFetchWord` is the accept of its word, and the very next step runs it. -/
def Obligations.StepRunsTheDecodedCommand : Prop :=
  (∀ (s s0 : State) (j : Job) (d : Bool) (i : Instr), EngineMoves s s0 → s.engine = .busy j d →
    decode j.word = .ok i → step s = exec i s0) ∧
  (∀ s s0 : State, EngineMoves s s0 → s.engine = .idle → step s = .next s0) ∧
  ∀ (s : State) (i : Instr), step (s.withFetchWord 32 (encode i).toNat) = exec i (s.accept (encode i))

/-- R22, R230, R275: whenever the engine of a reachable state is Busy and its turn comes, the command ends, in exactly
one of two ways, and ERRCODE says which. -/
def Obligations.BusyEngineEndsItsCommandInOneOfTwoWays : Prop :=
  ∀ (s s0 : State) (j : Job) (d : Bool), s.Inv → EngineMoves s s0 → s.engine = .busy j d →
    ∃ t, step s = .next t ∧ t.engine = .idle ∧ t.status.busy = false ∧ t.status.done = !t.status.err ∧
      (t.status.done = true → t.status.errcode = 0) ∧
      (t.status.err = true → 1 ≤ t.status.errcode.toNat ∧ t.status.errcode.toNat ≤ 6)

/-- R101, R275: WAIT polls STATUS until BUSY reads 0, and ends when the engine's turn comes. The clauses: as events of the
machine, whatever number of polls comes before the engine's turn, the poll after it reads BUSY = 0; in a script, a poll that
reads BUSY = 1 is followed by another, and one that reads BUSY = 0 ends WAIT, with no poll after it; so WAIT ends on a Busy
machine, and RUN on one that accepts its command. (That the turn comes after finitely many polls is the model's form of
fairness: log 25.) -/
def Obligations.WaitEnds : Prop :=
  (∀ (polls : Nat) (rest : List Event) (s : State) (j : Job) (d : Bool), s.engine = .busy j d → s.status.busy = true →
    s.events = waitEvents polls ++ rest →
    ∃ t, StepsTo (polls + 2) s t ∧ t.engine = .idle ∧ t.events = rest ∧ t.readData.getLsbD 0 = false) ∧
  (∀ (ops : List HostOp) (turns : List Turn) (s : State), ∃ t, s.take (rdEvent .status) = .next t ∧
    t.readData.getLsbD 0 = s.status.busy ∧
    (s.status.busy = true → runOps (.untilIdle :: ops) (.host :: turns) s = runOps (.untilIdle :: ops) turns t) ∧
    (s.status.busy = false → runOps (.untilIdle :: ops) (.host :: turns) s = runOps ops turns t)) ∧
  (∀ (polls : Nat) (ops : List HostOp) (turns : List Turn) (s : State) (j : Job) (d : Bool), s.engine = .busy j d →
    s.status.busy = true →
    ∃ t, t.engine = .idle ∧ t.readData.getLsbD 0 = false ∧
      runOps (.untilIdle :: ops) (waitTurns polls ++ turns) s = runOps ops turns t) ∧
  ∀ (i : Instr) (polls : Nat) (s : State), s.status.busy = false →
    ∃ t, t.engine = .idle ∧ t.cmd = encode i ∧ t.readData.getLsbD 0 = false ∧
      runScript [.run i] (.host :: waitTurns polls) s = .next ([], t)

/-! ### Reset (70_reset_and_hazards.md) -/

/-- R23, R44, R260: every register's reset value, an Idle engine, a low interrupt line, after the reset that starts the
machine and after every later power-on reset, which gives every DMEM byte a value nothing constrains (the free value is
the model's, log 13). -/
def Obligations.ResetRegisterValues : Prop :=
  (∀ r : Csr, State.reset.readCsr r = r.resetValue) ∧ State.reset.engine = .idle ∧ State.reset.irq = false ∧
  ∀ (s : State) (rest : List Event), s.events = .powerOn :: rest →
    ∃ t, step s = .next t ∧ (∀ r : Csr, t.readCsr r = r.resetValue) ∧ t.engine = .idle ∧ t.irq = false ∧
      t.events = rest ∧ ∀ a, t.byte a = Config.powerOnByte (s.dmem.cycle + 1) a

/-- R262, R263: a soft reset resets every register, leaves the engine Idle, and keeps DMEM, but for the bytes of an aborted
command whose word decodes: its destination region, where its regions pass the checks, a bad shape or not (log 17), and its
AUX region. That nothing is claimed of AUX where the region checks fail is the model's choice between R262 and R193 with I3
(log 27). -/
def Obligations.SoftResetStep : Prop :=
  ∀ (s s0 : State) (v : Word), s.dmem.wf → HostWrites s s0 0x004 v → v.getLsbD 1 = true →
    ∃ t, step s = .next t ∧ SoftResetDone s s0 t

/-- R26, R28, R38, R40, R43: the machine after reset has the invariant. -/
def Obligations.ResetMeetsTheInvariant : Prop := State.reset.Inv

/-- R26, R28, R38, R40, R43, R230: every step keeps the invariant, whatever the host does. -/
def Obligations.StepKeepsTheInvariant : Prop :=
  ∀ s t : State, s.Inv → step s = .next t → t.Inv

/-! ### The host's accesses (10_state.md, 20_memory.md) -/

/-- R24, R37: the read-only constants read their values and ignore writes; so does RESULT (R23, R36, I20). -/
def Obligations.ConstantsReadTheirValuesAndIgnoreWrites : Prop :=
  (∀ s s0 : State, HostReads s s0 0x000 → step s = .next { s0 with readData := 0x44574501 }) ∧
  (∀ s s0 : State, HostReads s s0 0x048 → step s = .next { s0 with readData := 177 }) ∧
  (∀ s s0 : State, HostReads s s0 0x04C → step s = .next { s0 with readData := 32 }) ∧
  (∀ s s0 : State, HostReads s s0 0x050 →
    ∃ v : Word, v.toNat = Config.qrCapacity ∧ step s = .next { s0 with readData := v }) ∧
  (∀ s s0 : State, HostReads s s0 0x054 →
    ∃ v : Word, v.toNat = Config.dmemBytes ∧ step s = .next { s0 with readData := v }) ∧
  ∀ (s s0 : State) (o : Nat) (v : Word), o ∈ [0x000, 0x040, 0x044, 0x048, 0x04C, 0x050, 0x054] → HostWrites s s0 o v →
    step s = .next s0

/-- R39: reserved offsets and reserved bits read 0 and ignore writes; operand registers store all 32 bits. -/
def Obligations.ReservedOffsetsAndBits : Prop :=
  (∀ (s s0 : State) (o : Nat), 0x058 ≤ o → o ≤ 0xFFC → o % 4 = 0 →
    (HostReads s s0 o → step s = .next { s0 with readData := 0 }) ∧
    ∀ v : Word, HostWrites s s0 o v → step s = .next s0) ∧
  (∀ s : State, s.readCsr .ctrl &&& ~~~(0x001 : Word) = 0 ∧ s.readCsr .status &&& ~~~(0x1F7 : Word) = 0) ∧
  (∀ (s s0 : State) (v : Word), HostWrites s s0 0x004 v → step s = .next (s0.writeCsr .ctrl (v &&& 0x003))) ∧
  (∀ (s s0 : State) (v : Word), HostWrites s s0 0x008 v → step s = .next (s0.writeCsr .status (v &&& 0x106))) ∧
  ∀ (s s0 : State) (r : Csr) (v : Word), r.isOperand = true → s.status.busy = false → HostWrites s s0 r.offset v →
    ∃ t, step s = .next t ∧ t.readCsr r = v

/-- R20, R23, R62, R66: a read of any register answers its value and changes nothing else, Busy or not. While BUSY = 0 a
write to an operand register stores the word there and changes nothing else. -/
def Obligations.OperandWriteIsStored : Prop :=
  (∀ (s s0 : State) (r : Csr), HostReads s s0 r.offset → step s = .next { s0 with readData := s.readCsr r }) ∧
  ∀ (s s0 : State) (r : Csr) (v : Word), r.isOperand = true → s.status.busy = false → HostWrites s s0 r.offset v →
    ∃ t, step s = .next t ∧ t.readCsr r = v ∧ (∀ q : Csr, q ≠ r → t.readCsr q = s.readCsr q) ∧
      t = { s0 with ops := t.ops }

/-- R38: what a host access to a register does while a command runs. A write to CTRL with SOFT_RESET set is the soft reset
of R262; which bytes of the aborted command that clause leaves open is the model's choice (logs 17 and 27). -/
def Obligations.RegisterAccessWhileBusy : Prop :=
  ∀ (s s0 : State) (j : Job) (d : Bool), s.Inv → s.engine = .busy j d →
    (∀ (r : Csr) (v : Word), r.isOperand = true → HostWrites s s0 r.offset v → step s = .next s0) ∧
    (∀ v : Word, HostWrites s s0 0x004 v → v.getLsbD 1 = false →
      step s = .next { s0 with irqEn := v.getLsbD 0 }) ∧
    (∀ v : Word, HostWrites s s0 0x004 v → v.getLsbD 1 = true →
      ∃ t, step s = .next t ∧ SoftResetDone s s0 t) ∧
    (∀ v : Word, HostWrites s s0 0x008 v →
      step s = .next { s0 with status := { s0.status with ovr := s0.status.ovr && !v.getLsbD 8 } }) ∧
    (∀ w : Word, HostWrites s s0 0x00C w → step s = .next { s0 with status := { s0.status with ovr := true } }) ∧
    (∀ r : Csr, HostReads s s0 r.offset → step s = .next { s0 with readData := s.readCsr r }) ∧
    s.ops = j.latched

/-- R26: STATUS as a word. A write clears exactly the DONE, ERR and OVR bits it has set, and changes nothing else. -/
def Obligations.StatusWriteClearsTheBitsItSets : Prop :=
  ∀ (s s0 : State) (v : Word), HostWrites s s0 0x008 v →
    ∃ t, step s = .next t ∧ t.readCsr .status = s.readCsr .status &&& ~~~(v &&& 0x106) ∧
      t = { s0 with status := t.status }

/-- R110: a CMD write while BUSY = 0 is accepted in one step, whatever the word; a word that is no command then fails with
BadCommand when the engine's turn comes. -/
def Obligations.CmdWriteWhileIdleIsAccepted : Prop :=
  ∀ (s s0 : State) (w : Word), s.status.busy = false → HostWrites s s0 0x00C w →
    ∃ t, step s = .next t ∧ t.irq = false ∧
      t = { s0 with cmd := w, engine := .busy { word := w, latched := s0.ops, snap := s0.dmem } false,
                    status := { busy := true, done := false, err := false, errcode := 0, ovr := s0.status.ovr } } ∧
      ∀ (e : DecodeError) (t0 : State), decode w = .error e → EngineMoves t t0 →
        ∃ u, step t = .next u ∧ FailedAs t0 u .badCommand

/-- R111, R241: a CMD write while BUSY = 1 is dropped: it sets OVR and nothing else, IRQ included. Nothing but such a
write sets OVR, and only a write of 1 to bit 8 or a reset clears it. -/
def Obligations.CmdWriteWhileBusyOnlySetsOverrun : Prop :=
  (∀ (s s0 : State) (w : Word), s.status.busy = true → HostWrites s s0 0x00C w →
    ∃ t, step s = .next t ∧ t = { s0 with status := { s0.status with ovr := true } } ∧ t.irq = s.irq) ∧
  ∀ s t : State, step s = .next t →
    (s.status.ovr = false → t.status.ovr = true → s.status.busy = true ∧ ∃ s0 w, HostWrites s s0 0x00C w) ∧
    (s.status.ovr = true → t.status.ovr = false → ResetComes s ∨ ∃ s0 v, HostWrites s s0 0x008 v ∧ v.getLsbD 8 = true)

/-- R12, R60, R61: while BUSY = 0 a host access of 1, 2 or 4 bytes, naturally aligned, writes the low bytes of the datum,
least significant first (that the low bytes are taken is the model's reading: log 22), and nothing else; it reads them
back the same way. (That a narrow read fills the upper bytes with 0 is the model's choice: log 18.) -/
def Obligations.DmemAccessIsLittleEndian : Prop :=
  ∀ (s : State) (width a : Nat) (rest : List Event), s.status.busy = false → s.dmem.wf →
    (width = 1 ∨ width = 2 ∨ width = 4) → a % width = 0 → a < Config.dmemBytes →
    (∀ v : Word, s.events = .write width (Config.dmemBase + a) v :: rest →
      ∃ t, step s = .next t ∧ t = { s with events := rest, dmem := t.dmem } ∧
        (∀ k < width, t.byte (a + k) = v.extractLsb' (8 * k) 8) ∧ SameOutside s t a width) ∧
    (s.events = .read width (Config.dmemBase + a) :: rest →
      ∃ v : Word, step s = .next { s with events := rest, readData := v } ∧
        ∀ k < 4, v.extractLsb' (8 * k) 8 = if k < width then s.byte (a + k) else 0)

/-- R61, R62: an access of a form the rules exclude has no step, in either window or outside both (log 4). That alignment
is judged on the offset in the window is the model's reading (log 21). -/
def Obligations.ExcludedHostAccessesHaveNoStep : Prop :=
  ∀ (s : State) (rest : List Event) (width addr : Nat),
    (s.events = .read width addr :: rest ∨ ∃ v, s.events = .write width addr v :: rest) →
    (Config.csrBase ≤ addr → addr < Config.csrBase + 4096 → (width ≠ 4 ∨ (addr - Config.csrBase) % 4 ≠ 0) →
      step s = .refused .csrAccessForm) ∧
    (Config.dmemBase ≤ addr → addr < Config.dmemBase + Config.dmemBytes →
      ((width ≠ 1 ∧ width ≠ 2 ∧ width ≠ 4) ∨ (addr - Config.dmemBase) % width ≠ 0) →
      step s = .refused .dmemAccessForm) ∧
    (¬ (Config.csrBase ≤ addr ∧ addr < Config.csrBase + 4096) →
      ¬ (Config.dmemBase ≤ addr ∧ addr < Config.dmemBase + Config.dmemBytes) →
      step s = .fault .unmappedHostAddress)

/-- R70 item 3, R270, I6: a DMEM access while BUSY = 1 completes. A read changes only the read data (and the count of
free bytes drawn, log 14); a write changes no byte but its targets and no register, and marks the command (log 16). -/
def Obligations.DmemAccessWhileBusy : Prop :=
  ∀ (s : State) (j : Job) (d : Bool) (width a : Nat) (rest : List Event), s.status.busy = true → s.engine = .busy j d →
    s.dmem.wf → (width = 1 ∨ width = 2 ∨ width = 4) → a % width = 0 → a < Config.dmemBytes →
    (∀ v : Word, s.events = .write width (Config.dmemBase + a) v :: rest →
      ∃ t, step s = .next t ∧ SameOutside s t a width ∧
        t = { s with events := rest, dmem := t.dmem, draws := t.draws, engine := .busy j true }) ∧
    (s.events = .read width (Config.dmemBase + a) :: rest →
      ∃ t, step s = .next t ∧ t = { s with events := rest, readData := t.readData, draws := t.draws })

/-- R25, R41, R238: the interrupt line follows completion: it is high after every completion, that of a word that does not
decode included, exactly where IRQ_EN is 1. A W1C of DONE and ERR and a clear of IRQ_EN lower it, and setting IRQ_EN after
a completion raises it. A CTRL write with SOFT_RESET clear, Busy or Idle, gives IRQ_EN bit 0 and changes nothing else. -/
def Obligations.InterruptFollowsCompletion : Prop :=
  (∀ (i : Instr) (s t : State), s.Inv → exec i s = .next t → t.irq = s.irqEn) ∧
  (∀ (s s0 t : State) (j : Job) (d : Bool), s.Inv → EngineMoves s s0 → s.engine = .busy j d → step s = .next t →
    t.irq = s.irqEn) ∧
  (∀ (s s0 : State) (v : Word), HostWrites s s0 0x008 v → v &&& 0x006 = 0x006 →
    ∃ t, step s = .next t ∧ t.irq = false) ∧
  ∀ (s s0 : State) (v : Word), HostWrites s s0 0x004 v →
    (v.getLsbD 1 = false → step s = .next { s0 with irqEn := v.getLsbD 0 }) ∧
    ∃ t, step s = .next t ∧ (v.getLsbD 0 = false → t.irq = false) ∧
      (v.getLsbD 1 = false → v.getLsbD 0 = true → s.status.done = true ∨ s.status.err = true → t.irq = true)

/-! ### What every command does and does not do -/

/-- R113, R231, R233: every command of a Busy engine completes, with success or with an error of its own list. Only
TILE_INDEX and MAX can change RESULT, and only by succeeding (R36). -/
def Obligations.EveryCommandCompletes : Prop :=
  ∀ (i : Instr) (s : State) (j : Job) (d : Bool), s.engine = .busy j d →
    ∃ t, exec i s = .next t ∧ (Succeeded s t ∧ i ≠ .fftExtract ∨ ∃ e ∈ errorsOf i, FailedAs s t e) ∧
      (i ≠ .tileIndex → i ≠ .max → SameResult s t)

/-- R67: a command changes no byte of DMEM outside its destination region and its scratch region, whatever the host did
while it ran. -/
def Obligations.CommandsWriteOnlyTheirRegions : Prop :=
  ∀ (i : Instr) (s t : State) (j : Job) (d : Bool), s.dmem.wf → s.engine = .busy j d → exec i s = .next t →
    ∀ a, inRegion (dstRegion i j.latched) a = false → inRegion (auxRegion i j.latched) a = false → t.byte a = s.byte a

/-- R236: a failed completion sets ERR and ERRCODE, leaves DONE 0, and changes no bit of RESULT and no register, nor,
where the host wrote no DMEM while the command ran (R270, I6), a byte of DMEM but FFT_EMBED's scratch outside SRC and
DST. That a byte of AUX which also lies in SRC or DST is kept is the model's reading of R236 and R193 (log 15). -/
def Obligations.FailedCommandChangesNothingElse : Prop :=
  ∀ (s s0 t : State) (j : Job) (d : Bool), s.Inv → EngineMoves s s0 → s.engine = .busy j d → step s = .next t →
    t.status.err = true →
    t.status.done = false ∧ (∃ e, FailedAs s0 t e) ∧
    (d = false → ∀ a, (∀ i, decode j.word = .ok i → inRegion (srcRegion i j.latched) a = true ∨
      inRegion (dstRegion i j.latched) a = true ∨ inRegion (auxRegion i j.latched) a = false) → t.byte a = s.byte a)

/-- R117, R118, R219, R230: a shape that a command's checks reject ends it with DimensionMismatch, code 2. -/
def Obligations.BadShapeFailsWithDimensionMismatch : Prop :=
  ∀ (i : Instr) (s : State) (j : Job) (d : Bool), s.engine = .busy j d → BadShape i j.latched →
    ∃ t, exec i s = .next t ∧ FailedAs s t .dimensionMismatch ∧ t.status.errcode = 2

/-- R64, R65, R119, R233: with a good shape, a region that does not fit, or two that overlap where they may not, end the
command with BadAddress, code 5. -/
def Obligations.BadRegionsFailWithBadAddress : Prop :=
  ∀ (i : Instr) (s : State) (j : Job) (d : Bool), s.engine = .busy j d → ¬ BadShape i j.latched →
    BadRegions i j.latched →
    ∃ t, exec i s = .next t ∧ FailedAs s t .badAddress ∧ t.status.errcode = 5

/-- R131 Q3, R133, R233: with a good shape and good regions, a payload longer than QR_CAPACITY ends each command that
encodes one with PayloadTooLarge, code 1. -/
def Obligations.LongPayloadFailsWithPayloadTooLarge : Prop :=
  ∀ (i : Instr) (s : State) (j : Job) (d : Bool), s.engine = .busy j d → ¬ BadShape i j.latched →
    ¬ BadRegions i j.latched → takesPayload i = true → Config.qrCapacity < j.latched.len.toNat →
    ∃ t, exec i s = .next t ∧ FailedAs s t .payloadTooLarge ∧ t.status.errcode = 1

/-- R20, R28: a step that is neither a host write nor a power-on reset leaves every operand register, CMD and IRQ_EN as
they are: the engine only reads them. -/
def Obligations.EngineNeverWritesOperands : Prop :=
  ∀ s t : State, (∀ width addr v rest, s.events ≠ .write width addr v :: rest) → (∀ rest, s.events ≠ .powerOn :: rest) →
    step s = .next t → t.ops = s.ops ∧ t.cmd = s.cmd ∧ t.irqEn = s.irqEn

/-- R36, R273: RESULT changes only in a reset or when a TILE_INDEX or a MAX completes with DONE. -/
def Obligations.ResultChangesOnlyByTileIndexOrMax : Prop :=
  ∀ s t : State, step s = .next t → ¬ SameResult s t →
    ResetComes s ∨ ∃ s0 j d, EngineMoves s s0 ∧ s.engine = .busy j d ∧ t.status.done = true ∧
      (decode j.word = .ok .tileIndex ∨ decode j.word = .ok .max)

/-- R114, R260, R265: a command's outcome depends on its latched operands and on the bytes of its SRC and DST regions at
accept, and on nothing else of the machine. (NORMALIZE and IFFT2 may write NaN elements, whose bits are free: log 12. For
FFT_EMBED it rests on the kernel's taking no NaN bits in: log 11.) -/
def Obligations.CommandsReadOnlyTheirRegions : Prop :=
  ∀ (i : Instr) (s1 s2 t1 t2 : State) (j1 j2 : Job), i ≠ .normalize → i ≠ .ifft2 →
    s1.dmem.wf → s2.dmem.wf → s1.engine = .busy j1 false → s2.engine = .busy j2 false → j1.latched = j2.latched →
    (∀ a, inRegion (srcRegion i j1.latched) a = true ∨ inRegion (dstRegion i j1.latched) a = true →
      j1.snap.readByte a = j2.snap.readByte a) →
    (∀ a, inRegion (dstRegion i j1.latched) a = true → s1.byte a = s2.byte a) →
    s1.status = s2.status → s1.resultLo = s2.resultLo → s1.resultHi = s2.resultHi →
    exec i s1 = .next t1 → exec i s2 = .next t2 →
    t1.status = t2.status ∧ t1.resultLo = t2.resultLo ∧ t1.resultHi = t2.resultHi ∧
      ∀ a, inRegion (dstRegion i j1.latched) a = true → t1.byte a = t2.byte a

/-! ### Each command's own effect -/

/-- R116: NOP completes with DONE and does nothing else. -/
def Obligations.NopOnlyCompletes : Prop :=
  ∀ (s : State) (j : Job) (d : Bool), s.engine = .busy j d →
    ∃ t, exec .nop s = .next t ∧ Succeeded s t ∧ SameResult s t ∧ ∀ a, t.byte a = s.byte a

/-- R120, R131 Q3, R63: the grid source. With G = 1 a cell is true exactly where its byte is not 0x00. With G = 0 it is
QrEncode of the payload's bytes, or PayloadTooLarge exactly above QR_CAPACITY. -/
def Obligations.GridSourceOfBothForms : Prop :=
  (∀ j : Job, ∃ grid, gridSource true j = .ok grid ∧
    ∀ i, grid i = true ↔ j.snap.readByte (j.latched.src.toNat + i) ≠ 0) ∧
  (∀ j : Job, j.latched.len.toNat ≤ Config.qrCapacity → ∃ grid, gridSource false j = .ok grid ∧
    qrEncode (j.bytes j.latched.src.toNat j.latched.len.toNat) = some grid) ∧
  (∀ j : Job, Config.qrCapacity < j.latched.len.toNat → gridSource false j = .error .payloadTooLarge) ∧
  ∀ p : List Byte, qrEncode p = none ↔ Config.qrCapacity < p.length

/-- R130, R63: QR_ENCODE writes the payload's 31329 cells as 0x00 or 0x01, and nothing else. -/
def Obligations.QrEncodeWritesTheGrid : Prop :=
  ∀ (s : State) (j : Job), s.engine = .busy j false → s.dmem.wf → Ready .qrEncode j.latched →
    ∃ t grid, qrEncode (j.bytes j.latched.src.toNat j.latched.len.toNat) = some grid ∧
      exec .qrEncode s = .next t ∧ Succeeded s t ∧ SameResult s t ∧
      (∀ i < 31329, t.byte (j.latched.dst.toNat + i) = if grid i then 0x01 else 0x00) ∧
      SameOutside s t j.latched.dst.toNat 31329

/-- R140: TILE_INDEX writes (X mod L) * L + (Y mod L), without wrapping, to RESULT, and no DMEM byte. -/
def Obligations.TileIndexWritesTheIndex : Prop :=
  ∀ (s : State) (j : Job) (d : Bool), s.engine = .busy j d → LegalSide j.latched.tileL.toNat →
    let l := j.latched.tileL.toNat
    ∃ t, exec .tileIndex s = .next t ∧ Succeeded s t ∧
      t.resultLo.toNat = j.latched.x.toNat % l * l + j.latched.y.toNat % l ∧ t.resultHi = 0 ∧
      ∀ a, t.byte a = s.byte a

/-- R142, R63: TILE_MAP writes the W x H map as 32-bit little-endian entries, and nothing else. -/
def Obligations.TileMapWritesTheMap : Prop :=
  ∀ (s : State) (j : Job), s.engine = .busy j false → s.dmem.wf → Ready .tileMap j.latched →
    let w := j.latched.width.toNat
    let h := j.latched.height.toNat
    let l := j.latched.tileL.toNat
    let dst := j.latched.dst.toNat
    ∃ t, exec .tileMap s = .next t ∧ Succeeded s t ∧ SameResult s t ∧
      (∀ x < w, ∀ y < h, t.dmem.readLE (dst + 4 * (x * h + y)) 4 = x % l * l + y % l) ∧
      SameOutside s t dst (4 * (w * h))

/-- R150: LSB_EMBED replaces bit 0 of every sample by the tiled grid's value at the pixel, in all three channels, and
changes nothing else. Both forms: `g` is the flag G. -/
def Obligations.LsbEmbedReplacesBitZero : Prop :=
  ∀ (g : Bool) (s : State) (j : Job), s.engine = .busy j false → s.dmem.wf → Ready (.lsbEmbed g) j.latched →
    let w := j.latched.width.toNat
    let h := j.latched.height.toNat
    let l := if g then j.latched.tileL.toNat else 177
    let dst := j.latched.dst.toNat
    ∃ t grid, gridSource g j = .ok grid ∧ exec (.lsbEmbed g) s = .next t ∧ Succeeded s t ∧ SameResult s t ∧
      (∀ x < w, ∀ y < h, ∀ c < 3, t.byte (dst + (x * h + y) * 3 + c) =
        (j.snap.readByte (dst + (x * h + y) * 3 + c) &&& 0xFE) ||| (if grid (x % l * l + y % l) then 1 else 0)) ∧
      SameOutside s t dst (3 * (w * h))

/-- R153: LSB_EXTRACT writes 0xFF where the red sample's bit 0 is 1 and 0x00 where it is 0, and nothing else. -/
def Obligations.LsbExtractWritesTheRedPlane : Prop :=
  ∀ (s : State) (j : Job), s.engine = .busy j false → s.dmem.wf → Ready .lsbExtract j.latched →
    let w := j.latched.width.toNat
    let h := j.latched.height.toNat
    let dst := j.latched.dst.toNat
    ∃ t, exec .lsbExtract s = .next t ∧ Succeeded s t ∧ SameResult s t ∧
      (∀ x < w, ∀ y < h, t.byte (dst + (x * h + y)) =
        if (j.snap.readByte (j.latched.src.toNat + (x * h + y) * 3)).getLsbD 0 then 0xFF else 0x00) ∧
      SameOutside s t dst (w * h)

/-- R180 to R194: FFT_EMBED completes on every pixel array: it writes the samples of the eight steps, here in the index form
of R181, or, where one of the three maxima is absent, zero or not finite, fails with DegenerateNormalization and leaves the
samples alone. Nothing outside DST and AUX changes either way. (Which of the two happens depends on Num, which the spec
leaves open: log 9. `nan` is a choice of NaN bits, I11, log 12.) -/
def Obligations.FftEmbedRunsTheEightSteps : Prop :=
  ∀ (g : Bool) (s : State) (j : Job), s.engine = .busy j false → s.dmem.wf → Ready (.fftEmbed g) j.latched →
    let w := j.latched.width.toNat
    let h := j.latched.height.toNat
    let l := if g then j.latched.tileL.toNat else 177
    let dst := j.latched.dst.toNat
    let at3 := fun x y c : Nat => (x * h + y) * 3 + c
    -- the whole three-channel array in layout order (R182), and a channel as rows
    let all := fun f : Nat → Nat → Nat → F64 => (List.range (w * h * 3)).map fun k => f (k / 3 / h) (k / 3 % h) (k % 3)
    let rows := fun (f : Nat → Nat → Nat → C64) (c : Nat) => (List.range w).map fun x => (List.range h).map fun y => f x y c
    -- R192: what a maximum must be to divide by it
    let usable := fun m : F64 => F64.isFinite m = true ∧ F64.isZero m = false
    ∃ (t : State) (grid : Nat → Bool) (nan : Nat → Nat → NanBits), gridSource g j = .ok grid ∧
      exec (.fftEmbed g) s = .next t ∧ SameResult s t ∧
      -- step 1 (R183) and step 2 (R184)
      (let p := fun x y c => j.snap.readByte (dst + at3 x y c)
      let sample := fun x y c =>
        ({ re := F64.div (nan 1 (at3 x y c)) (F64.ofNat (p x y c).toNat) 0x406FE00000000000, im := 0 } : C64)
      let spectrum := fun u v c => entry (fft2 w h (rows sample c)) u v
      -- step 3 (R185)
      let lg := fun u v c => Num.log10 (Num.abs (spectrum u v c).re (spectrum u v c).im)
      -- steps 4 and 5 (R186, R187)
      let l2 := fun premax u v c => F64.add (nan 5 (at3 u v c))
        (F64.mul (nan 4 (2 * at3 u v c + 1)) (F64.div (nan 4 (2 * at3 u v c)) (lg u v c) premax) 0x406FE00000000000)
        (if grid (u % l * l + v % l) then 0x4040000000000000 else 0)
      -- step 6 (R188)
      let l3 := fun premax m2 u v c =>
        F64.mul (nan 6 (2 * at3 u v c + 1)) (F64.div (nan 6 (2 * at3 u v c)) (l2 premax u v c) m2) premax
      -- step 7 (R189): the new magnitude with the phase of step 3
      let phase := fun u v c => Num.arg (spectrum u v c).re (spectrum u v c).im
      let s2 := fun premax m2 u v c =>
        ({ re := F64.mul (nan 7 (2 * at3 u v c)) (Num.pow10 (l3 premax m2 u v c)) (Num.cos (phase u v c)),
           im := F64.mul (nan 7 (2 * at3 u v c + 1)) (Num.pow10 (l3 premax m2 u v c)) (Num.sin (phase u v c)) } : C64)
      -- step 8 (R190, R191, R194)
      let r := fun premax m2 x y c => (entry (ifft2 (nan (8 + c)) w h (rows (s2 premax m2) c)) x y).re
      let q := fun premax m2 rmax x y c => F64.mul (nan 11 (2 * at3 x y c + 1))
        (F64.div (nan 11 (2 * at3 x y c)) (r premax m2 x y c) rmax) 0x406FE00000000000
      let maxima := fun premax m2 rmax => fmax (all lg) = some premax ∧ usable premax ∧
        fmax (all (l2 premax)) = some m2 ∧ usable m2 ∧ fmax (all (r premax m2)) = some rmax ∧ usable rmax
      (∃ premax m2 rmax, maxima premax m2 rmax ∧ Succeeded s t ∧
        ∀ x < w, ∀ y < h, ∀ c < 3, t.byte (dst + at3 x y c) = F64.toU8 (q premax m2 rmax x y c)) ∨
      (¬ ∃ premax m2 rmax, maxima premax m2 rmax) ∧ FailedAs s t .degenerateNormalization ∧
        ∀ k < 3 * (w * h), t.byte (dst + k) = s.byte (dst + k)) ∧
      ∀ a, ¬ (dst ≤ a ∧ a < dst + 3 * (w * h)) →
        ¬ (j.latched.aux.toNat ≤ a ∧ a < j.latched.aux.toNat + 96 * (w * h)) → t.byte a = s.byte a

/-- R195: FFT_EXTRACT always raises Unimplemented, whatever the operands, and changes no byte. From a state with OVR = 0
STATUS then reads 0x64. -/
def Obligations.FftExtractRaisesUnimplemented : Prop :=
  ∀ (s : State) (j : Job) (d : Bool), s.engine = .busy j d →
    ∃ t, exec .fftExtract s = .next t ∧ FailedAs s t .unimplemented ∧ (∀ a, t.byte a = s.byte a) ∧
      (s.Inv → s.status.ovr = false → t.readCsr .status = 0x64)

/-- R210, R220: MAX writes the bits of the array's maximum to RESULT, or qNaN where it has none, and no DMEM byte. -/
def Obligations.MaxWritesTheMaximum : Prop :=
  ∀ (s : State) (j : Job) (d : Bool), s.engine = .busy j d → Ready .max j.latched →
    ∃ t, exec .max s = .next t ∧ Succeeded s t ∧
      t.result = (match fmax (j.f64Array j.latched.src.toNat) with
        | some m => m
        | none => 0x7FF8000000000000) ∧
      ∀ a, t.byte a = s.byte a

/-- R214, R215: NORMALIZE with a maximum that is finite and not zero divides every element by it and then multiplies by
FACTOR, in place, and changes nothing else. `n` and `p` are the NaN bits an invalid operation takes (I11). -/
def Obligations.NormalizeRescalesInPlace : Prop :=
  ∀ (s : State) (j : Job) (m : F64), s.engine = .busy j false → s.dmem.wf → Ready .normalize j.latched →
    fmax (j.f64Array j.latched.dst.toNat) = some m → F64.isFinite m = true → F64.isZero m = false →
    let dst := j.latched.dst.toNat
    ∃ t, exec .normalize s = .next t ∧ Succeeded s t ∧ SameResult s t ∧
      (∀ i < j.latched.len.toNat, ∃ n p : NanBits, t.dmem.readF64 (dst + 8 * i) =
        F64.mul p (F64.div n (j.snap.readF64 (dst + 8 * i)) m) j.latched.factor) ∧
      SameOutside s t dst (8 * j.latched.len.toNat)

/-- R172, R174, R63: FFT2 transforms each channel by itself, out of place or in place, and changes nothing else. -/
def Obligations.Fft2TransformsEachChannel : Prop :=
  ∀ (s : State) (j : Job), s.engine = .busy j false → s.dmem.wf → Ready .fft2 j.latched →
    let w := j.latched.width.toNat
    let h := j.latched.height.toNat
    let n := j.latched.nchan.toNat
    let src := j.latched.src.toNat
    let dst := j.latched.dst.toNat
    ∃ t, exec .fft2 s = .next t ∧ Succeeded s t ∧ SameResult s t ∧
      (∀ c < n, ∀ u < w, ∀ v < h, t.dmem.readC64 (dst + 16 * ((u * h + v) * n + c)) =
        entry (fft2 w h ((List.range w).map fun x => (List.range h).map fun y =>
          j.snap.readC64 (src + 16 * ((x * h + y) * n + c)))) u v) ∧
      SameOutside s t dst (16 * (w * h) * n)

/-- R173, R176, R63: IFFT2 does the same with the inverse transform; `nan` is the choice of NaN bits (I11). -/
def Obligations.Ifft2TransformsEachChannel : Prop :=
  ∀ (s : State) (j : Job), s.engine = .busy j false → s.dmem.wf → Ready .ifft2 j.latched →
    let w := j.latched.width.toNat
    let h := j.latched.height.toNat
    let n := j.latched.nchan.toNat
    let src := j.latched.src.toNat
    let dst := j.latched.dst.toNat
    ∃ t, exec .ifft2 s = .next t ∧ Succeeded s t ∧ SameResult s t ∧
      (∀ c < n, ∃ nan : Nat → NanBits, ∀ u < w, ∀ v < h, t.dmem.readC64 (dst + 16 * ((u * h + v) * n + c)) =
        entry (ifft2 nan w h ((List.range w).map fun x => (List.range h).map fun y =>
          j.snap.readC64 (src + 16 * ((x * h + y) * n + c)))) u v) ∧
      SameOutside s t dst (16 * (w * h) * n)

/-! ### The functions the commands compute -/

/-- R141: range, period and bijection of the tiling function. -/
def Obligations.TileRangePeriodAndBijection : Prop :=
  ∀ l : Nat, 1 ≤ l →
    (∀ x y, tile x y l < l * l) ∧ (∀ x y, tile (x + l) y l = tile x y l ∧ tile x (y + l) l = tile x y l) ∧
    (∀ x < l, ∀ y < l, tile x y l = x * l + y) ∧
    ∀ k < l * l, ∃! p : Nat × Nat, p.1 < l ∧ p.2 < l ∧ tile p.1 p.2 l = k

/-- R151: LSB_EMBED keeps bits 7 to 1 of every sample, changes it by at most 1, gives the three channels of a pixel the
same bit 0, and, run again on what it left, changes nothing. -/
def Obligations.LsbEmbedPerturbsOnlyBitZeroAndIsIdempotent : Prop :=
  ∀ (g : Bool) (s t : State) (j : Job), s.engine = .busy j false → s.dmem.wf → j.snap = s.dmem →
    Ready (.lsbEmbed g) j.latched → exec (.lsbEmbed g) s = .next t →
    (∀ a, t.byte a >>> 1 = s.byte a >>> 1 ∧ (t.byte a).toNat ≤ (s.byte a).toNat + 1 ∧
      (s.byte a).toNat ≤ (t.byte a).toNat + 1) ∧
    (∀ k < j.latched.width.toNat * j.latched.height.toNat, ∀ c < 3,
      (t.byte (j.latched.dst.toNat + 3 * k + c)).getLsbD 0 = (t.byte (j.latched.dst.toNat + 3 * k)).getLsbD 0) ∧
    ∃ u, exec (.lsbEmbed g) { t with engine := .busy { j with snap := t.dmem } false } = .next u ∧
      ∀ a, u.byte a = t.byte a

/-- R152: LSB_EXTRACT of what LSB_EMBED wrote gives 0xFF where the tiled grid is true and 0x00 where it is false, and so
repeats the symbol with period L along both axes. -/
def Obligations.LsbBitPlaneRoundTrip : Prop :=
  ∀ (g : Bool) (grid : Nat → Bool) (s1 t1 s2 t2 : State) (j1 j2 : Job),
    s1.engine = .busy j1 false → s1.dmem.wf → Ready (.lsbEmbed g) j1.latched → gridSource g j1 = .ok grid →
    exec (.lsbEmbed g) s1 = .next t1 →
    s2.engine = .busy j2 false → s2.dmem.wf → Ready .lsbExtract j2.latched → j2.snap = t1.dmem →
    j2.latched.src = j1.latched.dst → j2.latched.width = j1.latched.width → j2.latched.height = j1.latched.height →
    exec .lsbExtract s2 = .next t2 →
    let w := j1.latched.width.toNat
    let h := j1.latched.height.toNat
    let l := if g then j1.latched.tileL.toNat else 177
    let y8 := fun x y => t2.byte (j2.latched.dst.toNat + (x * h + y))
    (∀ x < w, ∀ y < h, y8 x y = if grid (tile x y l) then 0xFF else 0x00) ∧
    (∀ x y, x + l < w → y < h → y8 (x + l) y = y8 x y) ∧
    ∀ x y, x < w → y + l < h → y8 x (y + l) = y8 x y

/-- R135: embedding a payload, and embedding with flag G the grid that QR_ENCODE wrote for it, have the same outcome, byte
for byte, for LSB_EMBED and for FFT_EMBED. (For FFT_EMBED it rests on the kernel's taking no NaN bits in, the model's
reading: log 11.) -/
def Obligations.PayloadAndGridFormsAgree : Prop :=
  ∀ (p g : Instr) (s0 t0 s1 s2 t1 t2 : State) (j0 j1 j2 : Job),
    (p = .lsbEmbed false ∧ g = .lsbEmbed true) ∨ (p = .fftEmbed false ∧ g = .fftEmbed true) →
    -- QR_ENCODE of the payload
    s0.engine = .busy j0 false → s0.dmem.wf → j0.snap = s0.dmem → Ready .qrEncode j0.latched →
    exec .qrEncode s0 = .next t0 →
    -- the payload form, on DMEM as QR_ENCODE found it
    s1.engine = .busy j1 false → s1.dmem = s0.dmem → j1.snap = s0.dmem → Ready p j1.latched →
    j1.latched.src = j0.latched.src → j1.latched.len = j0.latched.len →
    -- the grid form, on DMEM as QR_ENCODE left it
    s2.engine = .busy j2 false → s2.dmem = t0.dmem → j2.snap = t0.dmem → Ready g j2.latched →
    j2.latched.src = j0.latched.dst → j2.latched.tileL = 177 → j2.latched.dst = j1.latched.dst →
    j2.latched.width = j1.latched.width → j2.latched.height = j1.latched.height → s1.status = s2.status →
    exec p s1 = .next t1 → exec g s2 = .next t2 →
    t1.status = t2.status ∧
      ∀ a, inRegion (dstRegion p j1.latched) a = true → t1.byte a = t2.byte a

/-- R211: `fmax` is absent exactly where every element is NaN; otherwise it is the first, in index order, of the elements
equal to the largest that is not NaN. -/
def Obligations.FmaxIsTheFirstLargestElement : Prop :=
  ∀ a : List F64,
    (fmax a = none ↔ ∀ v ∈ a, F64.isNaN v = true) ∧
    ∀ m : F64, fmax a = some m ↔ ∃ k : Nat, a[k]? = some m ∧ F64.isNaN m = false ∧ (∀ v ∈ a, F64.gt v m = false) ∧
      ∀ i < k, ∀ v, a[i]? = some v → F64.isNaN v = true ∨ F64.gt m v = true

/-- R212: `fmax` by any partition, the lower-index part winning ties; and only zeros compare equal with other bits. -/
def Obligations.FmaxByAnyPartition : Prop :=
  (∀ parts : List (List F64), parts.foldl (fun acc part => fmaxJoin acc (fmax part)) none = fmax parts.flatten) ∧
  ∀ a b : F64, F64.isNaN a = false → F64.isNaN b = false → F64.gt a b = false → F64.gt b a = false →
    F64.isZero a = false → a = b

/-- R213, R214, R218, R219, R220: empty arrays, arrays of NaN only, and the other degenerate maxima of NORMALIZE, a zero or
an infinity. -/
def Obligations.EmptyAndDegenerateArrays : Prop :=
  (∀ (i : Instr) (s : State) (j : Job) (d : Bool), i = .max ∨ i = .normalize → s.engine = .busy j d →
    j.latched.len = 0 → ∃ t, exec i s = .next t ∧ FailedAs s t .dimensionMismatch) ∧
  (∀ (s : State) (j : Job) (d : Bool), s.engine = .busy j d → Ready .max j.latched →
    (∀ i < j.latched.len.toNat, F64.isNaN (j.snap.readF64 (j.latched.src.toNat + 8 * i)) = true) →
    ∃ t, exec .max s = .next t ∧ Succeeded s t ∧ t.result = 0x7FF8000000000000) ∧
  (∀ (s : State) (j : Job) (d : Bool), s.engine = .busy j d → Ready .max j.latched →
    (∃ i < j.latched.len.toNat, F64.isNaN (j.snap.readF64 (j.latched.src.toNat + 8 * i)) = false) →
    ∃ t, exec .max s = .next t ∧ F64.isNaN t.result = false) ∧
  (∀ (s : State) (j : Job), s.engine = .busy j false → Ready .normalize j.latched →
    (∀ i < j.latched.len.toNat, F64.isNaN (j.snap.readF64 (j.latched.dst.toNat + 8 * i)) = true) →
    ∃ t, exec .normalize s = .next t ∧ FailedAs s t .degenerateNormalization ∧ ∀ a, t.byte a = s.byte a) ∧
  ∀ (s : State) (j : Job) (m : F64), s.engine = .busy j false → Ready .normalize j.latched →
    fmax (j.f64Array j.latched.dst.toNat) = some m → F64.isZero m = true ∨ F64.isInf m = true →
    ∃ t, exec .normalize s = .next t ∧ FailedAs s t .degenerateNormalization ∧ t.status.errcode = 3 ∧
      ∀ a, t.byte a = s.byte a

/-- R216: with a positive finite maximum and a positive finite factor the new maximum is the factor, bit for bit; the
element that held the maximum becomes the factor for every factor that is not NaN. So the source's tolerance NORM_TOL
(R9, I12) is kept. -/
def Obligations.NormalizedMaximumIsTheFactor : Prop :=
  (∀ (n p : NanBits) (m f : F64), F64.isFinite m = true → F64.isZero m = false → F64.isNaN f = false →
    normElem n p m m f = f) ∧
  (∀ (nan : Nat → NanBits) (a : List F64) (m f : F64), fmax a = some m → F64.isFinite m = true →
    F64.gt m (F64.zero false) = true → F64.isFinite f = true → F64.gt f (F64.zero false) = true →
    fmax (Sys2Proof.Machine.norm nan a m f) = some f) ∧
  NormWithin Config.normTolDefault

/-- R217: the source's worked example, 1, 2, 4 with factor 255, step by step, and as NORMALIZE with LEN = 3. -/
def Obligations.NormalizeWorkedExample : Prop :=
  (fmax [0x3FF0000000000000, 0x4000000000000000, 0x4010000000000000] = some 0x4010000000000000 ∧
    ∀ n : NanBits,
      F64.div n 0x3FF0000000000000 0x4010000000000000 = 0x3FD0000000000000 ∧
      F64.mul n 0x3FD0000000000000 0x406FE00000000000 = 0x404FE00000000000 ∧
      F64.div n 0x4000000000000000 0x4010000000000000 = 0x3FE0000000000000 ∧
      F64.mul n 0x3FE0000000000000 0x406FE00000000000 = 0x405FE00000000000 ∧
      F64.div n 0x4010000000000000 0x4010000000000000 = 0x3FF0000000000000 ∧
      F64.mul n 0x3FF0000000000000 0x406FE00000000000 = 0x406FE00000000000) ∧
  ∀ (s : State) (j : Job), s.engine = .busy j false → s.dmem.wf → Ready .normalize j.latched → j.latched.len = 3 →
    j.latched.factor = 0x406FE00000000000 →
    let dst := j.latched.dst.toNat
    j.snap.readF64 dst = 0x3FF0000000000000 → j.snap.readF64 (dst + 8) = 0x4000000000000000 →
    j.snap.readF64 (dst + 16) = 0x4010000000000000 →
    ∃ t, exec .normalize s = .next t ∧ Succeeded s t ∧ t.dmem.readF64 dst = 0x404FE00000000000 ∧
      t.dmem.readF64 (dst + 8) = 0x405FE00000000000 ∧ t.dmem.readF64 (dst + 16) = 0x406FE00000000000

/-- R172, R173: the 2D transforms are two passes of the kernel's 1D transform, axis 1 first; the inverse then divides
both components by W*H. -/
def Obligations.TransformsAreTwoPassesAxisOneFirst : Prop :=
  ∀ (nan : Nat → NanBits) (w h : Nat) (a : Nat → Nat → C64), ∀ u < w, ∀ v < h,
    let rows := (List.range w).map fun x => (List.range h).map fun y => a x y
    let pass1 := fun sign x y => (Num.dft1 sign ((List.range h).map fun y => a x y)).getD y default
    let pass2 := fun sign x y => (Num.dft1 sign ((List.range w).map fun x => pass1 sign x y)).getD x default
    entry (fft2 w h rows) u v = pass2 .minus u v ∧
    ∃ n p : NanBits, entry (ifft2 nan w h rows) u v =
      { re := F64.div n (pass2 .plus u v).re (F64.ofNat (w * h)), im := F64.div p (pass2 .plus u v).im (F64.ofNat (w * h)) }

/-- R170 N2, N3 and D27 (arg of -0 and +0, log 10): what the spec fixes of the numeric kernel; the rest of Num is free
(log 9). That NaN passes through the 1D transform in every element (log 11), and that an infinite component of `abs` gives
+inf beside any other (log 23), are the model's readings. -/
def Obligations.KernelSpecialValues : Prop :=
  (∀ sign z, Num.dft1 sign [z] = [z]) ∧
  (∀ sign (y z : C64), ∃ n0 n1 n2 n3 : NanBits, Num.dft1 sign [y, z] =
    [{ re := F64.add n0 y.re z.re, im := F64.add n1 y.im z.im }, { re := F64.sub n2 y.re z.re, im := F64.sub n3 y.im z.im }]) ∧
  (∀ v z : F64, F64.isNaN v = false → F64.isZero z = true → Num.abs v z = F64.mag v ∧ Num.abs z v = F64.mag v) ∧
  (∀ v : F64, F64.gt v (F64.zero false) = true ∨ F64.isZero v = true → Num.arg v (F64.zero false) = F64.zero false) ∧
  (∀ z : F64, F64.isZero z = true → Num.log10 z = F64.inf true ∧ Num.cos z = F64.one) ∧
  Num.log10 F64.one = F64.zero false ∧ Num.pow10 (F64.inf true) = F64.zero false ∧
  Num.pow10 (F64.zero false) = F64.one ∧ Num.sin (F64.zero false) = F64.zero false ∧
  (∀ v : F64, F64.isNaN v = true → F64.isNaN (Num.log10 v) = true ∧ F64.isNaN (Num.pow10 v) = true ∧
    F64.isNaN (Num.cos v) = true ∧ F64.isNaN (Num.sin v) = true) ∧
  (∀ v z : F64, F64.isNaN v = true → F64.isNaN (Num.arg v z) = true ∧ F64.isNaN (Num.arg z v) = true ∧
    (F64.isInf z = false → F64.isNaN (Num.abs v z) = true ∧ F64.isNaN (Num.abs z v) = true)) ∧
  (∀ v z : F64, F64.isInf v = true → Num.abs v z = F64.inf false ∧ Num.abs z v = F64.inf false) ∧
  ∀ sign (v : List C64), (∃ z ∈ v, C64.hasNaN z = true) → ∀ z ∈ Num.dft1 sign v, C64.hasNaN z = true

/-- R174, R176: their corner case and their examples. A 1 x 1 transform is the identity on every element that is not NaN,
and the 2 x 2 example goes to and fro. -/
def Obligations.SmallTransformExamples : Prop :=
  (∀ z : C64, fft2 1 1 [[z]] = [[z]]) ∧
  (∀ (nan : Nat → NanBits) (z : C64), C64.hasNaN z = false → ifft2 nan 1 1 [[z]] = [[z]]) ∧
  let real := fun v : F64 => ({ re := v, im := F64.zero false } : C64)
  let a := [[real 0x3FF0000000000000, real 0x4000000000000000], [real 0x4008000000000000, real 0x4010000000000000]]
  let s := [[real 0x4024000000000000, real 0xC000000000000000], [real 0xC010000000000000, real 0x0000000000000000]]
  fft2 2 2 a = s ∧ ∀ nan : Nat → NanBits, ifft2 nan 2 2 s = a

/-- R177: for W and H in 1, 2 and integers below 2^40, of either sign, the round trip is exact; and for every legal shape FFT2
followed by IFFT2, as commands on one DMEM, brings a finite real channel back within FFT_TOL of it, relative to its largest
magnitude, wherever what comes back is finite, and it is finite where the exact transforms do not overflow. The bound 2^40 is
chosen here for the rule's small integers; that an overflow is excepted is the model's reading of N4 (log 28). -/
def Obligations.SmallIntegerTransformsRoundTrip : Prop :=
  (∀ (nan : Nat → NanBits) (w h : Nat) (a : Nat → Nat → ℤ), (w = 1 ∨ w = 2) → (h = 1 ∨ h = 2) →
    (∀ x y, |a x y| < 2 ^ 40) → ∀ x < w, ∀ y < h,
      roundTrip nan w h (fun x y => f64OfInt (a x y)) x y = f64OfInt (a x y)) ∧
  ∀ (c : Nat) (s1 t1 s2 t2 : State) (j1 j2 : Job),
    s1.engine = .busy j1 false → s1.dmem.wf → Ready .fft2 j1.latched → exec .fft2 s1 = .next t1 →
    s2.engine = .busy j2 false → s2.dmem.wf → Ready .ifft2 j2.latched → j2.snap = t1.dmem →
    j2.latched.src = j1.latched.dst → j2.latched.width = j1.latched.width → j2.latched.height = j1.latched.height →
    j2.latched.nchan = j1.latched.nchan → exec .ifft2 s2 = .next t2 →
    let w := j1.latched.width.toNat
    let h := j1.latched.height.toNat
    let n := j1.latched.nchan.toNat
    let element := fun (m : Memory) (base x y : Nat) => m.readC64 (base + 16 * ((x * h + y) * n + c))
    let a := fun x y => (element j1.snap j1.latched.src.toNat x y).re
    c < n → (∀ x < w, ∀ y < h, (element j1.snap j1.latched.src.toNat x y).im = F64.zero false) →
    (∀ x < w, ∀ y < h, F64.isFinite (a x y) = true) →
    ∀ x < w, ∀ y < h,
      let r := (element t2.dmem j2.latched.dst.toNat x y).re
      (RoundTripHasRoom w h a → F64.isFinite r = true) ∧
      (F64.isFinite r = true → ∃ x0 < w, ∃ y0 < h,
        |F64.toRat r - F64.toRat (a x y)| ≤ Config.fftTol * |F64.toRat (a x0 y0)|)

/-- R14: the four operations on finite values round the exact result to nearest, ties to even. (Where the range ends is
IEEE 754's: log 20.) -/
def Obligations.ArithmeticRoundsToNearestEven : Prop :=
  ∀ (n : NanBits) (a b : F64), F64.isFinite a = true → F64.isFinite b = true →
    NearestEven (F64.add n a b) (F64.toRat a + F64.toRat b) ∧ NearestEven (F64.sub n a b) (F64.toRat a - F64.toRat b) ∧
    NearestEven (F64.mul n a b) (F64.toRat a * F64.toRat b) ∧
    (F64.isZero b = false → NearestEven (F64.div n a b) (F64.toRat a / F64.toRat b))

/-- R194: `to_u8` is the clamp to 0 to 255 of rounding to nearest with ties away from zero; NaN and -inf give 0, +inf
gives 255. The eight steps end in a byte for every sample, one of them 255, or in DegenerateNormalization (R192). -/
def Obligations.EmbeddedSamplesAreRoundedAndOneIsWhite : Prop :=
  (∀ v : F64,
    (F64.isFinite v = true → ((F64.toU8 v).toNat : ℤ) = max 0 (min 255 (roundAway (F64.toRat v)))) ∧
    (F64.isNaN v = true → F64.toU8 v = 0) ∧
    (F64.isInf v = true → F64.toU8 v = if F64.sign v then 0 else 255)) ∧
  ∀ (nan : Nat → Nat → NanBits) (grid : Nat → Bool) (w h l : Nat) (pixels : List Byte),
    match embedPixels nan grid w h l pixels with
    | .ok out => out.length = w * h * 3 ∧ (255 : Byte) ∈ out
    | .error e => e = .degenerateNormalization

/-- I11, R194: the free bits of NaN values never reach FFT_EMBED's outcome: every choice of them gives the same bytes, or
the same error. It rests on the model's reading that the kernel sees every NaN as one quiet NaN (log 11). -/
def Obligations.NanBitsNeverReachTheEmbeddedSamples : Prop :=
  ∀ (nan1 nan2 : Nat → Nat → NanBits) (grid : Nat → Bool) (w h l : Nat) (pixels : List Byte),
    embedPixels nan1 grid w h l pixels = embedPixels nan2 grid w h l pixels

end
end

