-- ==== Sys2Proof/Laws/Config.lean ====
section
/-! SUPPORT. What holds of the free parameters whatever their values: the range of DMEM_BYTES and the place of the two
windows (spec 00_scope.md R9, 20_memory.md R68). -/

namespace Sys2Proof.Config

theorem dmemBytes_ge : 65536 ≤ dmemBytes := by unfold dmemBytes; omega

theorem dmemBytes_le : dmemBytes ≤ 2 ^ 31 := by unfold dmemBytes; omega

theorem dmemBytes_mod : dmemBytes % 8 = 0 := by unfold dmemBytes; omega

/-- The default of R9 is among the capacities the model allows (log 7). -/
theorem qrCapacityDefault_le : qrCapacityDefault ≤ 3916 := by decide

theorem qrCapacity_le : qrCapacity ≤ 3916 := by unfold qrCapacity; omega

theorem csrBytes_eq : csrBytes = 4096 := rfl

/-- The two windows do not overlap (R68). -/
theorem windows_apart : csrBase + csrBytes ≤ dmemBase ∨ dmemBase + dmemBytes ≤ csrBase := by
  unfold csrBase dmemBase
  cases csrFirst
  · right; simp
  · left; simp

end Sys2Proof.Config
end

