-- ==== Sys2Proof/Laws/Memory.lean ====
section
/-! SUPPORT. The laws of DMEM: a read after a write, the canonical form and the range kept, blocks of bytes, free bytes, and
little-endian numbers (spec 20_memory.md R60). -/

namespace Sys2Proof.Machine

/-! ### One cell -/

theorem setCell_mem {keep : Bool} {a : Nat} {b : Byte} {l : List Host.Cell} {c : Host.Cell}
    (h : c ∈ setCell keep a b l) : (c = (a, b) ∧ keep = true) ∨ c ∈ l := by
  induction l with
  | nil => cases keep <;> simp_all [setCell]
  | cons d l ih =>
    unfold setCell at h
    cases keep <;> split_ifs at h <;> simp_all <;> grind

theorem setCell_rising {keep : Bool} {a : Nat} {b : Byte} {l : List Host.Cell}
    (h : l.Pairwise fun c d => c.1 < d.1) : (setCell keep a b l).Pairwise fun c d => c.1 < d.1 := by
  induction l with
  | nil => cases keep <;> simp [setCell]
  | cons d l ih =>
    rw [List.pairwise_cons] at h
    obtain ⟨hd, hl⟩ := h
    unfold setCell
    by_cases h1 : a < d.1
    · have tail : ∀ c ∈ d :: l, a < c.1 := by
        rintro c hc
        rcases List.mem_cons.1 hc with rfl | hc
        · exact h1
        · exact Nat.lt_trans h1 (hd c hc)
      cases keep
      · rw [if_pos h1]; exact List.Pairwise.cons hd hl
      · rw [if_pos h1, if_pos rfl]
        exact List.Pairwise.cons tail (List.Pairwise.cons hd hl)
    · by_cases h2 : a = d.1
      · cases keep
        · simpa [h1, h2] using hl
        · rw [if_neg h1, if_pos h2, if_pos rfl]
          exact List.Pairwise.cons (fun c hc => h2 ▸ hd c hc) hl
      · rw [if_neg h1, if_neg h2]
        refine List.Pairwise.cons (fun c hc => ?_) (ih hl)
        rcases setCell_mem hc with ⟨rfl, _⟩ | hc
        · show d.1 < a
          omega
        · exact hd c hc

theorem findCell_none_of_lt {a : Nat} {l : List Host.Cell} (h : ∀ c ∈ l, a < c.1) : findCell a l = none := by
  cases l with
  | nil => rfl
  | cons c l =>
    have := h c (by simp)
    simp [findCell, this, Nat.ne_of_lt this]

theorem findCell_setCell {keep : Bool} {a x : Nat} {b : Byte} {l : List Host.Cell}
    (h : l.Pairwise fun c d => c.1 < d.1) :
    findCell x (setCell keep a b l) = if x = a then (if keep then some b else none) else findCell x l := by
  induction l with
  | nil => cases keep <;> simp [setCell, findCell]
  | cons d l ih =>
    rw [List.pairwise_cons] at h
    obtain ⟨hd, hl⟩ := h
    unfold setCell
    by_cases h1 : a < d.1
    · cases keep
      · by_cases hx : x = a
        · subst hx; simp [h1, findCell, Nat.ne_of_lt h1]
        · simp [h1, hx]
      · by_cases hx : x = a
        · simp [h1, hx, findCell]
        · simp only [h1, if_true, findCell, hx, if_false]
          by_cases hxa : x < a
          · simp [hxa, Nat.lt_trans hxa h1, Nat.ne_of_lt (Nat.lt_trans hxa h1)]
          · simp [hxa]
    · by_cases h2 : a = d.1
      · by_cases hx : x = a
        · cases keep
          · have hnone : findCell x l = none := findCell_none_of_lt fun c hc => by have := hd c hc; omega
            simp [h2, h2 ▸ hx, h2 ▸ hx ▸ hnone]
          · subst hx; simp [← h2, findCell]
        · have hne : x ≠ d.1 := h2 ▸ hx
          have tail : (if x < d.1 then none else findCell x l) = findCell x l := by
            split_ifs with hlt
            · exact (findCell_none_of_lt fun c hc => Nat.lt_trans hlt (hd c hc)).symm
            · rfl
          cases keep <;> simp [h2, hne, findCell, tail]
      · have hlt : d.1 < a := by omega
        simp only [h1, h2, if_false, findCell, ih hl]
        by_cases hx : x = a
        · subst hx; simp [h1, h2]
        · simp [hx]

/-! ### One byte -/

@[simp] theorem writeByte_cycle (m : Memory) (a : Nat) (b : Byte) : (m.writeByte a b).cycle = m.cycle := rfl

theorem unwritten_congr {m n : Memory} (h : m.cycle = n.cycle) (a : Nat) : m.unwritten a = n.unwritten a := by
  simp [Memory.unwritten, h]

/-- A read after a write gives the byte written at its address and what was there elsewhere. -/
theorem readByte_writeByte {m : Memory} (h : m.wf) (a x : Nat) (b : Byte) :
    (m.writeByte a b).readByte x = if x = a then b else m.readByte x := by
  unfold Memory.readByte Memory.writeByte
  simp only [findCell_setCell h.1]
  by_cases hx : x = a
  · subst hx
    by_cases hb : b = m.unwritten x
    · subst hb
      simp [Memory.unwritten]
    · simp [hb]
  · simp [hx, Memory.unwritten]

/-- A write keeps the canonical form. -/
theorem writeByte_wf {m : Memory} (h : m.wf) (a : Nat) (b : Byte) : (m.writeByte a b).wf := by
  refine ⟨setCell_rising h.1, fun c hc => ?_⟩
  rcases setCell_mem hc with ⟨rfl, hk⟩ | hc
  · simpa [Memory.unwritten] using hk
  · exact h.2 c hc

/-- A write inside DMEM keeps every listed address inside DMEM. -/
theorem writeByte_inRange {m : Memory} (h : m.inRange) {a : Nat} (ha : a < Config.dmemBytes) (b : Byte) :
    (m.writeByte a b).inRange := by
  intro c hc
  rcases setCell_mem hc with ⟨rfl, _⟩ | hc
  · exact ha
  · exact h c hc

/-! ### Lists of cells -/

@[simp] theorem writeCells_nil (m : Memory) : m.writeCells [] = m := rfl

@[simp] theorem writeCells_cons (m : Memory) (c : Host.Cell) (l : List Host.Cell) :
    m.writeCells (c :: l) = (m.writeByte c.1 c.2).writeCells l := rfl

@[simp] theorem writeCells_cycle (m : Memory) (l : List Host.Cell) : (m.writeCells l).cycle = m.cycle := by
  induction l generalizing m with
  | nil => rfl
  | cons c l ih => simp [ih]

theorem writeCells_wf {m : Memory} (h : m.wf) (l : List Host.Cell) : (m.writeCells l).wf := by
  induction l generalizing m with
  | nil => exact h
  | cons c l ih => exact ih (writeByte_wf h _ _)

theorem writeCells_inRange {m : Memory} (h : m.inRange) {l : List Host.Cell}
    (hl : ∀ c ∈ l, c.1 < Config.dmemBytes) : (m.writeCells l).inRange := by
  induction l generalizing m with
  | nil => exact h
  | cons c l ih =>
    exact ih (writeByte_inRange h (hl c (by simp)) _) fun d hd => hl d (List.mem_cons_of_mem _ hd)

/-- Writing cells leaves every other byte alone. -/
theorem readByte_writeCells_other {m : Memory} (h : m.wf) {l : List Host.Cell} {x : Nat}
    (hx : ∀ c ∈ l, c.1 ≠ x) : (m.writeCells l).readByte x = m.readByte x := by
  induction l generalizing m with
  | nil => rfl
  | cons c l ih =>
    rw [writeCells_cons, ih (writeByte_wf h _ _) fun d hd => hx d (List.mem_cons_of_mem _ hd),
      readByte_writeByte h, if_neg fun he => hx c (by simp) he.symm]

/-! ### A block of bytes -/

theorem cellsAt_eq (base : Nat) (bytes : List Byte) :
    cellsAt base bytes = (bytes.zipIdx base).map fun p => (p.2, p.1) := by
  unfold cellsAt
  rw [List.zipIdx_eq_map_add (i := base), List.map_map]
  simp [Function.comp_def]

theorem cellsAt_nil (base : Nat) : cellsAt base [] = [] := rfl

theorem cellsAt_cons (base : Nat) (b : Byte) (bytes : List Byte) :
    cellsAt base (b :: bytes) = (base, b) :: cellsAt (base + 1) bytes := by
  simp [cellsAt_eq]

theorem cellsAt_mem {base : Nat} {bytes : List Byte} {c : Host.Cell} (h : c ∈ cellsAt base bytes) :
    base ≤ c.1 ∧ c.1 < base + bytes.length := by
  induction bytes generalizing base with
  | nil => simp [cellsAt_nil] at h
  | cons b bytes ih =>
    rw [cellsAt_cons, List.mem_cons] at h
    rcases h with rfl | h
    · simp
    · have := ih h
      simp only [List.length_cons]
      omega

/-- What a block of bytes leaves: its bytes in their places, every other byte as before. -/
theorem readByte_writeBlock {m : Memory} (h : m.wf) (base : Nat) (bytes : List Byte) (x : Nat) :
    (m.writeCells (cellsAt base bytes)).readByte x =
      if base ≤ x ∧ x < base + bytes.length then bytes.getD (x - base) 0 else m.readByte x := by
  induction bytes generalizing base m with
  | nil => rw [cellsAt_nil, writeCells_nil, if_neg]; simp
  | cons b bytes ih =>
    rw [cellsAt_cons, writeCells_cons, ih (writeByte_wf h _ _), readByte_writeByte h]
    simp only [List.length_cons]
    by_cases hx : x = base
    · subst hx
      simp
    · by_cases hr : base + 1 ≤ x ∧ x < base + 1 + bytes.length
      · rw [if_pos hr, if_pos (by omega)]
        have : x - base = (x - (base + 1)) + 1 := by omega
        rw [this, List.getD_cons_succ]
      · rw [if_neg hr, if_neg hx, if_neg (by omega)]

/-! ### Free bytes -/

theorem drawnCells_addr {n : Nat} {addrs : List Nat} {c : Host.Cell} (h : c ∈ drawnCells n addrs) : c.1 ∈ addrs := by
  unfold drawnCells at h
  rw [List.mem_map] at h
  obtain ⟨p, hp, rfl⟩ := h
  exact List.fst_mem_of_mem_zipIdx hp

/-! ### Little-endian numbers -/

@[simp] theorem leBytes_length (n v : Nat) : (leBytes n v).length = n := by
  induction n generalizing v with
  | zero => rfl
  | succ n ih => simp [leBytes, ih]

/-- A read of `n` bytes where a block holds the bytes of `v` gives `v`, reduced to `n` bytes. -/
theorem readLE_of_leBytes {m : Memory} {a n v : Nat}
    (h : ∀ i < n, m.readByte (a + i) = (leBytes n v).getD i 0) : m.readLE a n = v % 256 ^ n := by
  induction n generalizing a v with
  | zero => simp [Memory.readLE, Nat.mod_one]
  | succ n ih =>
    have h0 : m.readByte a = BitVec.ofNat 8 v := by simpa [leBytes] using h 0 (by omega)
    have ht := @ih (a + 1) (v / 256) fun i hi => by
      have := h (i + 1) (by omega)
      simpa [leBytes, Nat.add_assoc, Nat.add_comm 1 i] using this
    have hp : 256 ^ (n + 1) = 256 * 256 ^ n := Nat.pow_succ'
    rw [Memory.readLE, ht, h0, BitVec.toNat_ofNat, hp, Nat.mod_mul]

end Sys2Proof.Machine
end

