-- ==== Sys2Proof/Laws/State.lean ====
section
/-! SUPPORT. What each named update of State does to each field, one lemma a field, so that no proof unfolds a record
update. -/

namespace Sys2Proof.Machine

/-! ### accept -/

@[simp] theorem accept_irqEn (s : State) (w : Word) : (s.accept w).irqEn = s.irqEn := rfl

@[simp] theorem accept_status (s : State) (w : Word) : (s.accept w).status = s.status.accepted := rfl

@[simp] theorem accept_cmd (s : State) (w : Word) : (s.accept w).cmd = w := rfl

@[simp] theorem accept_ops (s : State) (w : Word) : (s.accept w).ops = s.ops := rfl

@[simp] theorem accept_resultLo (s : State) (w : Word) : (s.accept w).resultLo = s.resultLo := rfl

@[simp] theorem accept_resultHi (s : State) (w : Word) : (s.accept w).resultHi = s.resultHi := rfl

@[simp] theorem accept_engine (s : State) (w : Word) :
    (s.accept w).engine = .busy { word := w, latched := s.ops, snap := s.dmem } false := rfl

@[simp] theorem accept_dmem (s : State) (w : Word) : (s.accept w).dmem = s.dmem := rfl

@[simp] theorem accept_events (s : State) (w : Word) : (s.accept w).events = s.events := rfl

@[simp] theorem accept_readData (s : State) (w : Word) : (s.accept w).readData = s.readData := rfl

@[simp] theorem accept_draws (s : State) (w : Word) : (s.accept w).draws = s.draws := rfl

/-! ### putResult -/

@[simp] theorem putResult_irqEn (s : State) (r : Option (BitVec 64)) : (s.putResult r).irqEn = s.irqEn := by cases r <;> rfl

@[simp] theorem putResult_status (s : State) (r : Option (BitVec 64)) :
    (s.putResult r).status = s.status := by cases r <;> rfl

@[simp] theorem putResult_cmd (s : State) (r : Option (BitVec 64)) : (s.putResult r).cmd = s.cmd := by cases r <;> rfl

@[simp] theorem putResult_ops (s : State) (r : Option (BitVec 64)) : (s.putResult r).ops = s.ops := by cases r <;> rfl

@[simp] theorem putResult_resultLo (s : State) (r : Option (BitVec 64)) :
    (s.putResult r).resultLo = (r.map fun v => v.extractLsb' 0 32).getD s.resultLo := by cases r <;> rfl

@[simp] theorem putResult_resultHi (s : State) (r : Option (BitVec 64)) :
    (s.putResult r).resultHi = (r.map fun v => v.extractLsb' 32 32).getD s.resultHi := by cases r <;> rfl

@[simp] theorem putResult_engine (s : State) (r : Option (BitVec 64)) :
    (s.putResult r).engine = s.engine := by cases r <;> rfl

@[simp] theorem putResult_dmem (s : State) (r : Option (BitVec 64)) : (s.putResult r).dmem = s.dmem := by cases r <;> rfl

@[simp] theorem putResult_events (s : State) (r : Option (BitVec 64)) :
    (s.putResult r).events = s.events := by cases r <;> rfl

@[simp] theorem putResult_readData (s : State) (r : Option (BitVec 64)) :
    (s.putResult r).readData = s.readData := by cases r <;> rfl

@[simp] theorem putResult_draws (s : State) (r : Option (BitVec 64)) : (s.putResult r).draws = s.draws := by cases r <;> rfl

/-! ### failWith -/

@[simp] theorem failWith_irqEn (s : State) (e : CmdError) : (s.failWith e).irqEn = s.irqEn := rfl

@[simp] theorem failWith_status (s : State) (e : CmdError) : (s.failWith e).status = s.status.failed e := rfl

@[simp] theorem failWith_cmd (s : State) (e : CmdError) : (s.failWith e).cmd = s.cmd := rfl

@[simp] theorem failWith_ops (s : State) (e : CmdError) : (s.failWith e).ops = s.ops := rfl

@[simp] theorem failWith_resultLo (s : State) (e : CmdError) : (s.failWith e).resultLo = s.resultLo := rfl

@[simp] theorem failWith_resultHi (s : State) (e : CmdError) : (s.failWith e).resultHi = s.resultHi := rfl

@[simp] theorem failWith_engine (s : State) (e : CmdError) : (s.failWith e).engine = .idle := rfl

@[simp] theorem failWith_dmem (s : State) (e : CmdError) : (s.failWith e).dmem = s.dmem := rfl

@[simp] theorem failWith_events (s : State) (e : CmdError) : (s.failWith e).events = s.events := rfl

@[simp] theorem failWith_readData (s : State) (e : CmdError) : (s.failWith e).readData = s.readData := rfl

@[simp] theorem failWith_draws (s : State) (e : CmdError) : (s.failWith e).draws = s.draws := rfl

/-! ### drawBytes -/

@[simp] theorem drawBytes_irqEn (s : State) (l : List Nat) : (s.drawBytes l).irqEn = s.irqEn := rfl

@[simp] theorem drawBytes_status (s : State) (l : List Nat) : (s.drawBytes l).status = s.status := rfl

@[simp] theorem drawBytes_cmd (s : State) (l : List Nat) : (s.drawBytes l).cmd = s.cmd := rfl

@[simp] theorem drawBytes_ops (s : State) (l : List Nat) : (s.drawBytes l).ops = s.ops := rfl

@[simp] theorem drawBytes_resultLo (s : State) (l : List Nat) : (s.drawBytes l).resultLo = s.resultLo := rfl

@[simp] theorem drawBytes_resultHi (s : State) (l : List Nat) : (s.drawBytes l).resultHi = s.resultHi := rfl

@[simp] theorem drawBytes_engine (s : State) (l : List Nat) : (s.drawBytes l).engine = s.engine := rfl

@[simp] theorem drawBytes_dmem (s : State) (l : List Nat) :
    (s.drawBytes l).dmem = s.dmem.writeCells (drawnCells s.draws l) := rfl

@[simp] theorem drawBytes_events (s : State) (l : List Nat) : (s.drawBytes l).events = s.events := rfl

@[simp] theorem drawBytes_readData (s : State) (l : List Nat) : (s.drawBytes l).readData = s.readData := rfl

@[simp] theorem drawBytes_draws (s : State) (l : List Nat) : (s.drawBytes l).draws = s.draws + l.length := rfl

/-! ### succeed -/

@[simp] theorem succeed_irqEn (s : State) (e : Effect) : (s.succeed e).irqEn = s.irqEn := by simp [State.succeed]

@[simp] theorem succeed_status (s : State) (e : Effect) : (s.succeed e).status = s.status.succeeded := by simp [State.succeed]

@[simp] theorem succeed_cmd (s : State) (e : Effect) : (s.succeed e).cmd = s.cmd := by simp [State.succeed]

@[simp] theorem succeed_ops (s : State) (e : Effect) : (s.succeed e).ops = s.ops := by simp [State.succeed]

@[simp] theorem succeed_resultLo (s : State) (e : Effect) :
    (s.succeed e).resultLo = (e.result.map fun v => v.extractLsb' 0 32).getD s.resultLo := by simp [State.succeed]

@[simp] theorem succeed_resultHi (s : State) (e : Effect) :
    (s.succeed e).resultHi = (e.result.map fun v => v.extractLsb' 32 32).getD s.resultHi := by simp [State.succeed]

@[simp] theorem succeed_engine (s : State) (e : Effect) : (s.succeed e).engine = .idle := by simp [State.succeed]

@[simp] theorem succeed_dmem (s : State) (e : Effect) : (s.succeed e).dmem = s.dmem.writeCells e.writes := by simp [State.succeed]

@[simp] theorem succeed_events (s : State) (e : Effect) : (s.succeed e).events = s.events := by simp [State.succeed]

@[simp] theorem succeed_readData (s : State) (e : Effect) : (s.succeed e).readData = s.readData := by simp [State.succeed]

@[simp] theorem succeed_draws (s : State) (e : Effect) : (s.succeed e).draws = s.draws := by simp [State.succeed]

/-! ### resetRegisters -/

@[simp] theorem resetRegisters_irqEn (s : State) : (s.resetRegisters).irqEn = false := rfl

@[simp] theorem resetRegisters_status (s : State) : (s.resetRegisters).status = Status.reset := rfl

@[simp] theorem resetRegisters_cmd (s : State) : (s.resetRegisters).cmd = 0 := rfl

@[simp] theorem resetRegisters_ops (s : State) : (s.resetRegisters).ops = Operands.reset := rfl

@[simp] theorem resetRegisters_resultLo (s : State) : (s.resetRegisters).resultLo = 0 := rfl

@[simp] theorem resetRegisters_resultHi (s : State) : (s.resetRegisters).resultHi = 0 := rfl

@[simp] theorem resetRegisters_engine (s : State) : (s.resetRegisters).engine = .idle := rfl

@[simp] theorem resetRegisters_dmem (s : State) : (s.resetRegisters).dmem = s.dmem := rfl

@[simp] theorem resetRegisters_events (s : State) : (s.resetRegisters).events = s.events := rfl

@[simp] theorem resetRegisters_readData (s : State) : (s.resetRegisters).readData = s.readData := rfl

@[simp] theorem resetRegisters_draws (s : State) : (s.resetRegisters).draws = s.draws := rfl

/-! ### powerOnReset -/

@[simp] theorem powerOnReset_irqEn (s : State) : (s.powerOnReset).irqEn = false := rfl

@[simp] theorem powerOnReset_status (s : State) : (s.powerOnReset).status = Status.reset := rfl

@[simp] theorem powerOnReset_cmd (s : State) : (s.powerOnReset).cmd = 0 := rfl

@[simp] theorem powerOnReset_ops (s : State) : (s.powerOnReset).ops = Operands.reset := rfl

@[simp] theorem powerOnReset_resultLo (s : State) : (s.powerOnReset).resultLo = 0 := rfl

@[simp] theorem powerOnReset_resultHi (s : State) : (s.powerOnReset).resultHi = 0 := rfl

@[simp] theorem powerOnReset_engine (s : State) : (s.powerOnReset).engine = .idle := rfl

@[simp] theorem powerOnReset_dmem (s : State) :
    (s.powerOnReset).dmem = { cycle := s.dmem.cycle + 1, cells := [] } := rfl

@[simp] theorem powerOnReset_events (s : State) : (s.powerOnReset).events = s.events := rfl

@[simp] theorem powerOnReset_readData (s : State) : (s.powerOnReset).readData = s.readData := rfl

@[simp] theorem powerOnReset_draws (s : State) : (s.powerOnReset).draws = s.draws := rfl

/-! ### withFetchWord -/

@[simp] theorem withFetchWord_cmd (s : State) (n w : Nat) :
    (s.withFetchWord n w).cmd = BitVec.ofNat 32 (w % 2 ^ n) := rfl

@[simp] theorem withFetchWord_ops (s : State) (n w : Nat) : (s.withFetchWord n w).ops = s.ops := rfl

@[simp] theorem withFetchWord_dmem (s : State) (n w : Nat) : (s.withFetchWord n w).dmem = s.dmem := rfl

@[simp] theorem withFetchWord_events (s : State) (n w : Nat) :
    (s.withFetchWord n w).events = .engine :: s.events := rfl

@[simp] theorem withFetchWord_engine (s : State) (n w : Nat) :
    (s.withFetchWord n w).engine = .busy { word := BitVec.ofNat 32 (w % 2 ^ n), latched := s.ops, snap := s.dmem } false := rfl

/-! ### STATUS -/

@[simp] theorem accepted_busy (t : Status) : (t.accepted).busy = true := rfl

@[simp] theorem accepted_done (t : Status) : (t.accepted).done = false := rfl

@[simp] theorem accepted_err (t : Status) : (t.accepted).err = false := rfl

@[simp] theorem accepted_errcode (t : Status) : (t.accepted).errcode = 0 := rfl

@[simp] theorem accepted_ovr (t : Status) : (t.accepted).ovr = t.ovr := rfl

@[simp] theorem succeeded_busy (t : Status) : (t.succeeded).busy = false := rfl

@[simp] theorem succeeded_done (t : Status) : (t.succeeded).done = true := rfl

@[simp] theorem succeeded_err (t : Status) : (t.succeeded).err = t.err := rfl

@[simp] theorem succeeded_errcode (t : Status) : (t.succeeded).errcode = t.errcode := rfl

@[simp] theorem succeeded_ovr (t : Status) : (t.succeeded).ovr = t.ovr := rfl

@[simp] theorem failed_busy (t : Status) (e : CmdError) : (t.failed e).busy = false := rfl

@[simp] theorem failed_done (t : Status) (e : CmdError) : (t.failed e).done = t.done := rfl

@[simp] theorem failed_err (t : Status) (e : CmdError) : (t.failed e).err = true := rfl

@[simp] theorem failed_errcode (t : Status) (e : CmdError) : (t.failed e).errcode = e.code := rfl

@[simp] theorem failed_ovr (t : Status) (e : CmdError) : (t.failed e).ovr = t.ovr := rfl

@[simp] theorem overrun_busy (t : Status) : (t.overrun).busy = t.busy := rfl

@[simp] theorem overrun_done (t : Status) : (t.overrun).done = t.done := rfl

@[simp] theorem overrun_err (t : Status) : (t.overrun).err = t.err := rfl

@[simp] theorem overrun_errcode (t : Status) : (t.overrun).errcode = t.errcode := rfl

@[simp] theorem overrun_ovr (t : Status) : (t.overrun).ovr = true := rfl

@[simp] theorem w1c_busy (t : Status) (v : Word) : (t.w1c v).busy = t.busy := rfl

@[simp] theorem w1c_done (t : Status) (v : Word) : (t.w1c v).done = (t.done && !v.getLsbD 1) := rfl

@[simp] theorem w1c_err (t : Status) (v : Word) : (t.w1c v).err = (t.err && !v.getLsbD 2) := rfl

@[simp] theorem w1c_errcode (t : Status) (v : Word) : (t.w1c v).errcode = t.errcode := rfl

@[simp] theorem w1c_ovr (t : Status) (v : Word) : (t.w1c v).ovr = (t.ovr && !v.getLsbD 8) := rfl

end Sys2Proof.Machine
end

