-- ==== Sys2Proof/Laws/Command.lean ====
section
/-! SUPPORT. What a command can do, once for all commands: the checks it passed, where its writes go, and what its
completion leaves of the state (spec 40_command_control.md R112, R113; 20_memory.md R67). -/

namespace Sys2Proof.Machine

/-- Every arm of `exec` runs the command's `outOf`. -/
theorem exec_eq_runCommand (i : Instr) (s : State) : exec i s = s.runCommand i (outOf i) := by
  cases i <;> rfl

theorem runCommand_busy {s : State} {j : Job} {d : Bool} (h : s.engine = .busy j d) (i : Instr) (f : Job → CmdOut) :
    s.runCommand i f = .next (s.complete i j d (f j)) := by
  simp [State.runCommand, h]

theorem exec_busy {s : State} {j : Job} {d : Bool} (h : s.engine = .busy j d) (i : Instr) :
    exec i s = .next (s.complete i j d (outOf i j)) := by
  rw [exec_eq_runCommand, runCommand_busy h]

/-- If `exec` answers a next state, the engine was Busy and the state is that command's completion. -/
theorem exec_next {i : Instr} {s t : State} (h : exec i s = .next t) :
    ∃ j d, s.engine = .busy j d ∧ t = s.complete i j d (outOf i j) := by
  rw [exec_eq_runCommand] at h
  unfold State.runCommand at h
  split at h
  · cases h
  · next j d hj => exact ⟨j, d, hj, by injection h with h; exact h.symm⟩

/-! ### Checks -/

theorem require_ok {b : Bool} {e : CmdError} : require b e = .ok () ↔ b = true := by
  cases b <;> simp [require]

theorem bind_ok {α β : Type} {x : Except CmdError α} {f : α → Except CmdError β} {b : β} :
    (x >>= f) = .ok b ↔ ∃ a, x = .ok a ∧ f a = .ok b := by
  cases x <;> simp [bind, Except.bind]

theorem checks_ok {i : Instr} {o : Operands} :
    checks i o = .ok () ↔ dimChecks i o = .ok () ∧ regions i o = .ok () := by
  unfold checks
  rw [bind_ok]
  constructor
  · rintro ⟨⟨⟩, h1, h2⟩; exact ⟨h1, h2⟩
  · rintro ⟨h1, h2⟩; exact ⟨(), h1, h2⟩

theorem regionsPass_iff {i : Instr} {o : Operands} : regionsPass i o = true ↔ regions i o = .ok () := by
  unfold regionsPass
  split <;> simp_all

/-- The regions of a command whose checks passed: each legal, each pair apart. -/
theorem regions_ok {i : Instr} {o : Operands} : regions i o = .ok () ↔
    legalOrNone (srcRegion i o) = true ∧ legalOrNone (dstRegion i o) = true ∧ legalOrNone (auxRegion i o) = true ∧
    apart (mayCoincide i) (srcRegion i o) (dstRegion i o) = true ∧
    apart false (srcRegion i o) (auxRegion i o) = true ∧ apart false (dstRegion i o) (auxRegion i o) = true := by
  simp [regions, require_ok, and_assoc]

theorem legal_iff {r : Region} : r.legal = true ↔ r.base % r.align = 0 ∧ r.base + r.size ≤ Config.dmemBytes := by
  simp [Region.legal]

theorem has_iff {r : Region} {a : Nat} : r.has a = true ↔ r.base ≤ a ∧ a < r.base + r.size := by
  simp [Region.has]

/-- A byte of a command's legal DST region is a byte of DMEM. -/
theorem dst_lt_of_checks {i : Instr} {o : Operands} (h : checks i o = .ok ()) {a : Nat}
    (ha : inRegion (dstRegion i o) a = true) : a < Config.dmemBytes := by
  have hl := (regions_ok.1 (checks_ok.1 h).2).2.1
  unfold inRegion at ha
  unfold legalOrNone at hl
  split at ha
  · next r hr => rw [hr] at hl; have := legal_iff.1 hl; have := has_iff.1 ha; omega
  · cases ha

/-! ### Where the writes go -/

theorem okBytes_ok {base : Nat} {bytes : List Byte} {e : Effect} :
    okBytes base bytes = .ok e ↔ e = { writes := cellsAt base bytes, result := none } := by
  unfold okBytes
  constructor
  · intro h; injection h with h; exact h.symm
  · rintro rfl; rfl

theorem okResult_ok {r : BitVec 64} {e : Effect} :
    okResult r = .ok e ↔ e = { writes := [], result := some r } := by
  unfold okResult
  constructor
  · intro h; injection h with h; exact h.symm
  · rintro rfl; rfl

theorem length_flatMap_const {α β : Type} {n : Nat} (f : α → List β) (h : ∀ a, (f a).length = n) (l : List α) :
    (l.flatMap f).length = n * l.length := by
  induction l with
  | nil => rfl
  | cons a l ih => simp [h, ih, Nat.mul_add, Nat.add_comm]

@[simp] theorem f64Bytes_length (v : F64) : (f64Bytes v).length = 8 := by simp [f64Bytes]

@[simp] theorem c64Bytes_length (z : C64) : (c64Bytes z).length = 16 := by simp [c64Bytes]

theorem gridBytes_length (grid : Nat → Bool) :
    (gridBytes grid).length = Config.gridSide * Config.gridSide := by
  rw [gridBytes, List.length_map, List.length_range]

@[simp] theorem norm_length (nan : Nat → NanBits) (a : List F64) (m f : F64) : (norm nan a m f).length = a.length := by
  simp [norm]

@[simp] theorem f64Array_length (j : Job) (base : Nat) : (j.f64Array base).length = j.latched.len.toNat := by
  simp [Job.f64Array]

@[simp] theorem merge_length (w h n : Nat) (c : List (List (List C64))) : (merge w h n c).length = w * h * n := by
  simp [merge]

@[simp] theorem perChannel_length (w h n : Nat) (f : Nat → List (List C64) → List (List C64)) (a : List C64) :
    (perChannel w h n f a).length = w * h * n := by
  simp [perChannel]

@[simp] theorem embedReal_length (nan : Nat → Nat → NanBits) (w h : Nat) (a : List C64) :
    (embedReal nan w h a).length = w * h * 3 := by
  simp [embedReal]

/-- The pixels of FFT_EMBED are as many as its region has bytes. -/
theorem embedPixels_length {nan : Nat → Nat → NanBits} {grid : Nat → Bool} {w h l : Nat} {px out : List Byte}
    (ho : embedPixels nan grid w h l px = .ok out) : out.length = w * h * 3 := by
  unfold embedPixels at ho
  simp only [bind_ok] at ho
  obtain ⟨_, _, _, _, _, _, ho⟩ := ho
  injection ho with ho
  subst ho
  simp

/-- The shape of a command's success: the checks passed, and its writes are a block of the DST region's size from its
base, or none at all. -/
theorem outOf_ok {i : Instr} {j : Job} {e : Effect} (h : outOf i j = .ok e) :
    (checks i j.latched = .ok () ∨ i = .nop) ∧
      (e.writes = [] ∨ ∃ r bytes, dstRegion i j.latched = some r ∧ bytes.length = r.size ∧
        e.writes = cellsAt r.base bytes) := by
  cases i with
  | nop => simp only [outOf, nopOut] at h; injection h with h; subst h; simp
  | qrEncode =>
    simp only [outOf, qrEncodeOut, bind_ok, okBytes_ok] at h
    obtain ⟨_, hc, g, _, rfl⟩ := h
    refine ⟨.inl hc, .inr ⟨_, gridBytes g, rfl, ?_, ?_⟩⟩
    · exact gridBytes_length g
    · with_reducible rfl
  | tileIndex =>
    simp only [outOf, tileIndexOut, bind_ok, okResult_ok] at h
    obtain ⟨_, hc, rfl⟩ := h
    exact ⟨.inl hc, .inl rfl⟩
  | tileMap =>
    simp only [outOf, tileMapOut, bind_ok, okBytes_ok] at h
    obtain ⟨_, hc, rfl⟩ := h
    refine ⟨.inl hc, .inr ⟨_, _, rfl, ?_, rfl⟩⟩
    rw [length_flatMap_const (n := 4) _ (fun v => leBytes_length 4 v)]
    simp [tileEntries, Operands.area]
  | lsbEmbed g =>
    simp only [outOf, lsbEmbedOut, bind_ok, okBytes_ok] at h
    obtain ⟨_, hc, _, _, rfl⟩ := h
    exact ⟨.inl hc, .inr ⟨_, _, rfl, by simp, rfl⟩⟩
  | lsbExtract =>
    simp only [outOf, lsbExtractOut, bind_ok, okBytes_ok] at h
    obtain ⟨_, hc, rfl⟩ := h
    exact ⟨.inl hc, .inr ⟨_, _, rfl, by simp, rfl⟩⟩
  | fftEmbed g =>
    simp only [outOf, fftEmbedOut, bind_ok, okBytes_ok] at h
    obtain ⟨_, hc, _, _, _, hb, rfl⟩ := h
    refine ⟨.inl hc, .inr ⟨_, _, rfl, ?_, rfl⟩⟩
    rw [embedPixels_length hb, Nat.mul_comm, Operands.area]
  | fftExtract => simp [outOf, fftExtractOut] at h
  | max =>
    simp only [outOf, maxOut, bind_ok, okResult_ok] at h
    obtain ⟨_, hc, rfl⟩ := h
    exact ⟨.inl hc, .inl rfl⟩
  | normalize =>
    simp only [outOf, normalizeOut, bind_ok, okBytes_ok] at h
    obtain ⟨_, hc, _, _, rfl⟩ := h
    refine ⟨.inl hc, .inr ⟨_, _, rfl, ?_, rfl⟩⟩
    rw [length_flatMap_const (n := 8) _ f64Bytes_length]
    simp
  | fft2 =>
    simp only [outOf, fft2Out, bind_ok, okBytes_ok] at h
    obtain ⟨_, hc, rfl⟩ := h
    refine ⟨.inl hc, .inr ⟨_, _, rfl, ?_, rfl⟩⟩
    rw [length_flatMap_const (n := 16) _ c64Bytes_length]
    simp [Operands.area, Nat.mul_assoc]
  | ifft2 =>
    simp only [outOf, ifft2Out, bind_ok, okBytes_ok] at h
    obtain ⟨_, hc, rfl⟩ := h
    refine ⟨.inl hc, .inr ⟨_, _, rfl, ?_, rfl⟩⟩
    rw [length_flatMap_const (n := 16) _ c64Bytes_length]
    simp [Operands.area, Nat.mul_assoc]

/-- Every byte a command writes lies in its DST region (20_memory.md R67). -/
theorem outOf_writes_in_dst {i : Instr} {j : Job} {e : Effect} (h : outOf i j = .ok e) :
    ∀ c ∈ e.writes, inRegion (dstRegion i j.latched) c.1 = true := by
  intro c hc
  rcases (outOf_ok h).2 with h0 | ⟨r, bytes, hr, hlen, hw⟩
  · rw [h0] at hc; cases hc
  · rw [hw] at hc
    have := cellsAt_mem hc
    rw [hr]
    exact has_iff.2 (by omega)

/-- Every byte a command writes is a byte of DMEM. -/
theorem outOf_writes_inRange {i : Instr} {j : Job} {e : Effect} (h : outOf i j = .ok e) :
    ∀ c ∈ e.writes, c.1 < Config.dmemBytes := by
  intro c hc
  rcases (outOf_ok h).1 with hk | rfl
  · exact dst_lt_of_checks hk (outOf_writes_in_dst h c hc)
  · have := outOf_writes_in_dst h c hc; cases this

/-! ### Bytes left open -/

theorem addrs_iff {r : Region} {a : Nat} : a ∈ r.addrs ↔ r.has a = true ∧ a < Config.dmemBytes := by
  rw [has_iff]
  simp only [Region.addrs, List.mem_map, List.mem_range]
  constructor
  · rintro ⟨k, hk, rfl⟩; omega
  · rintro ⟨⟨h1, h2⟩, h3⟩; exact ⟨a - r.base, by omega, by omega⟩

theorem destAddrs_iff {i : Instr} {o : Operands} {a : Nat} :
    a ∈ destAddrs i o ↔ inRegion (dstRegion i o) a = true ∧ a < Config.dmemBytes := by
  unfold destAddrs inRegion
  split <;> simp [addrs_iff]

theorem auxAddrs_iff {i : Instr} {o : Operands} {a : Nat} :
    a ∈ auxAddrs i o ↔ inRegion (auxRegion i o) a = true ∧ a < Config.dmemBytes := by
  unfold auxAddrs inRegion
  split <;> simp [addrs_iff]

theorem scratchAddrs_iff {i : Instr} {o : Operands} {a : Nat} :
    a ∈ scratchAddrs i o ↔ inRegion (auxRegion i o) a = true ∧ a < Config.dmemBytes ∧
      inRegion (srcRegion i o) a = false ∧ inRegion (dstRegion i o) a = false := by
  simp [scratchAddrs, auxAddrs_iff, and_assoc]

theorem openAddrs_lt {i : Instr} {o : Operands} {d : Bool} {a : Nat} (h : a ∈ openAddrs i o d) :
    a < Config.dmemBytes := by
  unfold openAddrs at h
  rcases List.mem_append.1 h with h | h
  · exact (scratchAddrs_iff.1 h).2.1
  · cases d
    · cases h
    · exact (destAddrs_iff.1 h).2

theorem drawnCells_inRange {n : Nat} {l : List Nat} (h : ∀ a ∈ l, a < Config.dmemBytes) :
    ∀ c ∈ drawnCells n l, c.1 < Config.dmemBytes := fun _ hc => h _ (drawnCells_addr hc)

/-! ### Completion -/

/-- DMEM after a command's own writes, before any byte is left open. -/
def writtenBy (m : Memory) (out : CmdOut) : Memory :=
  match out with
  | .ok e => m.writeCells e.writes
  | .error _ => m

/-- STATUS after a command. -/
def statusAfter (t : Status) (out : CmdOut) : Status :=
  match out with
  | .ok _ => t.succeeded
  | .error e => t.failed e

/-- RESULT's new value, where a command has one. -/
def resultOf (out : CmdOut) : Option (BitVec 64) :=
  match out with
  | .ok e => e.result
  | .error _ => none

section Complete
variable (s : State) (i : Instr) (j : Job) (d : Bool) (out : CmdOut)

@[simp] theorem complete_irqEn : (s.complete i j d out).irqEn = s.irqEn := by cases out <;> simp [State.complete]
@[simp] theorem complete_cmd : (s.complete i j d out).cmd = s.cmd := by cases out <;> simp [State.complete]
@[simp] theorem complete_ops : (s.complete i j d out).ops = s.ops := by cases out <;> simp [State.complete]
@[simp] theorem complete_events : (s.complete i j d out).events = s.events := by cases out <;> simp [State.complete]
@[simp] theorem complete_readData : (s.complete i j d out).readData = s.readData := by
  cases out <;> simp [State.complete]
@[simp] theorem complete_engine : (s.complete i j d out).engine = .idle := by cases out <;> simp [State.complete]
@[simp] theorem complete_status : (s.complete i j d out).status = statusAfter s.status out := by
  cases out <;> simp [State.complete, statusAfter]
@[simp] theorem complete_resultLo :
    (s.complete i j d out).resultLo = ((resultOf out).map fun v => v.extractLsb' 0 32).getD s.resultLo := by
  cases out <;> simp [State.complete, resultOf]
@[simp] theorem complete_resultHi :
    (s.complete i j d out).resultHi = ((resultOf out).map fun v => v.extractLsb' 32 32).getD s.resultHi := by
  cases out <;> simp [State.complete, resultOf]
@[simp] theorem complete_dmem : (s.complete i j d out).dmem =
    (writtenBy s.dmem out).writeCells (drawnCells s.draws (openAddrs i j.latched d)) := by
  cases out <;> simp [State.complete, writtenBy]
@[simp] theorem complete_draws :
    (s.complete i j d out).draws = s.draws + (openAddrs i j.latched d).length := by
  cases out <;> simp [State.complete]

end Complete

theorem writtenBy_wf {m : Memory} (h : m.wf) (out : CmdOut) : (writtenBy m out).wf := by
  cases out with
  | ok e => exact writeCells_wf h _
  | error e => exact h

@[simp] theorem writtenBy_cycle (m : Memory) (out : CmdOut) : (writtenBy m out).cycle = m.cycle := by
  cases out <;> simp [writtenBy]

/-- Outside the bytes left open, a completion leaves what the command wrote. -/
theorem complete_readByte {s : State} (h : s.dmem.wf) (i : Instr) (j : Job) (d : Bool) (out : CmdOut) {x : Nat}
    (hx : x ∉ openAddrs i j.latched d) :
    (s.complete i j d out).dmem.readByte x = (writtenBy s.dmem out).readByte x := by
  rw [complete_dmem, readByte_writeCells_other (writtenBy_wf h out)]
  intro c hc he
  exact hx (he ▸ drawnCells_addr hc)

/-- Outside its DST and AUX regions a command changes no byte (20_memory.md R67). -/
theorem complete_frame {s : State} (h : s.dmem.wf) (i : Instr) (j : Job) (d : Bool) {x : Nat}
    (hd : inRegion (dstRegion i j.latched) x = false) (ha : inRegion (auxRegion i j.latched) x = false) :
    (s.complete i j d (outOf i j)).dmem.readByte x = s.dmem.readByte x := by
  rw [complete_readByte h]
  · cases ho : outOf i j with
    | error e => rfl
    | ok e =>
      rw [writtenBy, readByte_writeCells_other h]
      intro c hc he
      have := outOf_writes_in_dst ho c hc
      rw [he, hd] at this
      cases this
  · unfold openAddrs
    rw [List.mem_append]
    rintro (hm | hm)
    · rw [(scratchAddrs_iff.1 hm).1] at ha; cases ha
    · cases d
      · cases hm
      · rw [(destAddrs_iff.1 hm).1] at hd; cases hd

end Sys2Proof.Machine
end

