-- ==== Sys2Proof/Laws/Arrays.lean ====
section
/-! SUPPORT. The laws of arrays in DMEM: an element of a table, the bytes of an array of fixed-size elements, a binary64 or
complex element read back after a command's block of bytes, and the elements of the flat arrays of the transforms (spec
20_memory.md R63). -/

namespace Sys2Proof.Machine

/-- Byte `r` of element `k` of an array of elements of `n` bytes. -/
theorem getD_flatMap_const {α : Type} {n : Nat} (f : α → List Byte) (h : ∀ a, (f a).length = n) (l : List α) {k r : Nat}
    (hk : k < l.length) (hr : r < n) : (l.flatMap f).getD (n * k + r) 0 = (f l[k]).getD r 0 := by
  induction l generalizing k with
  | nil => simp at hk
  | cons a l ih =>
    rw [List.flatMap_cons]
    cases k with
    | zero =>
      rw [List.getD_append _ _ _ _ (by rw [h]; omega)]
      simp
    | succ k =>
      rw [List.getD_append_right _ _ _ _ (by rw [h, Nat.mul_succ]; omega), h,
        show n * (k + 1) + r - n = n * k + r by rw [Nat.mul_succ]; omega]
      exact ih (by simpa using hk)

/-- Digits of a position in layout order. -/
theorem pair_div {h x y : Nat} (hy : y < h) : (x * h + y) / h = x := by
  rw [Nat.mul_comm, Nat.mul_add_div (by omega), Nat.div_eq_of_lt hy, Nat.add_zero]

theorem pair_mod {h x y : Nat} (hy : y < h) : (x * h + y) % h = y := by
  rw [Nat.mul_comm, Nat.mul_add_mod, Nat.mod_eq_of_lt hy]

theorem pair_lt {w h x y : Nat} (hx : x < w) (hy : y < h) : x * h + y < w * h := by
  calc x * h + y < x * h + h := by omega
    _ = (x + 1) * h := by rw [Nat.succ_mul]
    _ ≤ w * h := Nat.mul_le_mul_right h hx

theorem triple_lt {w h n u v c : Nat} (hu : u < w) (hv : v < h) (hc : c < n) : (u * h + v) * n + c < w * h * n :=
  pair_lt (pair_lt hu hv) hc

/-- A number read where a block of element bytes lies is the element, reduced to its width. -/
theorem readLE_block {α : Type} {m : Memory} (hw : m.wf) {base n : Nat} (f : α → List Byte) (hf : ∀ a, (f a).length = n)
    (l : List α) {k i w v : Nat} (hk : k < l.length) (hi : i + w ≤ n)
    (hv : ∀ r < w, (f (l[k])).getD (i + r) 0 = (leBytes w v).getD r 0) :
    (m.writeCells (cellsAt base (l.flatMap f))).readLE (base + n * k + i) w = v % 256 ^ w := by
  apply readLE_of_leBytes
  intro r hr
  have hlen : (l.flatMap f).length = n * l.length := length_flatMap_const f hf l
  have hle : n * (k + 1) ≤ n * l.length := Nat.mul_le_mul_left n hk
  rw [Nat.mul_succ] at hle
  rw [readByte_writeBlock hw, if_pos (by omega), ← hv r hr,
    show base + n * k + i + r - base = n * k + (i + r) by omega]
  exact getD_flatMap_const f hf l hk (by omega)

theorem f64_of_bytes (v : F64) : BitVec.ofNat 64 (v.toNat % 256 ^ 8) = v := by
  have : (256 : Nat) ^ 8 = 2 ^ 64 := by norm_num
  rw [this, Nat.mod_eq_of_lt v.isLt, BitVec.ofNat_toNat, BitVec.setWidth_eq]

/-- Element `k` of a binary64 array that a command wrote. -/
theorem readF64_block {m : Memory} (hw : m.wf) (base : Nat) (l : List F64) {k : Nat} (hk : k < l.length) :
    (m.writeCells (cellsAt base (l.flatMap f64Bytes))).readF64 (base + 8 * k) = l[k] := by
  unfold Memory.readF64
  have := readLE_block hw (base := base) f64Bytes f64Bytes_length l (i := 0) (w := 8) (v := (l[k]).toNat) hk (by omega)
    fun r _ => by rw [Nat.zero_add]; rfl
  rw [Nat.add_zero] at this
  rw [this, f64_of_bytes]

/-- Element `k` of a complex array that a command wrote. -/
theorem readC64_block {m : Memory} (hw : m.wf) (base : Nat) (l : List C64) {k : Nat} (hk : k < l.length) :
    (m.writeCells (cellsAt base (l.flatMap c64Bytes))).readC64 (base + 16 * k) = l[k] := by
  unfold Memory.readC64 Memory.readF64
  have hre := readLE_block hw (base := base) c64Bytes c64Bytes_length l (i := 0) (w := 8) (v := (l[k]).re.toNat) hk
    (by omega) fun r hr => by
      rw [Nat.zero_add, c64Bytes, List.getD_append _ _ _ _ (by simpa using hr)]; rfl
  have him := readLE_block hw (base := base) c64Bytes c64Bytes_length l (i := 8) (w := 8) (v := (l[k]).im.toNat) hk
    (by omega) fun r _ => by
      rw [c64Bytes, List.getD_append_right _ _ _ _ (by simp), f64Bytes_length, Nat.add_sub_cancel_left]; rfl
  rw [Nat.add_zero] at hre
  rw [hre, him, f64_of_bytes, f64_of_bytes]

/-- Entry `k` of a 32-bit map that a command wrote. -/
theorem readU32_block {m : Memory} (hw : m.wf) (base : Nat) (l : List Nat) {k : Nat} (hk : k < l.length) :
    (m.writeCells (cellsAt base (l.flatMap (leBytes 4)))).readLE (base + 4 * k) 4 = l[k] % 2 ^ 32 := by
  have := readLE_block hw (base := base) (leBytes 4) (leBytes_length 4) l (i := 0) (w := 4) (v := l[k]) hk (by omega)
    fun r _ => by rw [Nat.zero_add]
  rw [Nat.add_zero] at this
  rw [this, show (256 : Nat) ^ 4 = 2 ^ 32 by norm_num]

/-! ### The flat arrays of the transforms -/

/-- Element `(u, v, c)` of the flat array of channels. -/
theorem getElem_merge {w h n : Nat} (chans : List (List (List C64))) {u v c : Nat} (hv : v < h)
    (hc : c < n) (hk : (u * h + v) * n + c < (merge w h n chans).length) :
    (merge w h n chans)[(u * h + v) * n + c] = entry (chans.getD c []) u v := by
  simp only [merge, List.getElem_map, List.getElem_range, pair_mod hc, pair_div hc, pair_div hv, pair_mod hv]

/-- Element `(u, v, c)` of a transform applied to each channel. -/
theorem getElem_perChannel {w h n : Nat} (f : Nat → List (List C64) → List (List C64)) (a : List C64) {u v c : Nat}
    (hv : v < h) (hc : c < n) (hk : (u * h + v) * n + c < (perChannel w h n f a).length) :
    (perChannel w h n f a)[(u * h + v) * n + c] = entry (f c (channel w h n c a)) u v := by
  simp only [perChannel, getElem_merge _ hv hc, getD_map_range _ _ hc]

/-- One channel of the array a command reads. -/
theorem channel_c64Array (j : Job) (base c : Nat) (hc : c < j.latched.nchan.toNat) :
    channel j.latched.width.toNat j.latched.height.toNat j.latched.nchan.toNat c (j.c64Array base) =
      (List.range j.latched.width.toNat).map fun x => (List.range j.latched.height.toNat).map fun y =>
        j.snap.readC64 (base + 16 * ((x * j.latched.height.toNat + y) * j.latched.nchan.toNat + c)) := by
  unfold channel
  refine List.map_congr_left fun x hx => List.map_congr_left fun y hy => ?_
  unfold Job.c64Array Operands.area
  rw [getD_map_range _ _ (triple_lt (List.mem_range.1 hx) (List.mem_range.1 hy) hc)]

end Sys2Proof.Machine
end

