-- ==== Sys2Proof/Laws/Bus.lean ====
section
/-! SUPPORT. What a host access can do: the window its address leads to, and each register's read and write
(spec 20_memory.md R61, R62, 10_state.md R23). -/

namespace Sys2Proof.Machine

/-- CSR_BASE plus an offset of the window leads to that offset. -/
theorem busTarget_csr {o : Nat} (h : o < 4096) : busTarget (Config.csrBase + o) = some (.csr o) := by
  unfold busTarget
  rw [if_pos ⟨by omega, by rw [Config.csrBytes_eq]; omega⟩, Nat.add_sub_cancel_left]

/-- DMEM_BASE plus a DMEM address leads to that address. -/
theorem busTarget_dmem {a : Nat} (h : a < Config.dmemBytes) : busTarget (Config.dmemBase + a) = some (.dmem a) := by
  unfold busTarget
  have := Config.windows_apart
  rw [if_neg (by omega), if_pos ⟨by omega, by omega⟩, Nat.add_sub_cancel_left]

/-- Every DMEM target is an address of DMEM. -/
theorem busTarget_dmem_lt {addr a : Nat} (h : busTarget addr = some (.dmem a)) : a < Config.dmemBytes := by
  unfold busTarget at h
  split_ifs at h with h1 h2
  · cases h
  · injection h with h; injection h with h; omega

/-- A legal DMEM access stays inside DMEM: DMEM_BYTES is a multiple of 8. -/
theorem dmemForm_inRange {width a : Nat} (hf : dmemForm width a = true) (ha : a < Config.dmemBytes) :
    ∀ x, a ≤ x → x < a + width → x < Config.dmemBytes := by
  have h8 := Config.dmemBytes_mod
  simp only [dmemForm, Bool.and_eq_true, Bool.or_eq_true, beq_iff_eq] at hf
  obtain ⟨(rfl | rfl) | rfl, hm⟩ := hf <;> intro x h1 h2 <;> omega

/-- The bits of STATUS (10_state.md R26). -/
theorem getLsbD_toWord (t : Status) (i : Nat) : t.toWord.getLsbD i =
    if i = 0 then t.busy else if i = 1 then t.done else if i = 2 then t.err else if i = 8 then t.ovr
    else if 4 ≤ i ∧ i < 8 then t.errcode.getLsbD (i - 4) else false := by
  unfold Status.toWord
  simp only [BitVec.getLsbD_append, BitVec.getLsbD_ofBool]
  by_cases hi : i < 9
  · interval_cases i <;> simp only [Nat.reduceLT, Nat.reduceSub, Nat.reduceEqDiff, Nat.reduceLeDiff, if_true, if_false,
      and_true, and_false, and_self, decide_true, decide_false, Bool.true_and, Bool.false_and, OfNat.ofNat_ne_zero,
      OfNat.ofNat_ne_one, one_ne_zero] <;> rfl
  · rw [if_neg (by omega), if_neg (by omega), if_neg (by omega), if_neg (by omega), if_neg (by omega), if_neg (by omega)]
    rw [if_neg (by omega), if_neg (by omega), if_neg (by omega), if_neg (by omega), if_neg (by omega)]
    exact BitVec.getLsbD_zero

@[simp] theorem toWord_reset : Status.reset.toWord = 0 := by decide

@[simp] theorem csrAt_offset (r : Csr) : csrAt r.offset = some r := by cases r <;> rfl

theorem csr_offset_lt (r : Csr) : r.offset < 4096 := by cases r <;> decide

theorem csr_offset_aligned (r : Csr) : r.offset % 4 = 0 := by cases r <;> rfl

/-- A 32-bit host read of a register answers its value and changes nothing else. -/
theorem busRead_csr (s : State) (r : Csr) :
    s.busRead 4 (Config.csrBase + r.offset) = .next { s with readData := s.readCsr r } := by
  simp [State.busRead, busTarget_csr (csr_offset_lt r), csrForm, csr_offset_aligned, State.readOffset]

/-- A 32-bit host write of a register is `writeCsr`. -/
theorem busWrite_csr (s : State) (r : Csr) (v : Word) :
    s.busWrite 4 (Config.csrBase + r.offset) v = .next (s.writeCsr r v) := by
  simp [State.busWrite, busTarget_csr (csr_offset_lt r), csrForm, csr_offset_aligned, State.writeOffset]

/-- What a register write can be: nothing, CTRL, STATUS, CMD, or a new set of operand registers. -/
theorem writeCsr_cases (s : State) (r : Csr) (v : Word) :
    s.writeCsr r v = s ∨ s.writeCsr r v = s.writeCtrl v ∨ s.writeCsr r v = { s with status := s.status.w1c v } ∨
      s.writeCsr r v = s.writeCmd v ∨ ∃ o, s.writeCsr r v = s.writeOps o := by
  cases r <;> simp [State.writeCsr]

/-- What a write at an offset can be. -/
theorem writeOffset_cases (s : State) (o : Nat) (v : Word) :
    s.writeOffset o v = s ∨ s.writeOffset o v = s.writeCtrl v ∨
      s.writeOffset o v = { s with status := s.status.w1c v } ∨
      s.writeOffset o v = s.writeCmd v ∨ ∃ ops, s.writeOffset o v = s.writeOps ops := by
  unfold State.writeOffset
  split
  · exact writeCsr_cases s _ v
  · exact .inl rfl

/-- A host read that answers a next state changes only the read data and the count of draws. -/
theorem busRead_next {s t : State} {width addr : Nat} (h : s.busRead width addr = .next t) :
    ∃ v n, t = { s with readData := v, draws := n } := by
  unfold State.busRead at h
  split at h
  · cases h
  · split_ifs at h
    injection h with h
    exact ⟨_, s.draws, h.symm⟩
  · split_ifs at h
    injection h with h
    subst h
    unfold State.readDmem
    split
    · exact ⟨_, _, rfl⟩
    · exact ⟨_, s.draws, rfl⟩

/-- A host write that answers a next state is a register write or a DMEM write of a legal form. -/
theorem busWrite_next {s t : State} {width addr : Nat} {v : Word} (h : s.busWrite width addr v = .next t) :
    (∃ o, t = s.writeOffset o v) ∨
      ∃ a, dmemForm width a = true ∧ a < Config.dmemBytes ∧ t = s.writeDmem width a v := by
  unfold State.busWrite at h
  split at h
  · cases h
  · next o _ =>
    split_ifs at h
    injection h with h
    exact .inl ⟨o, h.symm⟩
  · next a ha =>
    split_ifs at h with hf
    injection h with h
    exact .inr ⟨a, hf, busTarget_dmem_lt ha, h.symm⟩

end Sys2Proof.Machine
end

