-- ==== Sys2Proof/Laws/Embed.lean ====
section
/-! SUPPORT. FFT_EMBED's steps in index form (spec 44_fft.md R181): what each step of Machine/Fft.lean does to a
three-channel array given by its elements. -/

namespace Sys2Proof.Machine

/-- The place of element `(x, y, c)` in layout order (20_memory.md R63). -/
def place3 (h x y c : Nat) : Nat := (x * h + y) * 3 + c

/-- A three-channel array in layout order, from its elements. -/
def layout3 {α : Type} (w h : Nat) (f : Nat → Nat → Nat → α) : List α :=
  (List.range (w * h * 3)).map fun k => f (k / 3 / h) (k / 3 % h) (k % 3)

/-- One channel of such an array, as rows. -/
def rows3 {α : Type} (w h : Nat) (f : Nat → Nat → Nat → α) (c : Nat) : List (List α) :=
  (List.range w).map fun x => (List.range h).map fun y => f x y c

theorem place3_self (h k : Nat) : place3 h (k / 3 / h) (k / 3 % h) (k % 3) = k := by
  unfold place3
  rw [Nat.mul_comm (k / 3 / h), Nat.div_add_mod, Nat.mul_comm, Nat.div_add_mod]

theorem place3_lt {w h x y c : Nat} (hx : x < w) (hy : y < h) (hc : c < 3) : place3 h x y c < w * h * 3 :=
  triple_lt hx hy hc

/-- Element `(x, y, c)` of the array. -/
theorem layout3_getD {α : Type} {w h x y c : Nat} (f : Nat → Nat → Nat → α) (d : α) (hx : x < w) (hy : y < h) (hc : c < 3) :
    (layout3 w h f).getD (place3 h x y c) d = f x y c := by
  unfold layout3
  rw [getD_map_range _ _ (place3_lt hx hy hc)]
  unfold place3
  rw [pair_div hc, pair_mod hc, pair_div hy, pair_mod hy]

theorem layout3_map {α β : Type} (w h : Nat) (f : Nat → Nat → Nat → α) (g : α → β) :
    (layout3 w h f).map g = layout3 w h fun x y c => g (f x y c) := by simp [layout3, Function.comp_def]

/-- A map that sees each element's place. -/
theorem layout3_zipIdx {α β : Type} (w h : Nat) (f : Nat → Nat → Nat → α) (g : α × Nat → β) :
    ((layout3 w h f).zipIdx).map g = layout3 w h fun x y c => g (f x y c, place3 h x y c) := by
  apply List.ext_getElem
  · simp [layout3]
  · intro k _ _
    simp [layout3, place3_self]

theorem layout3_zip {α β : Type} (w h : Nat) (f : Nat → Nat → Nat → α) (g : Nat → Nat → Nat → β) :
    (layout3 w h f).zip (layout3 w h g) = layout3 w h fun x y c => (f x y c, g x y c) := by
  apply List.ext_getElem
  · simp [layout3]
  · intro k _ _
    simp [layout3]

theorem channel_layout3 {w h c : Nat} (f : Nat → Nat → Nat → C64) (hc : c < 3) :
    channel w h 3 c (layout3 w h f) = rows3 w h f c := by
  unfold channel rows3
  refine List.map_congr_left fun x hx => List.map_congr_left fun y hy => ?_
  exact layout3_getD f _ (List.mem_range.1 hx) (List.mem_range.1 hy) hc

/-- A transform of every channel by itself. -/
theorem perChannel_layout3 (w h : Nat) (t : Nat → List (List C64) → List (List C64)) (f : Nat → Nat → Nat → C64) :
    perChannel w h 3 t (layout3 w h f) = layout3 w h fun u v c => entry (t c (rows3 w h f c)) u v := by
  have h3 : ∀ k, k % 3 < 3 := fun k => Nat.mod_lt _ (by decide)
  unfold perChannel merge layout3
  refine List.map_congr_left fun k _ => ?_
  rw [getD_map_range _ _ (h3 k)]
  show entry (t (k % 3) (channel w h 3 (k % 3) (layout3 w h f))) _ _ = entry (t (k % 3) (rows3 w h f (k % 3))) _ _
  rw [channel_layout3 f (h3 k)]

/-- The bytes of a pixel array. -/
theorem bytes_layout3 (j : Job) (base w h : Nat) :
    j.bytes base (3 * (w * h)) = layout3 w h fun x y c => j.snap.readByte (base + place3 h x y c) := by
  unfold Job.bytes layout3
  rw [Nat.mul_comm 3]
  exact List.map_congr_left fun k _ => by simp only [place3_self]

theorem norm_layout3 (nan : Nat → NanBits) (w h : Nat) (a : Nat → Nat → Nat → F64) (m f : F64) :
    Sys2Proof.Machine.norm nan (layout3 w h a) m f = layout3 w h fun x y c =>
      F64.mul (nan (2 * place3 h x y c + 1)) (F64.div (nan (2 * place3 h x y c)) (a x y c) m) f :=
  layout3_zipIdx w h a _

/-- Steps 1 and 2 (R183, R184). -/
theorem embedSpectrum_layout3 (nan : Nat → Nat → NanBits) (w h : Nat) (p : Nat → Nat → Nat → Byte) :
    embedSpectrum nan w h (layout3 w h p) = layout3 w h fun u v c => entry (fft2 w h (rows3 w h (fun x y c =>
      ({ re := F64.div (nan 1 (place3 h x y c)) (F64.ofNat (p x y c).toNat) F64.twoFiftyFive, im := F64.zero false } : C64)) c)) u v := by
  unfold embedSpectrum embedSamples
  rw [layout3_zipIdx, perChannel_layout3]

/-- Step 3 (R185). -/
theorem embedLog_layout3 (w h : Nat) (s : Nat → Nat → Nat → C64) :
    embedLog (layout3 w h s) = layout3 w h fun u v c => Num.log10 (Num.abs (s u v c).re (s u v c).im) :=
  layout3_map w h s _

/-- Step 5 (R187). -/
theorem embedPerturbed_layout3 (nan : Nat → Nat → NanBits) (grid : Nat → Bool) (w h l : Nat) (l1 : Nat → Nat → Nat → F64) :
    embedPerturbed nan grid h l (layout3 w h l1) = layout3 w h fun u v c =>
      F64.add (nan 5 (place3 h u v c)) (l1 u v c) (if grid (tile u v l) then F64.thirtyTwo else F64.zero false) := by
  unfold embedPerturbed
  rw [layout3_zipIdx]
  refine List.map_congr_left fun k _ => ?_
  simp only [place3_self, tiledCell]

/-- Step 7 (R189). -/
theorem embedRebuilt_layout3 (nan : Nat → Nat → NanBits) (w h : Nat) (s : Nat → Nat → Nat → C64) (l3 : Nat → Nat → Nat → F64) :
    embedRebuilt nan (layout3 w h s) (layout3 w h l3) = layout3 w h fun u v c =>
      ({ re := F64.mul (nan 7 (2 * place3 h u v c)) (Num.pow10 (l3 u v c)) (Num.cos (Num.arg (s u v c).re (s u v c).im)),
         im := F64.mul (nan 7 (2 * place3 h u v c + 1)) (Num.pow10 (l3 u v c))
           (Num.sin (Num.arg (s u v c).re (s u v c).im)) } : C64) := by
  unfold embedRebuilt
  rw [layout3_zip, layout3_zipIdx]

/-- Step 8, first part (R190). -/
theorem embedReal_layout3 (nan : Nat → Nat → NanBits) (w h : Nat) (s2 : Nat → Nat → Nat → C64) :
    embedReal nan w h (layout3 w h s2) = layout3 w h fun x y c => (entry (ifft2 (nan (8 + c)) w h (rows3 w h s2 c)) x y).re := by
  unfold embedReal
  rw [perChannel_layout3, layout3_map]

/-- A maximum that a rescale divides by: there, finite and not zero (R192; 45_normalization.md R213). -/
theorem maxToDivideBy_ok_iff {a : List F64} {m : F64} :
    maxToDivideBy a = .ok m ↔ fmax a = some m ∧ F64.isFinite m = true ∧ F64.isZero m = false := by
  unfold maxToDivideBy
  cases hf : fmax a with
  | none => simp
  | some k =>
    cases hz : F64.isZero k <;> cases hi : F64.isFinite k <;> simp [degenerate, hz, hi] <;> rintro rfl <;> simp [hz, hi]

end Sys2Proof.Machine
end

