-- ==== Sys2Proof/Laws/Encoding.lean ====
section
/-! SUPPORT. A command word and its three fields are the same thing (spec 30_encoding.md R90). -/

namespace Sys2Proof

/-- Bit `i` of a word built from fields. -/
theorem getLsbD_joinFields (f : CmdFields) (i : Nat) : (joinFields f).getLsbD i =
    if i < 8 then f.opc.getLsbD i else if i = 8 then f.g else f.rsv.getLsbD (i - 9) := by
  unfold joinFields
  rw [BitVec.getLsbD_append]
  split_ifs with h1 h2
  · rfl
  · rw [BitVec.getLsbD_append, h2]; simp
  · rw [BitVec.getLsbD_append, if_neg (by omega)]
    congr 1

theorem splitWord_joinFields (f : CmdFields) : splitWord (joinFields f) = f := by
  obtain ⟨opc, g, rsv⟩ := f
  unfold splitWord
  congr 1
  · refine BitVec.eq_of_getLsbD_eq fun i hi => ?_
    simp [getLsbD_joinFields, hi]
  · exact (getLsbD_joinFields _ 8).trans (by simp)
  · refine BitVec.eq_of_getLsbD_eq fun i hi => ?_
    rw [BitVec.getLsbD_extractLsb', getLsbD_joinFields, if_neg (by omega), if_neg (by omega), Nat.add_sub_cancel_left]
    simp [hi]

theorem joinFields_splitWord (w : Word) : joinFields (splitWord w) = w := by
  refine BitVec.eq_of_getLsbD_eq fun i hi => ?_
  rw [getLsbD_joinFields]
  unfold splitWord
  split_ifs with h1 h2
  · simp [h1]
  · rw [h2]
  · simp only [BitVec.getLsbD_extractLsb']
    rw [decide_eq_true (by omega : i - 9 < 23), Bool.true_and]
    congr 1
    omega

end Sys2Proof
end

