-- ==== Sys2Proof/Laws/Invariant.lean ====
section
/-! SUPPORT. Each operation of the machine keeps the invariant of reachable states (Safety.lean, `State.Inv`). -/

namespace Sys2Proof.Machine

theorem code_pos (e : CmdError) : e.code ≠ 0 := by cases e <;> decide

theorem code_le (e : CmdError) : e.code.toNat ≤ 6 := by cases e <;> decide

theorem wf_empty (n : Nat) : (⟨n, []⟩ : Memory).wf := ⟨List.Pairwise.nil, by simp⟩

theorem inRange_empty (n : Nat) : (⟨n, []⟩ : Memory).inRange := by simp

namespace State.Inv

/-- The invariant reads neither the pending events, nor the read data, nor the count of draws. -/
theorem of_model_fields {s : State} (h : s.Inv) (ev : List Event) (v : Word) (n : Nat) :
    ({ s with events := ev, readData := v, draws := n } : State).Inv := by
  cases h; constructor <;> assumption

/-- A machine with reset registers has it, whatever good DMEM it has. -/
theorem of_resetRegisters {s : State} (hw : s.dmem.wf) (hr : s.dmem.inRange) : s.resetRegisters.Inv where
  busyIsEngine := rfl
  notDoneAndErr := rfl
  busyClears := by simp [Status.reset]
  doneNoCode := by simp [Status.reset]
  errHasCode := by simp [Status.reset]
  codeAtMostSix := by simp [Status.reset]
  latchedAsRegisters := by simp
  dmemWf := hw
  dmemInRange := hr
  snapGood := by simp

theorem drawn_good {m : Memory} (hw : m.wf) (hr : m.inRange) (n : Nat) {l : List Nat}
    (hl : ∀ a ∈ l, a < Config.dmemBytes) :
    (m.writeCells (drawnCells n l)).wf ∧ (m.writeCells (drawnCells n l)).inRange :=
  ⟨writeCells_wf hw _, writeCells_inRange hr (drawnCells_inRange hl)⟩

/-- Accept keeps it (R110). -/
theorem accept {s : State} (h : s.Inv) (w : Word) : (s.accept w).Inv where
  busyIsEngine := rfl
  notDoneAndErr := rfl
  busyClears := by simp
  doneNoCode := by simp
  errHasCode := by simp
  codeAtMostSix := by simp
  latchedAsRegisters := by
    intro j d hj
    rw [accept_engine] at hj
    injection hj with hj _
    subst hj
    exact ⟨rfl, rfl⟩
  dmemWf := h.dmemWf
  dmemInRange := h.dmemInRange
  snapGood := by
    intro j d hj
    rw [accept_engine] at hj
    injection hj with hj _
    subst hj
    exact ⟨h.dmemWf, h.dmemInRange, rfl⟩

theorem writtenBy_inRange {m : Memory} (h : m.inRange) (i : Instr) (j : Job) : (writtenBy m (outOf i j)).inRange := by
  cases ho : outOf i j with
  | ok e => exact writeCells_inRange h (outOf_writes_inRange ho)
  | error e => exact h

/-- Completion keeps it (R113). -/
theorem complete {s : State} (h : s.Inv) {j : Job} {d : Bool} (hj : s.engine = .busy j d) (i : Instr) :
    (s.complete i j d (outOf i j)).Inv := by
  have hb : s.status.busy = true := by rw [h.busyIsEngine, hj]; rfl
  obtain ⟨hdone, herr, hcode⟩ := h.busyClears hb
  have hm := drawn_good (writtenBy_wf h.dmemWf (outOf i j)) (writtenBy_inRange h.dmemInRange i j) s.draws
    (fun a (ha : a ∈ openAddrs i j.latched d) => openAddrs_lt ha)
  exact {
    busyIsEngine := by rw [complete_status, complete_engine]; cases outOf i j <;> rfl
    notDoneAndErr := by rw [complete_status]; cases outOf i j <;> simp [statusAfter, hdone, herr]
    busyClears := by rw [complete_status]; cases outOf i j <;> simp [statusAfter]
    doneNoCode := by rw [complete_status]; cases outOf i j <;> simp [statusAfter, hdone, hcode]
    errHasCode := by
      rw [complete_status]
      cases outOf i j with
      | ok e => simp [statusAfter, herr]
      | error e => exact fun _ => code_pos e
    codeAtMostSix := by rw [complete_status]; cases outOf i j <;> simp [statusAfter, hcode, code_le]
    latchedAsRegisters := by simp
    dmemWf := by rw [complete_dmem]; exact hm.1
    dmemInRange := by rw [complete_dmem]; exact hm.2
    snapGood := by simp }

/-- A completion with BadCommand keeps it (R97). -/
theorem completeBad {s : State} (h : s.Inv) {j : Job} {d : Bool} (hj : s.engine = .busy j d) : s.completeBad.Inv := by
  have hb : s.status.busy = true := by rw [h.busyIsEngine, hj]; rfl
  obtain ⟨hdone, herr, hcode⟩ := h.busyClears hb
  exact {
    busyIsEngine := rfl
    notDoneAndErr := by simp [State.completeBad, hdone]
    busyClears := by simp [State.completeBad]
    doneNoCode := by simp [State.completeBad, hdone]
    errHasCode := fun _ => code_pos .badCommand
    codeAtMostSix := by simp [State.completeBad, code_le]
    latchedAsRegisters := by simp [State.completeBad]
    dmemWf := h.dmemWf
    dmemInRange := h.dmemInRange
    snapGood := by simp [State.completeBad] }

theorem abortAddrs_lt {j : Job} {a : Nat} (h : a ∈ abortAddrs j) : a < Config.dmemBytes := by
  unfold abortAddrs at h
  split at h
  · rcases List.mem_append.1 h with h | h
    · split_ifs at h
      · exact (destAddrs_iff.1 h).2
      · cases h
    · exact (auxAddrs_iff.1 h).2
  · cases h

/-- A soft reset keeps it (R262). -/
theorem softReset {s : State} (h : s.Inv) : s.softReset.Inv := by
  unfold State.softReset
  split
  · exact of_resetRegisters h.dmemWf h.dmemInRange
  · next j _ _ =>
    have hm := drawn_good h.dmemWf h.dmemInRange s.draws (l := abortAddrs j) fun a ha => abortAddrs_lt ha
    exact of_resetRegisters hm.1 hm.2

/-- Power-on reset has it (R260). -/
theorem powerOnReset (s : State) : s.powerOnReset.Inv := by
  have h := of_resetRegisters (s := { s with dmem := ⟨s.dmem.cycle + 1, []⟩ }) (wf_empty _) (inRange_empty _)
  exact h

/-- A write to CTRL keeps it (R25). -/
theorem writeCtrl {s : State} (h : s.Inv) (v : Word) : (s.writeCtrl v).Inv := by
  unfold State.writeCtrl
  split
  · exact h.softReset
  · cases h; constructor <;> assumption

/-- A W1C write to STATUS keeps it (R26). -/
theorem w1c {s : State} (h : s.Inv) (v : Word) : ({ s with status := s.status.w1c v } : State).Inv where
  busyIsEngine := h.busyIsEngine
  notDoneAndErr := by
    have := h.notDoneAndErr
    simp only [w1c_done, w1c_err]
    revert this
    cases s.status.done <;> cases s.status.err <;> simp
  busyClears := fun hb => by
    obtain ⟨h1, h2, h3⟩ := h.busyClears hb
    simp [h1, h2, h3]
  doneNoCode := fun hd => by
    simp only [w1c_done, Bool.and_eq_true] at hd
    exact h.doneNoCode hd.1
  errHasCode := fun he => by
    simp only [w1c_err, Bool.and_eq_true] at he
    exact h.errHasCode he.1
  codeAtMostSix := h.codeAtMostSix
  latchedAsRegisters := h.latchedAsRegisters
  dmemWf := h.dmemWf
  dmemInRange := h.dmemInRange
  snapGood := h.snapGood

/-- A write to CMD keeps it (R110, R111). -/
theorem writeCmd {s : State} (h : s.Inv) (w : Word) : (s.writeCmd w).Inv := by
  unfold State.writeCmd
  split
  · cases h; constructor <;> assumption
  · exact h.accept w

/-- A write to an operand register keeps it (R38). -/
theorem writeOps {s : State} (h : s.Inv) (o : Operands) : (s.writeOps o).Inv := by
  unfold State.writeOps
  split
  · exact h
  · next hb =>
    have he : s.engine = .idle := by
      have := h.busyIsEngine
      cases hs : s.engine with
      | idle => rfl
      | busy j d => rw [hs] at this; exact absurd this (by simpa [Engine.isBusy] using hb)
    exact { h with
      latchedAsRegisters := fun j d hj => by
        have hj : s.engine = .busy j d := hj
        rw [he] at hj; cases hj }

/-- A register write keeps it. -/
theorem writeOffset {s : State} (h : s.Inv) (o : Nat) (v : Word) : (s.writeOffset o v).Inv := by
  rcases writeOffset_cases s o v with e | e | e | e | ⟨p, e⟩ <;> rw [e]
  · exact h
  · exact h.writeCtrl v
  · exact h.w1c v
  · exact h.writeCmd v
  · exact h.writeOps p

/-- A DMEM write of a legal form keeps it (R61, R70). -/
theorem writeDmem {s : State} (h : s.Inv) {width a : Nat} (hf : dmemForm width a = true) (ha : a < Config.dmemBytes)
    (v : Word) : (s.writeDmem width a v).Inv := by
  have hin := dmemForm_inRange hf ha
  unfold State.writeDmem
  split
  · have hm := drawn_good h.dmemWf h.dmemInRange s.draws (l := accessAddrs width a) fun x hx => by
      simp only [accessAddrs, List.mem_map, List.mem_range] at hx
      obtain ⟨k, hk, rfl⟩ := hx
      exact hin _ (by omega) (by omega)
    have old : ∀ j d, s.engine.disturb = .busy j d → ∃ d', s.engine = .busy j d' := by
      intro j d hj
      cases hs : s.engine with
      | idle => rw [hs] at hj; cases hj
      | busy j' d' => rw [hs] at hj; injection hj with hj _; exact ⟨d', by rw [hj]⟩
    exact { h with
      busyIsEngine := by
        show s.status.busy = s.engine.disturb.isBusy
        rw [h.busyIsEngine]; cases s.engine <;> rfl
      latchedAsRegisters := fun j d hj => by
        obtain ⟨d', hs⟩ := old j d hj; exact h.latchedAsRegisters j d' hs
      dmemWf := hm.1
      dmemInRange := hm.2
      snapGood := fun j d hj => by
        obtain ⟨d', hs⟩ := old j d hj
        have := h.snapGood j d' hs
        simpa using this }
  · exact { h with
      dmemWf := writeCells_wf h.dmemWf _
      dmemInRange := writeCells_inRange h.dmemInRange fun c hc => by
        have := cellsAt_mem hc
        rw [leBytes_length] at this
        exact hin _ this.1 this.2
      snapGood := fun j d hj => by simpa using h.snapGood j d hj }

end State.Inv

end Sys2Proof.Machine
end

