-- ==== Sys2Proof/Laws/Kernel.lean ====
section
/-! SUPPORT. The numeric kernel and the 2D transforms (spec 44_fft.md R170, R172, R173): one entry of a transform, and that the
bits of NaN values reach only the bits of NaN values (I11; logs 11, 12). -/

namespace Sys2Proof.Machine

theorem dft1_length (sign) (v : List C64) : (Num.dft1 sign v).length = v.length := dft1Of_length _ sign v

/-- N4 of the block's kernel. -/
theorem fftRoundTrip : FftRoundTrip := (@Config.dftKernel ⟨⟨scaledBin, scaledBin_keepsRoundTrip⟩⟩).keepsRoundTrip

/-- One entry of the two passes: axis 1 first. -/
theorem entry_passes (sign : DftSign) (w h : Nat) (a : Nat → Nat → C64) {u v : Nat} (hu : u < w) (hv : v < h) :
    entry (passes sign w h ((List.range w).map fun x => (List.range h).map fun y => a x y)) u v =
     (Num.dft1 sign ((List.range w).map fun x => (Num.dft1 sign ((List.range h).map fun y => a x y)).getD v default)).getD u default :=
  entry_passesOf Num.dft1 sign a hu hv

/-! ### Equal but for the bits of NaN values -/

theorem isNaN_qNaN : F64.isNaN F64.qNaN = true := by decide

/-- Equal but for NaN bits. -/
theorem canon_eq_iff {x y : F64} : F64.canon x = F64.canon y ↔ x = y ∨ (F64.isNaN x = true ∧ F64.isNaN y
    = true) := by
  unfold F64.canon
  by_cases hx : F64.isNaN x = true <;> by_cases hy : F64.isNaN y = true
  · simp [hx, hy]
  · rw [if_pos hx, if_neg hy]
    constructor
    · intro h; rw [← h] at hy; exact absurd isNaN_qNaN hy
    · rintro (rfl | h); exact absurd hx hy; exact absurd h.2 hy
  · rw [if_neg hx, if_pos hy]
    constructor
    · intro h; rw [h] at hx; exact absurd isNaN_qNaN hx
    · rintro (rfl | h); exact absurd hy hx; exact absurd h.1 hx
  · rw [if_neg hx, if_neg hy]; simp [hx]

theorem canon_eq_of_nan {x y : F64} (hx : F64.isNaN x = true) (hy : F64.isNaN y = true) : F64.canon x
    = F64.canon y := canon_eq_iff.2 (.inr ⟨hx, hy⟩)

theorem isNaN_of_canon_eq {x y : F64} (h : F64.canon x = F64.canon y) : F64.isNaN x = F64.isNaN y := by
  rcases canon_eq_iff.1 h with rfl | ⟨a, b⟩
  · rfl
  · rw [a, b]

theorem canon_quiet (n m : NanBits) : F64.canon (F64.quiet n) = F64.canon (F64.quiet m) := canon_eq_of_nan
    (isNaN_quiet _) (isNaN_quiet _)

theorem canon_op (op : NanBits → F64 → F64 → F64) (hnan : ∀ n a b, F64.isNaN a = true ∨ F64.isNaN b = true
    → F64.isNaN (op n a b) = true)
    (hsame : ∀ n m a b, F64.canon (op n a b) = F64.canon (op m a b)) {n m : NanBits} {a a' b b' : F64} (ha : F64.canon a = F64.canon a') (hb : F64.canon b = F64.canon b') :
    F64.canon (op n a b) = F64.canon (op m a' b') := by
  rcases canon_eq_iff.1 ha with rfl | ⟨h1, h2⟩
  · rcases canon_eq_iff.1 hb with rfl | ⟨h1, h2⟩
    · exact hsame _ _ _ _
    · exact canon_eq_of_nan (hnan _ _ _ (.inr h1)) (hnan _ _ _ (.inr h2))
  · exact canon_eq_of_nan (hnan _ _ _ (.inl h1)) (hnan _ _ _ (.inl h2))

theorem canon_add {n m : NanBits} {a a' b b' : F64} (ha : F64.canon a = F64.canon a') (hb : F64.canon b
    = F64.canon b') : F64.canon (F64.add n a b) = F64.canon (F64.add m a' b') :=
  canon_op F64.add isNaN_add (by intro n m a b; unfold F64.add; simp only; split_ifs <;> first | rfl | exact canon_quiet _ _) ha hb

theorem canon_sub {n m : NanBits} {a a' b b' : F64} (ha : F64.canon a = F64.canon a') (hb : F64.canon b
    = F64.canon b') : F64.canon (F64.sub n a b) = F64.canon (F64.sub m a' b') :=
  canon_op F64.sub isNaN_sub (by intro n m a b; unfold F64.sub F64.add; simp only; split_ifs <;> first | rfl | exact canon_quiet _ _) ha hb

theorem canon_mul {n m : NanBits} {a a' b b' : F64} (ha : F64.canon a = F64.canon a') (hb : F64.canon b
    = F64.canon b') : F64.canon (F64.mul n a b) = F64.canon (F64.mul m a' b') :=
  canon_op F64.mul isNaN_mul (by intro n m a b; unfold F64.mul; simp only; split_ifs <;> first | rfl | exact canon_quiet _ _) ha hb

theorem canon_div {n m : NanBits} {a a' b b' : F64} (ha : F64.canon a = F64.canon a') (hb : F64.canon b
    = F64.canon b') : F64.canon (F64.div n a b) = F64.canon (F64.div m a' b') :=
  canon_op F64.div isNaN_div (by intro n m a b; unfold F64.div; simp only; split_ifs <;> first | rfl | exact canon_quiet _ _) ha hb

/-- Arrays equal but for NaN bits. -/
def SameButNaN (l l' : List C64) : Prop := l.map C64.canon = l'.map C64.canon

theorem sameButNaN_iff {l l' : List C64} : SameButNaN l l' ↔ l.length = l'.length ∧ ∀ k (h : k < l.length)
    (h' : k < l'.length), C64.canon l[k] = C64.canon l'[k] := by
  unfold SameButNaN
  constructor
  · intro h
    have hl : l.length = l'.length := by simpa using congrArg List.length h
    refine ⟨hl, fun k h1 h2 => ?_⟩
    have := congrArg (fun x => x[k]?) h
    simpa [h1, h2] using this
  · rintro ⟨hl, h⟩
    apply List.ext_getElem
    · simpa using hl
    · intro k h1 h2
      simp only [List.getElem_map]
      exact h k _ _

theorem c64_canon_eq_iff {z y : C64} : C64.canon z = C64.canon y ↔ F64.canon z.re = F64.canon y.re ∧ F64.canon z.im
    = F64.canon y.im := by
  unfold C64.canon; simp

theorem hasNaN_of_canon_eq {z y : C64} (h : C64.canon z = C64.canon y) : C64.hasNaN z = C64.hasNaN y := by
  unfold C64.hasNaN; rw [isNaN_of_canon_eq (c64_canon_eq_iff.1 h).1, isNaN_of_canon_eq (c64_canon_eq_iff.1 h).2]

theorem canon_dftOutput (bin : DftBin) (s) {l l' : List C64} (h : SameButNaN l l') (k : Nat) : C64.canon (Num.dftOutputOf bin s l k)
    = C64.canon (Num.dftOutputOf bin s l' k) := by
  unfold Num.dftOutputOf
  have hany : l.any C64.hasNaN = l'.any C64.hasNaN := by
    obtain ⟨hl, hk⟩ := sameButNaN_iff.1 h
    rw [Bool.eq_iff_iff, List.any_eq_true, List.any_eq_true]
    constructor
    · rintro ⟨z, hz, hn⟩
      obtain ⟨i, hi, rfl⟩ := List.mem_iff_getElem.1 hz
      exact ⟨l'[i], List.getElem_mem _, by rw [← hasNaN_of_canon_eq (hk i hi (by omega))]; exact hn⟩
    · rintro ⟨z, hz, hn⟩
      obtain ⟨i, hi, rfl⟩ := List.mem_iff_getElem.1 hz
      exact ⟨l[i]'(by omega), List.getElem_mem _, by rw [hasNaN_of_canon_eq (hk i (by omega) hi)]; exact hn⟩
  simp only
  rw [show l.map C64.canon = l'.map C64.canon from h, hany]
  split
  · split
    · rw [c64_canon_eq_iff]; exact ⟨canon_quiet _ _, rfl⟩
    · rw [c64_canon_eq_iff]; exact ⟨rfl, canon_quiet _ _⟩
  · rfl

/-- `Num.dft1` of arrays equal but for NaN bits. -/
theorem sameButNaN_dft1 (s) {l l' : List C64} (h : SameButNaN l l') : SameButNaN (Num.dft1 s l)
    (Num.dft1 s l') := by
  obtain ⟨hl, hk⟩ := sameButNaN_iff.1 h
  match l, l' with
  | [], [] => exact h
  | [a], [b] => exact h
  | [a, b], [c, d] =>
    have h0 := c64_canon_eq_iff.1 (hk 0 (by simp) (by simp))
    have h1 := c64_canon_eq_iff.1 (hk 1 (by simp) (by simp))
    simp only [List.getElem_cons_zero, List.getElem_cons_succ] at h0 h1
    unfold SameButNaN
    simp only [Num.dft1, Num.dft1Of, List.map_cons, List.map_nil]
    rw [show ∀ p q r t : C64, ([p, q] = [r, t]) = (p = r ∧ q = t) by intro p q r t; simp]
    rw [c64_canon_eq_iff, c64_canon_eq_iff]
    exact ⟨⟨canon_add h0.1 h1.1, canon_add h0.2 h1.2⟩, ⟨canon_sub h0.1 h1.1, canon_sub h0.2 h1.2⟩⟩
  | a :: b :: c :: t, a' :: b' :: c' :: t' =>
    refine sameButNaN_iff.2 ⟨by rw [dft1_length, dft1_length, hl], fun k h1 h2 => ?_⟩
    simp only [Num.dft1, Num.dft1Of, List.getElem_map, List.getElem_range]
    exact canon_dftOutput _ s h k
  | [], _ :: _ => simp at hl
  | _ :: _, [] => simp at hl
  | [_], _ :: _ :: _ => simp at hl
  | _ :: _ :: _, [_] => simp at hl
  | [_, _], _ :: _ :: _ :: _ => simp at hl
  | _ :: _ :: _ :: _, [_, _] => simp at hl

end Sys2Proof.Machine
end

