-- ==== Sys2Proof/Laws/Norm.lean ====
section
/-! SUPPORT. What `fmax` answers (spec 45_normalization.md R211), and the elements of a normalized array (R215). -/

namespace Sys2Proof.Machine

theorem f64_gt_iff {a b : F64} : F64.gt a b = true ↔ F64.isNaN a = false ∧ F64.isNaN b = false
    ∧ F64.key b < F64.key a := by
  simp [F64.gt, and_assoc]

theorem f64_gt_eq_false_iff {a b : F64} (ha : F64.isNaN a = false) (hb : F64.isNaN b = false) : F64.gt a b = false
    ↔ F64.key a ≤ F64.key b := by
  unfold F64.gt; rw [ha, hb]; simp

/-- `m` is the first, in index order, of the elements equal to the largest that is not NaN (R211). -/
def IsFMax (a : List F64) (m : F64) : Prop :=
  ∃ k : Nat, a[k]? = some m ∧ F64.isNaN m = false ∧ (∀ v ∈ a, F64.gt v m = false) ∧
      ∀ i < k, ∀ v, a[i]? = some v → F64.isNaN v = true ∨ F64.gt m v = true

theorem IsFMax.unique {a m m'} (h : IsFMax a m) (h' : IsFMax a m') : m = m' := by
  obtain ⟨k, h1, h2, h3, h4⟩ := h
  obtain ⟨k', h1', h2', h3', h4'⟩ := h'
  rcases Nat.lt_trichotomy k k' with hk | hk | hk
  · rcases h4' k hk m h1 with h | h
    · rw [h2] at h; cases h
    · have := h3 m' (List.mem_of_getElem? h1'); rw [h] at this; cases this
  · subst hk; rw [h1] at h1'; injection h1'
  · rcases h4 k' hk m' h1' with h | h
    · rw [h2'] at h; cases h
    · have := h3' m (List.mem_of_getElem? h1); rw [h] at this; cases this

theorem fmax_append_one (a : List F64) (v : F64) : fmax (a ++ [v]) = fmaxStep (fmax a) v := by
  simp [fmax, List.foldl_append]

/-- Everything `fmax` answers. -/
theorem fmax_spec (a : List F64) : (fmax a = none → ∀ v ∈ a, F64.isNaN v = true) ∧ ∀ m, fmax a = some m
    → IsFMax a m := by
  induction a using List.reverseRecOn with
  | nil => constructor <;> simp [fmax]
  | append_singleton a v ih =>
    rw [fmax_append_one]
    unfold fmaxStep
    by_cases hv : F64.isNaN v = true
    · rw [if_pos hv]
      refine ⟨fun h w hw => ?_, fun m hm => ?_⟩
      · rcases List.mem_append.1 hw with hw | hw
        · exact ih.1 h w hw
        · rw [List.mem_singleton.1 hw]; exact hv
      · obtain ⟨k, h1, h2, h3, h4⟩ := ih.2 m hm
        have hk : k < a.length := by
          by_contra hc; rw [List.getElem?_eq_none (by omega)] at h1; cases h1
        refine ⟨k, by rw [List.getElem?_append_left hk]; exact h1, h2, ?_, ?_⟩
        · intro w hw
          rcases List.mem_append.1 hw with hw | hw
          · exact h3 w hw
          · rw [List.mem_singleton.1 hw]; simp [F64.gt, hv]
        · intro i hi w hw
          rw [List.getElem?_append_left (by omega)] at hw
          exact h4 i hi w hw
    · rw [if_neg hv]
      have hv' : F64.isNaN v = false := by simpa using hv
      cases hf : fmax a with
      | none =>
        refine ⟨(fun h => by cases h), fun m hm => ?_⟩
        injection hm with hm; subst hm
        refine ⟨a.length, by simp, hv', ?_, ?_⟩
        · intro w hw
          rcases List.mem_append.1 hw with hw | hw
          · simp [F64.gt, ih.1 hf w hw]
          · rw [List.mem_singleton.1 hw, f64_gt_eq_false_iff hv' hv']
        · intro i hi w hw
          rw [List.getElem?_append_left hi] at hw
          exact .inl (ih.1 hf w (List.mem_of_getElem? hw))
      | some m0 =>
        obtain ⟨k, h1, h2, h3, h4⟩ := ih.2 m0 hf
        have hk : k < a.length := by
          by_contra hc; rw [List.getElem?_eq_none (by omega)] at h1; cases h1
        simp only
        by_cases hg : F64.gt v m0 = true
        · rw [if_pos hg]
          refine ⟨(fun h => by cases h), fun m hm => ?_⟩
          injection hm with hm; subst hm
          have hlt := (f64_gt_iff.1 hg).2.2
          have key : ∀ w ∈ a, F64.isNaN w = true ∨ F64.gt v w = true := by
            intro w hw
            by_cases hn : F64.isNaN w = true
            · exact .inl hn
            · have hn' : F64.isNaN w = false := by simpa using hn
              have := (f64_gt_eq_false_iff hn' h2).1 (h3 w hw)
              exact .inr (f64_gt_iff.2 ⟨hv', hn', by omega⟩)
          refine ⟨a.length, by simp, hv', ?_, ?_⟩
          · intro w hw
            rcases List.mem_append.1 hw with hw | hw
            · rcases key w hw with h | h
              · simp [F64.gt, h]
              · rw [f64_gt_eq_false_iff (f64_gt_iff.1 h).2.1 hv']; exact le_of_lt (f64_gt_iff.1 h).2.2
            · rw [List.mem_singleton.1 hw, f64_gt_eq_false_iff hv' hv']
          · intro i hi w hw
            rw [List.getElem?_append_left hi] at hw
            exact key w (List.mem_of_getElem? hw)
        · rw [if_neg hg]
          refine ⟨(fun h => by cases h), fun m hm => ?_⟩
          injection hm with hm; subst hm
          refine ⟨k, by rw [List.getElem?_append_left hk]; exact h1, h2, ?_, ?_⟩
          · intro w hw
            rcases List.mem_append.1 hw with hw | hw
            · exact h3 w hw
            · rw [List.mem_singleton.1 hw]; simpa using hg
          · intro i hi w hw
            rw [List.getElem?_append_left (by omega)] at hw
            exact h4 i hi w hw

theorem getElem?_norm (nan : Nat → NanBits) (a : List F64) (m f : F64) (k : Nat) : (norm nan a m f)[k]? =
    (a[k]?).map fun v => normElem (nan (2 * k)) (nan (2 * k + 1)) v m f := by
  simp [norm]
  rfl

end Sys2Proof.Machine
end

