-- ==== Sys2Proof/Laws/Ready.lean ====
section
/-! SUPPORT. The shared checks in the terms of Safety.lean: a command's checks answer DimensionMismatch, BadAddress or
nothing exactly as its shape and its regions are bad or good (spec 40_command_control.md R117 to R119; 60_exceptions.md
R233). -/

namespace Sys2Proof.Machine

theorem legalDim_iff {n : Nat} : legalDim n = true ↔ LegalSide n := by
  unfold legalDim LegalSide Config.maxDim
  simp

theorem require_eq {b : Bool} {e : CmdError} : require b e = if b = true then .ok () else .error e := rfl

theorem bind_error {α β : Type} {e : CmdError} (f : α → Except CmdError β) :
    ((.error e : Except CmdError α) >>= f) = .error e := rfl

theorem bind_pure_ok {α β : Type} {a : α} (f : α → Except CmdError β) : ((.ok a : Except CmdError α) >>= f) = f a := rfl

theorem require_bind {β : Type} (b : Bool) (e : CmdError) (f : Unit → Except CmdError β) :
    (require b e >>= f) = if b = true then f () else .error e := by cases b <;> rfl

theorem toNat_eq_iff {a : Word} (n : Nat) (h : n < 2 ^ 32) : a.toNat = n ↔ a = BitVec.ofNat 32 n := by
  constructor
  · intro e; apply BitVec.eq_of_toNat_eq; rw [BitVec.toNat_ofNat, Nat.mod_eq_of_lt h, e]
  · rintro rfl; rw [BitVec.toNat_ofNat, Nat.mod_eq_of_lt h]

/-- The dimension checks answer DimensionMismatch exactly on a bad shape. -/
theorem dimChecks_eq (i : Instr) (o : Operands) [Decidable (BadShape i o)] :
    dimChecks i o = if BadShape i o then .error .dimensionMismatch else .ok () := by
  have h3 : (o.nchan.toNat = 3) = (o.nchan = 3) := propext (toNat_eq_iff 3 (by omega))
  have h0 : (o.len.toNat = 0) = (o.len = 0) := propext (toNat_eq_iff 0 (by omega))
  cases i <;>
    simp only [dimChecks, pixdims, chdims, dims, side, require_bind, require_eq, BadShape, ← legalDim_iff, ← h3, ← h0] <;>
    split_ifs <;> simp_all <;> rfl

theorem overlaps_iff {r q : Region} : r.overlaps q = false ↔ Apart r.base r.size q.base q.size := by
  unfold Region.overlaps Apart
  simp only [Bool.and_eq_false_iff, decide_eq_false_iff_not]
  omega

theorem legalOrNone_iff {r : Option Region} :
    legalOrNone r = true ↔ ∀ q, r = some q → Fits q.base q.size q.align := by
  cases r <;> simp [legalOrNone, legal_iff, Fits]

theorem apart_false_iff {r q : Option Region} : apart false r q = true ↔
    ∀ a b, r = some a → q = some b → Apart a.base a.size b.base b.size := by
  cases r <;> cases q <;> simp [apart, overlaps_iff]

theorem apart_mayCoincide_iff {i : Instr} {o : Operands} :
    apart (mayCoincide i) (srcRegion i o) (dstRegion i o) = true ↔
      ∀ a b, srcRegion i o = some a → dstRegion i o = some b →
        Apart a.base a.size b.base b.size ∨ ((i = .fft2 ∨ i = .ifft2) ∧ a.base = b.base) := by
  cases i <;> simp [mayCoincide, srcRegion, dstRegion, apart, overlaps_iff]

/-- The region checks pass exactly where the regions are good. -/
theorem regions_ok_iff {i : Instr} {o : Operands} : regions i o = .ok () ↔ ¬ BadRegions i o := by
  rw [regions_ok, legalOrNone_iff, legalOrNone_iff, legalOrNone_iff, apart_mayCoincide_iff, apart_false_iff,
    apart_false_iff]
  unfold BadRegions
  constructor
  · rintro ⟨h1, h2, h3, h4, h5, h6⟩ (⟨r, h | h | h, hf⟩ | ⟨r, q, hr, hq, ha, hc⟩ | ⟨r, q, hr, hq, ha⟩ | ⟨r, q, hr, hq, ha⟩)
    · exact hf (h1 r h)
    · exact hf (h2 r h)
    · exact hf (h3 r h)
    · rcases h4 r q hr hq with h | h
      · exact ha h
      · exact hc h
    · exact ha (h5 r q hr hq)
    · exact ha (h6 r q hr hq)
  · intro h
    refine ⟨fun q hq => ?_, fun q hq => ?_, fun q hq => ?_, fun a b ha hb => ?_, fun a b ha hb => ?_, fun a b ha hb => ?_⟩ <;>
      by_contra hc
    · exact h (.inl ⟨q, .inl hq, hc⟩)
    · exact h (.inl ⟨q, .inr (.inl hq), hc⟩)
    · exact h (.inl ⟨q, .inr (.inr hq), hc⟩)
    · exact h (.inr (.inl ⟨a, b, ha, hb, fun k => hc (.inl k), fun k => hc (.inr k)⟩))
    · exact h (.inr (.inr (.inl ⟨a, b, ha, hb, hc⟩)))
    · exact h (.inr (.inr (.inr ⟨a, b, ha, hb, hc⟩)))

theorem regions_error {i : Instr} {o : Operands} (h : BadRegions i o) : regions i o = .error .badAddress := by
  cases hr : regions i o with
  | ok u => exact absurd h (regions_ok_iff.1 hr)
  | error e =>
    unfold regions at hr
    simp only [require_eq] at hr
    split_ifs at hr
    injection hr with hr
    rw [hr]

/-- A good shape and good regions pass the checks; nothing else does. -/
theorem checks_ok_iff {i : Instr} {o : Operands} : checks i o = .ok () ↔ ¬ BadShape i o ∧ ¬ BadRegions i o := by
  classical
  rw [checks_ok, regions_ok_iff, dimChecks_eq]
  split_ifs with h <;> simp [h]

theorem checks_badShape {i : Instr} {o : Operands} (h : BadShape i o) : checks i o = .error .dimensionMismatch := by
  classical
  unfold checks
  rw [dimChecks_eq, if_pos h, bind_error]

theorem checks_badRegions {i : Instr} {o : Operands} (hs : ¬ BadShape i o) (h : BadRegions i o) :
    checks i o = .error .badAddress := by
  classical
  unfold checks
  rw [dimChecks_eq, if_neg hs, bind_pure_ok, regions_error h]

theorem checks_of_ready {i : Instr} {o : Operands} (h : Ready i o) : checks i o = .ok () :=
  checks_ok_iff.2 ⟨h.1, h.2.1⟩

/-- Operands that pass the checks of a command that takes no payload are ready. -/
theorem ready_of_checks {i : Instr} {o : Operands} (h : checks i o = .ok ())
    (hp : takesPayload i = true → o.len.toNat ≤ Config.qrCapacity) : Ready i o :=
  ⟨(checks_ok_iff.1 h).1, (checks_ok_iff.1 h).2, hp⟩

/-- A command that makes its checks first runs on after them. -/
theorem after_checks {i : Instr} {o : Operands} (h : Ready i o) (f : Unit → CmdOut) : (checks i o >>= f) = f () := by
  rw [checks_of_ready h, bind_pure_ok]

end Sys2Proof.Machine
end

