-- ==== Sys2Proof/Laws/Outcome.lean ====
section
/-! SUPPORT. What each command answers, once for all commands: its errors (spec 60_exceptions.md R231), its completion
(R236; 40_command_control.md R113), and its grid source (R120). -/

namespace Sys2Proof.Machine

/-! ### Errors -/

/-- An error of two steps is the first one's, or the second one's after the first. -/
theorem bind_error_iff {α β : Type} {x : Except CmdError α} {f : α → Except CmdError β} {e : CmdError} :
    (x >>= f) = .error e ↔ x = .error e ∨ ∃ a, x = .ok a ∧ f a = .error e := by
  cases x <;> simp [bind, Except.bind]

theorem okBytes_ne_error {b l e} : okBytes b l ≠ .error e := by simp [okBytes]

theorem okResult_ne_error {r e} : okResult r ≠ .error e := by simp [okResult]

theorem dimChecks_error {i o e} (h : dimChecks i o = .error e) : e = .dimensionMismatch ∧ BadShape i o := by
  classical
  rw [dimChecks_eq] at h
  split_ifs at h with hb
  · injection h with h; exact ⟨h.symm, hb⟩

/-- The errors of the checks, and why. -/
theorem checks_error {i o e} (h : checks i o = .error e) : (e = .dimensionMismatch ∧ BadShape i o) ∨ (e
    = .badAddress ∧ BadRegions i o) := by
  by_cases hs : BadShape i o
  · rw [checks_badShape hs] at h; injection h with h; exact .inl ⟨h.symm, hs⟩
  · by_cases hr : BadRegions i o
    · rw [checks_badRegions hs hr] at h; injection h with h; exact .inr ⟨h.symm, hr⟩
    · rw [checks_ok_iff.2 ⟨hs, hr⟩] at h; cases h

/-- The grid source fails only on a payload, and only with PayloadTooLarge. -/
theorem gridSource_error {g j e} (h : gridSource g j = .error e) : g = false ∧ e = .payloadTooLarge := by
  unfold gridSource at h
  split_ifs at h with hg
  split at h
  · cases h
  · injection h with h; exact ⟨by simpa using hg, h.symm⟩

theorem maxToDivideBy_error {a e} (h : maxToDivideBy a = .error e) : e = .degenerateNormalization := by
  unfold maxToDivideBy at h
  split at h
  · injection h with h; exact h.symm
  · split_ifs at h; injection h with h; exact h.symm

theorem embedPixels_error {nan grid w h l px e} (he : embedPixels nan grid w h l px = .error e) : e
    = .degenerateNormalization := by
  unfold embedPixels at he
  simp only [bind_error_iff] at he
  rcases he with he | ⟨_, _, he | ⟨_, _, he | ⟨_, _, he⟩⟩⟩
  · exact maxToDivideBy_error he
  · exact maxToDivideBy_error he
  · exact maxToDivideBy_error he
  · cases he

/-- A command fails only with an error of its own list (R231). -/
theorem outOf_error {i j e} (h : outOf i j = .error e) : e ∈ errorsOf i := by
  cases i with
  | nop => cases h
  | qrEncode =>
    simp only [outOf, qrEncodeOut, bind_error_iff] at h
    rcases h with h | ⟨_, _, h | ⟨_, _, h⟩⟩
    · rcases checks_error h with ⟨_, h'⟩ | ⟨rfl, _⟩
      · exact absurd h' id
      · decide
    · rw [(gridSource_error h).2]; decide
    · exact absurd h okBytes_ne_error
  | tileIndex =>
    simp only [outOf, tileIndexOut, bind_error_iff] at h
    rcases h with h | ⟨_, _, h⟩
    · rcases checks_error h with ⟨rfl, _⟩ | ⟨rfl, h'⟩
      · decide
      · simp [BadRegions, srcRegion, dstRegion, auxRegion] at h'
    · exact absurd h okResult_ne_error
  | tileMap =>
    simp only [outOf, tileMapOut, bind_error_iff] at h
    rcases h with h | ⟨_, _, h⟩
    · rcases checks_error h with ⟨rfl, _⟩ | ⟨rfl, h'⟩ <;> decide
    · exact absurd h okBytes_ne_error
  | lsbEmbed g =>
    simp only [outOf, lsbEmbedOut, bind_error_iff] at h
    rcases h with h | ⟨_, _, h | ⟨_, _, h⟩⟩
    · rcases checks_error h with ⟨rfl, h'⟩ | ⟨rfl, _⟩ <;> cases g <;> decide
    · obtain ⟨rfl, rfl⟩ := gridSource_error h; decide
    · exact absurd h okBytes_ne_error
  | lsbExtract =>
    simp only [outOf, lsbExtractOut, bind_error_iff] at h
    rcases h with h | ⟨_, _, h⟩
    · rcases checks_error h with ⟨rfl, _⟩ | ⟨rfl, h'⟩ <;> decide
    · exact absurd h okBytes_ne_error
  | fftEmbed g =>
    simp only [outOf, fftEmbedOut, bind_error_iff] at h
    rcases h with h | ⟨_, _, h | ⟨_, _, h | ⟨_, _, h⟩⟩⟩
    · rcases checks_error h with ⟨rfl, h'⟩ | ⟨rfl, _⟩ <;> cases g <;> decide
    · obtain ⟨rfl, rfl⟩ := gridSource_error h; decide
    · rw [embedPixels_error h]; cases g <;> decide
    · exact absurd h okBytes_ne_error
  | fftExtract => simp only [outOf, fftExtractOut] at h; injection h with h; subst h; decide
  | max =>
    simp only [outOf, maxOut, bind_error_iff] at h
    rcases h with h | ⟨_, _, h⟩
    · rcases checks_error h with ⟨rfl, _⟩ | ⟨rfl, h'⟩ <;> decide
    · exact absurd h okResult_ne_error
  | normalize =>
    simp only [outOf, normalizeOut, bind_error_iff] at h
    rcases h with h | ⟨_, _, h | ⟨_, _, h⟩⟩
    · rcases checks_error h with ⟨rfl, h'⟩ | ⟨rfl, _⟩ <;> decide
    · rw [maxToDivideBy_error h]; decide
    · exact absurd h okBytes_ne_error
  | fft2 =>
    simp only [outOf, fft2Out, bind_error_iff] at h
    rcases h with h | ⟨_, _, h⟩
    · rcases checks_error h with ⟨rfl, _⟩ | ⟨rfl, h'⟩ <;> decide
    · exact absurd h okBytes_ne_error
  | ifft2 =>
    simp only [outOf, ifft2Out, bind_error_iff] at h
    rcases h with h | ⟨_, _, h⟩
    · rcases checks_error h with ⟨rfl, _⟩ | ⟨rfl, h'⟩ <;> decide
    · exact absurd h okBytes_ne_error

/-- Only TILE_INDEX and MAX have a result (R36). -/
theorem outOf_result {i j e} (h : outOf i j = .ok e) (h1 : i ≠ .tileIndex) (h2 : i ≠ .max) : e.result = none := by
  cases i with
  | nop => simp only [outOf, nopOut] at h; injection h with h; subst h; rfl
  | tileIndex => exact absurd rfl h1
  | max => exact absurd rfl h2
  | qrEncode => simp only [outOf, qrEncodeOut, bind_ok, okBytes_ok] at h; obtain ⟨_, _, _, _, rfl⟩ := h; rfl
  | tileMap => simp only [outOf, tileMapOut, bind_ok, okBytes_ok] at h; obtain ⟨_, _, rfl⟩ := h; rfl
  | lsbEmbed g => simp only [outOf, lsbEmbedOut, bind_ok, okBytes_ok] at h; obtain ⟨_, _, _, _, rfl⟩ := h; rfl
  | lsbExtract => simp only [outOf, lsbExtractOut, bind_ok, okBytes_ok] at h; obtain ⟨_, _, rfl⟩ := h; rfl
  | fftEmbed g => simp only [outOf, fftEmbedOut, bind_ok, okBytes_ok] at h; obtain ⟨_, _, _, _, _, _, rfl⟩ := h; rfl
  | fftExtract => simp [outOf, fftExtractOut] at h
  | normalize => simp only [outOf, normalizeOut, bind_ok, okBytes_ok] at h; obtain ⟨_, _, _, _, rfl⟩ := h; rfl
  | fft2 => simp only [outOf, fft2Out, bind_ok, okBytes_ok] at h; obtain ⟨_, _, rfl⟩ := h; rfl
  | ifft2 => simp only [outOf, ifft2Out, bind_ok, okBytes_ok] at h; obtain ⟨_, _, rfl⟩ := h; rfl

/-! ### Completion -/

theorem complete_sameRegisters (s : State) (i j d out) : SameRegisters s (s.complete i j d out) := by
  constructor <;> simp

/-- A command that answers `Ok` succeeds. -/
theorem succeeded_of {s i j d out e} (h : out = .ok e) : Succeeded s (s.complete i j d out) := by
  subst h
  exact ⟨complete_sameRegisters _ _ _ _ _, by simp, by simp [statusAfter, Status.succeeded]⟩

/-- A command that answers an error fails as R236 says. -/
theorem failed_of {s i j d out e} (h : out = .error e) : FailedAs s (s.complete i j d out) e := by
  subst h
  exact ⟨complete_sameRegisters _ _ _ _ _, by simp, by simp [statusAfter, Status.failed], by simp [SameResult, resultOf]⟩

/-- The completion of a command that writes one block of bytes and has no scratch. -/
theorem bytes_result {i s j base bytes} (hb : s.engine = .busy j false) (ho : outOf i j = okBytes base bytes)
    (hs : auxRegion i j.latched = none) :
    ∃ t, exec i s = .next t ∧ Succeeded s t ∧ SameResult s t ∧ t.dmem = s.dmem.writeCells (cellsAt base bytes) := by
  refine ⟨_, exec_busy hb i, succeeded_of ho, by rw [ho]; simp [SameResult, resultOf, okBytes], ?_⟩
  have : openAddrs i j.latched false = [] := by simp [openAddrs, scratchAddrs, auxAddrs, hs]
  rw [complete_dmem, this, ho]; rfl

theorem same_outside {s t : State} {base bytes n} (hw : s.dmem.wf) (hd : t.dmem = s.dmem.writeCells
    (cellsAt base bytes)) (hn : bytes.length = n) : SameOutside s t base n := by
  intro a ha
  unfold State.byte
  rw [hd, readByte_writeBlock hw, hn, if_neg ha]

theorem byte_inside {s t : State} {base bytes n} (hw : s.dmem.wf) (hd : t.dmem = s.dmem.writeCells
    (cellsAt base bytes)) (hn : bytes.length = n) {k} (hk : k < n) : t.byte (base + k) = bytes.getD k 0 := by
  unfold State.byte
  rw [hd, readByte_writeBlock hw, hn, if_pos (by omega), Nat.add_sub_cancel_left]

/-! ### The grid source -/

theorem bytes_length (j : Job) (b n : Nat) : (j.bytes b n).length = n := by simp [Job.bytes]

/-- QrEncode fails exactly above QR_CAPACITY (R131 Q3). -/
theorem qrEncode_none {p : List Byte} : qrEncode p = none ↔ Config.qrCapacity < p.length := by
  unfold qrEncode; split_ifs with h <;> simp <;> omega

/-- Only the cells of the grid are read. -/
theorem tile_lt {x y l : Nat} (h : 1 ≤ l) : tile x y l < l * l :=
  pair_lt (Nat.mod_lt _ h) (Nat.mod_lt _ h)

theorem tiledCell_congr {g g' : Nat → Bool} {h l : Nat} (hl : 1 ≤ l) (hg : ∀ i < l * l, g i = g' i)
    (k) : tiledCell g h l k = tiledCell g' h l k := hg _ (tile_lt hl)

/-! ### Maxima -/

/-- What `maxToDivideBy` answers (R213). -/
theorem maxToDivideBy_spec (a : List F64) : match maxToDivideBy a with
   | .ok m => fmax a = some m ∧ F64.isZero m = false ∧ F64.isFinite m = true
   | .error e => e = .degenerateNormalization := by
  unfold maxToDivideBy
  cases h : fmax a with
  | none => rfl
  | some m =>
    simp only [degenerate]
    by_cases hc : (F64.isZero m || !F64.isFinite m) = true
    · simp only [hc, if_true]
    · have hc' : (F64.isZero m || !F64.isFinite m) = false := by simpa using hc
      simp only [hc', Bool.false_eq_true, if_false]; simp at hc; simp [hc.1, hc.2]

end Sys2Proof.Machine
end

