-- ==== Sys2Proof/Laws/PerInstr.lean ====
section
/-! SUPPORT. Statements about every command as syntax, one lemma for each constructor. -/

namespace Sys2Proof.Laws.RoundTrip

/-- The command is well-formed, and the decoder reads its word back as it. -/
def Statement (i : Instr) : Prop := i.wf = true ∧ decode (encode i) = .ok i

theorem nop : Statement .nop := ⟨by decide, by decide⟩

theorem qrEncode : Statement .qrEncode := ⟨by decide, by decide⟩

theorem tileIndex : Statement .tileIndex := ⟨by decide, by decide⟩

theorem tileMap : Statement .tileMap := ⟨by decide, by decide⟩

theorem lsbEmbed (g : Bool) : Statement (.lsbEmbed g) := by cases g <;> exact ⟨by decide, by decide⟩

theorem lsbExtract : Statement .lsbExtract := ⟨by decide, by decide⟩

theorem fftEmbed (g : Bool) : Statement (.fftEmbed g) := by cases g <;> exact ⟨by decide, by decide⟩

theorem fftExtract : Statement .fftExtract := ⟨by decide, by decide⟩

theorem max : Statement .max := ⟨by decide, by decide⟩

theorem normalize : Statement .normalize := ⟨by decide, by decide⟩

theorem fft2 : Statement .fft2 := ⟨by decide, by decide⟩

theorem ifft2 : Statement .ifft2 := ⟨by decide, by decide⟩

end Sys2Proof.Laws.RoundTrip
end

