-- ==== Sys2Proof/Machine/Reference.lean ====
section
/-! DEFINITION. `Num_ref`, the exact reference of the numeric kernel (spec 44_fft.md R170's intended values, R171), the
reference transforms over exact complex numbers (R172, R173), and what the spec says of them: R175 and the exact round trip
of R177. The block computes none of these values: its own kernel is the parameter `Num` (Machine/Num.lean), of which R170
N1 to N4 and no more are assumed. Each reference is a relation between arguments and result, true of at most one result. -/

namespace Sys2Proof.Machine

open Config (NumFn)

/-- The value of a scalar function of `Num_ref` (R170's table), over the real numbers with the infinities. DESIGN CHOICE
(log 30), safe: no real logarithm of 0 exists, and the spec's table does not say what the reference gives there. It is taken
to be N3's, `log10(0) = -inf` and `pow10(-inf) = 0`, because R196's 'zeros stay zero' is stated of `Num_ref`
(`zeros_stay_zero` of Laws/Reference.lean). Below 0, and at infinities besides that one, the reference has no value. -/
def IsNumRef (f : NumFn) (args : List EReal) (v : EReal) : Prop :=
  match f, args with
  | .abs, [x, y] => ∃ re im : ℝ, x = re ∧ y = im ∧ v = Real.sqrt (re ^ 2 + im ^ 2)
  | .arg, [x, y] => ∃ re im : ℝ, x = re ∧ y = im ∧ v = Complex.arg ⟨re, im⟩
  | .log10, [x] => (∃ r : ℝ, 0 < r ∧ x = r ∧ v = Real.logb 10 r) ∨ (x = 0 ∧ v = ⊥)
  | .pow10, [x] => (∃ r : ℝ, x = r ∧ v = ((10 : ℝ) ^ r : ℝ)) ∨ (x = ⊥ ∧ v = 0)
  | .cos, [x] => ∃ r : ℝ, x = r ∧ v = Real.cos r
  | .sin, [x] => ∃ r : ℝ, x = r ∧ v = Real.sin r
  | _, _ => False

/-- The sign of R171 as a number: -1 forward, +1 inverse (I2). -/
def signOf : DftSign → ℤ
  | .minus => -1
  | .plus => 1

/-- `out` is `DFT_sign(v)` of length `n` (R171). -/
def IsRefDft (sign : DftSign) (n : Nat) (v out : Nat → ℂ) : Prop :=
  ∀ k < n, out k = ∑ j ∈ Finset.range n,
    v j * Complex.exp (signOf sign * (2 * Real.pi * Complex.I * (j * k) / n))

/-- The two passes of R172 and R173 with the reference 1D transform: axis 1 to `mid`, then axis 0 to `out`. -/
def IsRefPasses (sign : DftSign) (w h : Nat) (a out : Nat → Nat → ℂ) : Prop :=
  ∃ mid : Nat → Nat → ℂ, (∀ x < w, IsRefDft sign h (a x) (mid x)) ∧
    ∀ v < h, IsRefDft sign w (fun x => mid x v) (fun u => out u v)

/-- `s` is `fft2` of `a` under `Num_ref` (R172). -/
def IsRefFft2 (w h : Nat) (a s : Nat → Nat → ℂ) : Prop := IsRefPasses .minus w h a s

/-- `a` is `ifft2` of `s` under `Num_ref` (R173). -/
def IsRefIfft2 (w h : Nat) (s a : Nat → Nat → ℂ) : Prop :=
  ∃ r, IsRefPasses .plus w h s r ∧ ∀ x < w, ∀ y < h, a x y = r x y / (w * h)

/-- R175, first property: the two passes commute. (Laws/Reference.lean proves it, as the three below.) -/
def RefPassesCommute : Prop :=
  ∀ (w h : Nat) (a s : Nat → Nat → ℂ), IsRefFft2 w h a s ↔ IsRefFft2 h w (fun y x => a x y) (fun v u => s u v)

/-- R175, second property: conjugate symmetry for real input. -/
def RefConjugateSymmetry : Prop :=
  ∀ (w h : Nat) (a : Nat → Nat → ℝ) (s : Nat → Nat → ℂ), IsRefFft2 w h (fun x y => a x y) s →
    ∀ u < w, ∀ v < h, s ((w - u) % w) ((h - v) % h) = (starRingEnd ℂ) (s u v)

/-- R175, third property: `S[0, 0]` is the sum of the channel's samples. -/
def RefZeroIsSum : Prop :=
  ∀ (w h : Nat) (a s : Nat → Nat → ℂ), 0 < w → 0 < h → IsRefFft2 w h a s →
    s 0 0 = ∑ x ∈ Finset.range w, ∑ y ∈ Finset.range h, a x y

/-- R177: under `Num_ref` the round trip is exact. -/
def RefRoundTripExact : Prop :=
  ∀ (w h : Nat) (a s b : Nat → Nat → ℂ), IsRefFft2 w h a s → IsRefIfft2 w h s b → ∀ x < w, ∀ y < h, b x y = a x y

end Sys2Proof.Machine
end

