-- ==== Sys2Proof/Laws/Reference.lean ====
section
/-! SUPPORT. What the spec says of the exact reference `Num_ref` (44_fft.md): R175 and the exact round trip of R177 for the
transforms of Machine/Reference.lean, and R196 of the embedder's arithmetic. -/

namespace Sys2Proof.Machine

open Complex

/-- The sum of R171, as a function. -/
noncomputable def refDft (sign : DftSign) (n : ℕ) (v : ℕ → ℂ) (k : ℕ) : ℂ :=
  ∑ j ∈ Finset.range n, v j * exp (signOf sign * (2 * Real.pi * I * (j * k) / n))

theorem isRefDft_iff {sign : DftSign} {n : ℕ} {v out : ℕ → ℂ} :
    IsRefDft sign n v out ↔ ∀ k < n, out k = refDft sign n v k := Iff.rfl

theorem refDft_congr {sign : DftSign} {n : ℕ} {v v' : ℕ → ℂ} (h : ∀ j < n, v j = v' j) (k : ℕ) :
    refDft sign n v k = refDft sign n v' k :=
  Finset.sum_congr rfl fun j hj => by rw [h j (Finset.mem_range.1 hj)]

/-- The reference's two passes have one result. -/
theorem isRefPasses_iff {sign : DftSign} {w h : ℕ} {a out : ℕ → ℕ → ℂ} : IsRefPasses sign w h a out ↔
    ∀ u < w, ∀ v < h, out u v = refDft sign w (fun x => refDft sign h (a x) v) u := by
  constructor
  · rintro ⟨mid, h1, h2⟩ u hu v hv
    rw [isRefDft_iff.1 (h2 v hv) u hu]
    exact refDft_congr (fun x hx => isRefDft_iff.1 (h1 x hx) v hv) u
  · exact fun h1 => ⟨fun x v => refDft sign h (a x) v, fun _ _ _ _ => rfl, fun v hv u hu => h1 u hu v hv⟩

/-- Transforms along different axes commute. -/
theorem refDft_comm (s1 s2 : DftSign) (w h : ℕ) (a : ℕ → ℕ → ℂ) (u v : ℕ) :
    refDft s1 w (fun x => refDft s2 h (a x) v) u = refDft s2 h (fun y => refDft s1 w (fun x => a x y) u) v := by
  simp only [refDft, Finset.sum_mul]
  rw [Finset.sum_comm]
  exact Finset.sum_congr rfl fun _ _ => Finset.sum_congr rfl fun _ _ => by ring

/-- R175: the two passes commute. -/
theorem refPassesCommute : RefPassesCommute := by
  intro w h a s
  unfold IsRefFft2
  rw [isRefPasses_iff, isRefPasses_iff]
  constructor
  · exact fun h1 v hv u hu => (h1 u hu v hv).trans (refDft_comm _ _ _ _ _ _ _)
  · exact fun h1 u hu v hv => (h1 v hv u hu).trans (refDft_comm _ _ _ _ _ _ _).symm

/-- R175: `S[0, 0]` is the sum of the samples. -/
theorem refZeroIsSum : RefZeroIsSum := by
  intro w h a s hw hh h1
  rw [isRefPasses_iff.1 h1 0 hw 0 hh]
  simp [refDft]

theorem kernel_mirror {n k : ℕ} (hk : k < n) (j : ℕ) :
    exp ((signOf .minus : ℂ) * (2 * Real.pi * I * (j * ((n - k) % n : ℕ)) / n)) =
      (starRingEnd ℂ) (exp ((signOf .minus : ℂ) * (2 * Real.pi * I * (j * k) / n))) := by
  have hn : (n : ℂ) ≠ 0 := Nat.cast_ne_zero.2 (by omega)
  rw [← exp_conj]
  rcases Nat.eq_zero_or_pos k with rfl | hpos
  · simp
  · rw [Nat.mod_eq_of_lt (by omega), Nat.cast_sub hk.le]
    rw [exp_eq_exp_iff_exists_int]
    refine ⟨-(j : ℤ), ?_⟩
    have h2 : (starRingEnd ℂ) 2 = 2 := map_ofNat _ 2
    simp [h2, signOf]
    field_simp
    ring

theorem refDft_mirror {n k : ℕ} (hk : k < n) (v : ℕ → ℂ) :
    refDft .minus n (fun j => (starRingEnd ℂ) (v j)) ((n - k) % n) = (starRingEnd ℂ) (refDft .minus n v k) := by
  simp only [refDft, map_sum, map_mul]
  exact Finset.sum_congr rfl fun j _ => by rw [kernel_mirror hk]

/-- R175: conjugate symmetry for real input. -/
theorem refConjugateSymmetry : RefConjugateSymmetry := by
  intro w h a s h1 u hu v hv
  rw [isRefPasses_iff.1 h1 u hu v hv,
    isRefPasses_iff.1 h1 _ (Nat.mod_lt _ (by omega)) _ (Nat.mod_lt _ (by omega)), ← refDft_mirror hu]
  congr 1
  funext x
  rw [← refDft_mirror hv]
  simp

/-- The roots of unity of a nonzero distance below `n` sum to 0. -/
theorem sum_roots {n x j : ℕ} (hx : x < n) (hj : j < n) :
    ∑ k ∈ Finset.range n, exp (2 * Real.pi * I * (k * ((x : ℂ) - j)) / n) = if j = x then (n : ℂ) else 0 := by
  have hn : (n : ℂ) ≠ 0 := Nat.cast_ne_zero.2 (by omega)
  by_cases h : j = x
  · subst h
    simp
  · rw [if_neg h]
    have hpow : ∀ k : ℕ, exp (2 * Real.pi * I * (k * ((x : ℂ) - j)) / n) =
        exp (2 * Real.pi * I * ((x : ℂ) - j) / n) ^ k := by
      intro k
      rw [← exp_nat_mul]
      congr 1
      ring
    have hne : exp (2 * Real.pi * I * ((x : ℂ) - j) / n) ≠ 1 := by
      rw [Ne, exp_eq_one_iff]
      rintro ⟨m, hm⟩
      have hpi : (2 * Real.pi * I : ℂ) ≠ 0 := two_pi_I_ne_zero
      have h2 : ((x : ℂ) - j) = m * n := by
        field_simp at hm
        have : (2 * Real.pi * I : ℂ) * ((x : ℂ) - j) = 2 * Real.pi * I * (m * n) := by linear_combination (2 * Real.pi * I : ℂ) * hm
        exact mul_left_cancel₀ hpi this
      have h3 : ((x : ℤ) - j) = m * n := by exact_mod_cast h2
      rcases lt_trichotomy m 0 with hm0 | rfl | hm0
      · nlinarith
      · omega
      · nlinarith
    rw [Finset.sum_congr rfl fun k _ => hpow k, geom_sum_eq hne, ← hpow n]
    rw [show (2 * Real.pi * I * (n * ((x : ℂ) - j)) / n) = ((x : ℤ) - (j : ℤ) : ℤ) * (2 * Real.pi * I) by
      push_cast
      field_simp]
    rw [exp_int_mul_two_pi_mul_I]
    simp

/-- The inverse transform undoes the forward one, up to the length. -/
theorem refDft_inverse {n x : ℕ} (hx : x < n) (v : ℕ → ℂ) :
    refDft .plus n (fun k => refDft .minus n v k) x = n * v x := by
  simp only [refDft, Finset.sum_mul]
  rw [Finset.sum_comm]
  have hterm : ∀ j ∈ Finset.range n, (∑ k ∈ Finset.range n,
      v j * exp (signOf .minus * (2 * Real.pi * I * (j * k) / n)) * exp (signOf .plus * (2 * Real.pi * I * (k * x) / n))) =
      v j * if j = x then (n : ℂ) else 0 := by
    intro j hj
    rw [← sum_roots hx (Finset.mem_range.1 hj), Finset.mul_sum]
    refine Finset.sum_congr rfl fun k _ => ?_
    rw [mul_assoc, ← exp_add]
    congr 2
    simp only [signOf]
    push_cast
    ring
  rw [Finset.sum_congr rfl hterm]
  simp [Finset.sum_ite_eq', hx, mul_comm]

/-- R177: under `Num_ref` the round trip is exact. -/
theorem refRoundTripExact : RefRoundTripExact := by
  rintro w h a s b h1 ⟨r, h2, h3⟩ x hx y hy
  have hw0 : (w : ℂ) ≠ 0 := Nat.cast_ne_zero.2 (by omega)
  have hh0 : (h : ℂ) ≠ 0 := Nat.cast_ne_zero.2 (by omega)
  have hs := isRefPasses_iff.1 h1
  have inner : ∀ u < w, refDft .plus h (s u) y = refDft .minus w (fun x' => h * a x' y) u := by
    intro u hu
    rw [show refDft .plus h (s u) y = refDft .plus h (fun v => refDft .minus w (fun x' => refDft .minus h (a x') v) u) y from
      refDft_congr (fun v hv => hs u hu v hv) y]
    rw [← refDft_comm .minus .plus w h (fun x' v => refDft .minus h (a x') v) u y]
    exact refDft_congr (fun x' _ => refDft_inverse hy _) u
  rw [h3 x hx y hy, isRefPasses_iff.1 h2 x hx y hy]
  rw [show refDft .plus w (fun u => refDft .plus h (s u) y) x =
      refDft .plus w (fun u => refDft .minus w (fun x' => h * a x' y) u) x from
    refDft_congr inner x]
  rw [refDft_inverse hx]
  field_simp

/-- R196: a positive constant factor cancels in step 8. -/
theorem scale_cancels {c : ℝ} (hc : 0 < c) (r m : ℝ) : c * r / (c * m) * 255 = r / m * 255 := by
  rw [mul_div_mul_left r m hc.ne']

/-- R196: under a grid that is true everywhere, the maximum of step 6 is 287, and the new magnitude is a power of the
old one times a constant. -/
theorem uniform_grid {premax : ℝ} (hp : 0 < premax) (lg : ℝ) :
    premax / premax * 255 + 32 = 287 ∧
    (10 : ℝ) ^ ((lg / premax * 255 + 32) / 287 * premax) =
      ((10 : ℝ) ^ lg) ^ ((255 : ℝ) / 287) * (10 : ℝ) ^ (32 * premax / 287) := by
  have h10 : (0 : ℝ) < 10 := by norm_num
  refine ⟨by rw [div_self hp.ne']; norm_num, ?_⟩
  rw [← Real.rpow_mul h10.le, ← Real.rpow_add h10]
  congr 1
  field_simp

/-- R196: under a grid that is false everywhere, the maximum of step 6 is 255, and the log-magnitude comes back. -/
theorem false_grid {premax : ℝ} (hp : 0 < premax) (lg : ℝ) :
    premax / premax * 255 + 0 = 255 ∧ (lg / premax * 255 + 0) / 255 * premax = lg := by
  refine ⟨by rw [div_self hp.ne']; norm_num, ?_⟩
  field_simp
  ring

/-- R170: the reference has at most one value. -/
theorem isNumRef_unique {f : Config.NumFn} {args : List EReal} {v w : EReal} (hv : IsNumRef f args v)
    (hw : IsNumRef f args w) : v = w := by
  unfold IsNumRef at hv hw
  split at hv
  · obtain ⟨a, b, rfl, rfl, rfl⟩ := hv
    obtain ⟨a', b', ha, hb, rfl⟩ := hw
    rw [EReal.coe_eq_coe_iff] at ha hb
    rw [ha, hb]
  · obtain ⟨a, b, rfl, rfl, rfl⟩ := hv
    obtain ⟨a', b', ha, hb, rfl⟩ := hw
    rw [EReal.coe_eq_coe_iff] at ha hb
    rw [ha, hb]
  · obtain ⟨r, hr, rfl, rfl⟩ | ⟨rfl, rfl⟩ := hv <;> obtain ⟨r', hr', hx, rfl⟩ | ⟨hx, rfl⟩ := hw
    · rw [EReal.coe_eq_coe_iff.mp hx]
    · exact absurd (EReal.coe_eq_zero.mp hx) hr.ne'
    · exact absurd (EReal.coe_eq_zero.mp hx.symm) hr'.ne'
    · rfl
  · obtain ⟨r, rfl, rfl⟩ | ⟨rfl, rfl⟩ := hv <;> obtain ⟨r', hx, rfl⟩ | ⟨hx, rfl⟩ := hw
    · rw [EReal.coe_eq_coe_iff.mp hx]
    · exact absurd hx (EReal.coe_ne_bot r)
    · exact absurd hx.symm (EReal.coe_ne_bot r')
    · rfl
  · obtain ⟨r, rfl, rfl⟩ := hv
    obtain ⟨r', hx, rfl⟩ := hw
    rw [EReal.coe_eq_coe_iff.mp hx]
  · obtain ⟨r, rfl, rfl⟩ := hv
    obtain ⟨r', hx, rfl⟩ := hw
    rw [EReal.coe_eq_coe_iff.mp hx]
  · exact hv.elim

/-- R196: a coefficient of magnitude 0 stays 0 through steps 3 to 6, whatever is added to it in step 5 (R187). -/
theorem zeros_stay_zero {premax m2 : ℝ} (hp : 0 < premax) (hm : 0 < m2) (d : ℝ) {lg mag2 : EReal}
    (hl : IsNumRef .log10 [0] lg) (hv : IsNumRef .pow10 [(lg / premax * 255 + d) / m2 * premax] mag2) : mag2 = 0 := by
  obtain rfl : lg = ⊥ := isNumRef_unique hl (.inr ⟨rfl, rfl⟩)
  refine isNumRef_unique hv (.inr ⟨?_, rfl⟩)
  rw [EReal.bot_div_of_pos_ne_top (EReal.coe_pos.mpr hp) (EReal.coe_ne_top _), EReal.bot_mul_of_pos (by norm_num),
    EReal.bot_add, EReal.bot_div_of_pos_ne_top (EReal.coe_pos.mpr hm) (EReal.coe_ne_top _),
    EReal.bot_mul_of_pos (EReal.coe_pos.mpr hp)]

end Sys2Proof.Machine
end

