-- ==== Sys2Proof/Laws/Script.lean ====
section
/-! SUPPORT. What one turn of a host script does: a register write or read, a poll of WAIT, a turn of the engine
(spec 30_encoding.md R100, R101). -/

namespace Sys2Proof.Machine

variable (s : State) (ops : List HostOp) (turns : List Turn)

/-- The machine takes a 32-bit write of a register. -/
theorem take_wrEvent (r : Csr) (v : Word) : s.take (wrEvent r v) = .next (({ s with events := [] } : State).writeCsr r v) :=
  busWrite_csr _ r v

/-- The machine takes a 32-bit read of a register. -/
theorem take_rdEvent (r : Csr) : s.take (rdEvent r) = .next { s with events := [], readData := s.readCsr r } := by
  rw [show s.take (rdEvent r) = ({ s with events := [] } : State).busRead 4 (Config.csrBase + r.offset) from rfl,
    busRead_csr]
  cases r <;> rfl

/-- `WR`, and `CMD` with it: the host's turn writes the register, and the statement is done. -/
theorem runOps_wr (r : Csr) (v : Word) : runOps (.access (wrEvent r v) :: ops) (.host :: turns) s =
    runOps ops turns (({ s with events := [] } : State).writeCsr r v) := by
  simp [runOps, HostOp.event, HostOp.again, take_wrEvent]

/-- `RD`: the host's turn reads the register, and the statement is done. -/
theorem runOps_rd (r : Csr) : runOps (.access (rdEvent r) :: ops) (.host :: turns) s =
    runOps ops turns { s with events := [], readData := s.readCsr r } := by
  simp [runOps, HostOp.event, HostOp.again, take_rdEvent]

/-- A poll that reads STATUS is repeated exactly where BUSY is 1. -/
@[simp] theorem again_status : HostOp.untilIdle.again s.status.toWord = s.status.busy := by
  rw [HostOp.again, getLsbD_toWord, if_pos rfl]

/-- `WAIT` (R101): the host's turn reads STATUS, and WAIT goes on exactly where BUSY reads 1. -/
theorem runOps_poll : runOps (.untilIdle :: ops) (.host :: turns) s =
    runOps (if s.status.busy then .untilIdle :: ops else ops) turns
      { s with events := [], readData := s.status.toWord } := by
  simp [runOps, HostOp.event, take_rdEvent, State.readCsr]

/-- The engine's turn leaves the script where it is. -/
theorem runOps_engine {t : State} (h : ({ s with events := [] } : State).engineTurn = .next t) :
    runOps ops (.other .engine :: turns) s = runOps ops turns t := by
  simp [runOps, State.take, step, h]

end Sys2Proof.Machine
end

