-- ==== Sys2Proof/Tests/Slice0.lean ====
section
/-! SUPPORT. Tests of the model against the spec's own vectors (spec 95_test_vectors.md, named V-…) and, for every statement
that has hypotheses, a witness that meets them (`witness_<statement>`). -/

namespace Sys2Proof.Tests

open Sys2Proof.Machine

/-! ### Well-formedness: each of the three checks refuses a word (30_encoding.md R92, R93, R97) -/

theorem test_wf_reserved_bits : ({ opc := 0x00, g := false, rsv := 1 } : CmdFields).wf = false := by decide
theorem test_wf_reserved_opcode : ({ opc := 0x0C, g := false, rsv := 0 } : CmdFields).wf = false := by decide
theorem test_wf_g_not_allowed : ({ opc := 0x08, g := true, rsv := 0 } : CmdFields).wf = false := by decide
theorem test_wf_legal : ({ opc := 0x06, g := true, rsv := 0 } : CmdFields).wf = true := by decide

/-! ### Decoding: RSV, G and OPC written out from R90 and the opcode map R96 -/

/-- RSV[31:9], G[8], OPC[7:0]. -/
def word (rsv : BitVec 23) (g : BitVec 1) (opc : BitVec 8) : Word := rsv ++ g ++ opc

theorem test_decode_nop : decode (word 0 0 0b00000000) = .ok .nop := by decide
theorem test_decode_qrEncode : decode (word 0 0 0b00000001) = .ok .qrEncode := by decide
theorem test_decode_tileIndex : decode (word 0 0 0b00000010) = .ok .tileIndex := by decide
theorem test_decode_tileMap : decode (word 0 0 0b00000011) = .ok .tileMap := by decide
theorem test_decode_lsbEmbed : decode (word 0 0 0b00000100) = .ok (.lsbEmbed false) := by decide
theorem test_decode_lsbEmbed_g : decode (word 0 1 0b00000100) = .ok (.lsbEmbed true) := by decide
theorem test_decode_lsbExtract : decode (word 0 0 0b00000101) = .ok .lsbExtract := by decide
theorem test_decode_fftEmbed : decode (word 0 0 0b00000110) = .ok (.fftEmbed false) := by decide
theorem test_decode_fftEmbed_g : decode (word 0 1 0b00000110) = .ok (.fftEmbed true) := by decide
theorem test_decode_fftExtract : decode (word 0 0 0b00000111) = .ok .fftExtract := by decide
theorem test_decode_max : decode (word 0 0 0b00001000) = .ok .max := by decide
theorem test_decode_normalize : decode (word 0 0 0b00001001) = .ok .normalize := by decide
theorem test_decode_fft2 : decode (word 0 0 0b00001010) = .ok .fft2 := by decide
theorem test_decode_ifft2 : decode (word 0 0 0b00001011) = .ok .ifft2 := by decide
theorem test_decode_table_word : decodeTableWord 32 0x104 = some (.lsbEmbed true) ∧ decodeTableWord 32 0x10C = none ∧
    decodeTableWord 40 0x100000004 = none := by decide
/-- V-C5 to V-C9. -/
theorem test_decode_bad_words : decode 0x100 = .error .gNotAllowed ∧ decode 0x200 = .error .reservedBits ∧
    decode 0x00C = .error .reservedOpcode ∧ decode 0x0FF = .error .reservedOpcode ∧
    decode 0x80000008 = .error .reservedBits := by decide

/-! ### Small machines -/

/-- DMEM just after power-on. -/
def blank : Memory := { cycle := 0, cells := [] }

/-- A machine whose engine runs a command on these registers and this DMEM. -/
def running (i : Instr) (o : Operands) (m : Memory) : State :=
  ({ State.reset with ops := o, dmem := m } : State).accept (encode i)

/-- What its engine latched. -/
def jobOf (i : Instr) (o : Operands) (m : Memory) : Job := { word := encode i, latched := o, snap := m }

theorem running_engine (i : Instr) (o : Operands) (m : Memory) : (running i o m).engine = .busy (jobOf i o m) false := rfl

theorem running_dmem (i : Instr) (o : Operands) (m : Memory) : (running i o m).dmem = m := rfl

theorem running_inv (i : Instr) (o : Operands) {m : Memory} (hw : m.wf) (hr : m.inRange) : (running i o m).Inv := by
  have h : ({ State.reset with dmem := m } : State).Inv := State.Inv.of_resetRegisters (s := { State.reset with dmem := m }) hw hr
  exact (h.writeOps o).accept (encode i)

theorem blank_wf : blank.wf := wf_empty 0

theorem blank_inRange : blank.inRange := inRange_empty 0

/-- DMEM holding one byte of `f` at each address below `n`. -/
def holding (bytes : List Byte) : Memory := { cycle := 0, cells := bytes.zipIdx.map fun p => (p.2, p.1) }

/-- A job on registers that are all 0 but the ones a vector names, with NCHAN = 3. -/
def small (width height tileL len : Word) (bytes : List Byte) : Job :=
  { word := 0, snap := holding bytes,
    latched := { Operands.reset with width := width, height := height, tileL := tileL, len := len, dst := 0x100 } }

/-- The bytes an effect writes. -/
def bytesOf (out : CmdOut) : Option (List Byte) :=
  match out with
  | .ok e => some (e.writes.map fun c => c.2)
  | .error _ => none

/-- The RESULT of an effect. -/
def resultBits (out : CmdOut) : Option (BitVec 64) :=
  match out with
  | .ok e => e.result
  | .error _ => none

/-! ### Host scripts -/

/-- The read data at the end of a script that is done. -/
def scriptReads (p : List Stmt) (turns : List Turn) : Option Word :=
  match runScript p turns State.reset with
  | .next ([], t) => some t.readData
  | _ => none

/-- The script of V-C12. -/
def twoNops : List Stmt := [.cmd .nop, .cmd .nop, .wait]

/-- V-C12, Complete after the second write: it is dropped, and STATUS = 0x102. -/
theorem test_script_overrun : scriptReads twoNops [.host, .host, .host, .other .engine, .host] = some 0x102 := by
  simp only [scriptReads, twoNops, runScript, stmtOps, List.flatMap_cons, List.flatMap_nil, List.cons_append,
    List.nil_append, runOps_wr, runOps_poll]
  rw [if_pos (by rfl), runOps_engine (h := rfl), runOps_poll]
  decide

/-- V-C12, Complete before the second write: it is accepted, and STATUS = 0x2. -/
theorem test_script_accepted : scriptReads twoNops [.host, .other .engine, .host, .other .engine, .host] = some 0x2 := by
  simp only [scriptReads, twoNops, runScript, stmtOps, List.flatMap_cons, List.flatMap_nil, List.cons_append,
    List.nil_append, runOps_wr]
  rw [runOps_engine (h := rfl), runOps_wr, runOps_engine (h := rfl), runOps_poll]
  decide

/-- R101: WAIT does not end on a poll that reads BUSY = 1. -/
theorem test_wait_goes_on : scriptReads [.run .nop] [.host, .host] = none := by
  simp only [scriptReads, runScript, stmtOps, List.flatMap_cons, List.flatMap_nil, List.append_nil, runOps_wr, runOps_poll]
  rw [if_pos (by rfl)]
  rfl

/-! ### Each instruction, on a vector of the spec -/

/-- V-C1: NOP from reset leaves STATUS = 0x2. -/
theorem test_nop : exec .nop (running .nop Operands.reset blank) =
    .next { State.reset with status := { Status.reset with done := true } } := rfl
/-- V-Q4's kind: no capacity holds 3917 bytes (Q2, Q6). -/
theorem test_qrEncode_long (j : Job) (h : j.latched.len = 3917) : gridSource false j = .error .payloadTooLarge := by
  have : qrEncode (j.bytes j.latched.src.toNat j.latched.len.toNat) = none :=
    qrEncode_none.2 (by rw [bytes_length, h]; exact Nat.lt_succ_of_le Config.qrCapacity_le)
  unfold gridSource
  rw [this]
  rfl
/-- V-T1 and V-T4. -/
theorem test_tileIndex : resultBits (tileIndexOut { jobOf .tileIndex Operands.reset blank with
      latched := { Operands.reset with x := 178, y := 5 } }) = some 182 ∧
    resultBits (tileIndexOut { jobOf .tileIndex Operands.reset blank with
      latched := { Operands.reset with x := 65534, y := 65534, tileL := 65535 } }) = some 0xFFFE0000 := by decide +kernel
/-- V-T8 and V-T9. -/
theorem test_tileMap : tileEntries 3 2 2 = [0, 1, 2, 3, 0, 1] ∧ tileEntries 2 3 2 = [0, 1, 0, 2, 3, 2] := by decide
/-- V-L2 and V-L3: the grid 02 00 00 FF; two of the 18 samples differ from 0x80. -/
theorem test_lsbEmbed : (List.range 18).map (fun k => withLsb (if k = 0 then 0x00 else if k = 3 then 0xFF else 0x80)
      (tiledCell (fun i => [0x02, 0x00, 0x00, 0xFF].getD i 0 != (0 : Byte)) 2 2 k)) =
    ([0x01, 0x81, 0x81, 0xFE, 0x80, 0x80, 0x80, 0x80, 0x80, 0x81, 0x81, 0x81, 0x81, 0x81, 0x81, 0x80, 0x80, 0x80] :
      List Byte) := by decide +kernel
/-- V-L13 to V-L15. -/
theorem test_lsbExtract : bytesOf (lsbExtractOut (small 1 1 0 0 [0x81, 0x80, 0x80])) = some [0xFF] ∧
    bytesOf (lsbExtractOut (small 1 1 0 0 [0x80, 0x81, 0x81])) = some [0x00] ∧
    bytesOf (lsbExtractOut (small 1 1 0 0 [0xFE, 0xFF, 0xFF])) = some [0x00] := by decide +kernel
/-- V-E4: a 1 x 1 white image is degenerate under every Num. -/
theorem test_fftEmbed_white :
    embedPixels (fun _ _ => 0) (fun _ => true) 1 1 1 [0xFF, 0xFF, 0xFF] = .error .degenerateNormalization := by
  decide +kernel
/-- V-E8: so is a black image, here 2 x 2. -/
theorem test_fftEmbed_black : embedPixels (fun _ _ => 0) (fun _ => true) 2 2 1 (List.replicate 12 0x00) =
    .error .degenerateNormalization := by decide +kernel
/-- V-X2: no operand is checked. -/
theorem test_fftExtract : exec .fftExtract (running .fftExtract { Operands.reset with src := 0xFFFFFFFF } blank) =
    .next { State.reset with
      cmd := 7, ops := { Operands.reset with src := 0xFFFFFFFF },
      status := { Status.reset with err := true, errcode := 6 } } := rfl
/-- V-N2, V-N3, V-N4, V-N6 and V-N7. -/
theorem test_max : fmax [0x3FF0000000000000, 0x7FF8000000000000, 0x4010000000000000, 0x4000000000000000] =
      some 0x4010000000000000 ∧
    fmax [0x8000000000000000, 0x0000000000000000] = some 0x8000000000000000 ∧
    fmax [0x0000000000000000, 0x8000000000000000] = some 0x0000000000000000 ∧
    fmax [0xFFF8000000000001, 0xBFF0000000000000] = some 0xBFF0000000000000 ∧
    fmax [0xFFF0000000000000, 0x3FF0000000000000, 0x7FF0000000000000] = some 0x7FF0000000000000 := by decide +kernel
/-- V-N9, V-N10, V-N11 and V-N14: no step is invalid, so no NaN bits matter. -/
theorem test_normalize :
    Sys2Proof.Machine.norm (fun _ => 0) [0xBFF0000000000000, 0xC010000000000000] 0xBFF0000000000000 0x406FE00000000000 =
      [0x406FE00000000000, 0x408FE00000000000] ∧
    Sys2Proof.Machine.norm (fun _ => 0) [0x3FF0000000000000, 0x4000000000000000, 0x4010000000000000] 0x4010000000000000
      0xBFF0000000000000 = [0xBFD0000000000000, 0xBFE0000000000000, 0xBFF0000000000000] ∧
    Sys2Proof.Machine.norm (fun _ => 0) [0x3FF0000000000000, 0xC000000000000000] 0x3FF0000000000000 0x0000000000000000 =
      [0x0000000000000000, 0x8000000000000000] ∧
    Sys2Proof.Machine.norm (fun _ => 0) [0x0000000000000001, 0x3FF0000000000000] 0x3FF0000000000000 0x3FF0000000000000 =
      [0x0000000000000001, 0x3FF0000000000000] := by decide +kernel
/-- V-N15 to V-N18. -/
theorem test_normalize_degenerate : ∀ a ∈ ([[0x7FF0000000000000, 0x4010000000000000],
    [0x0000000000000000, 0x8000000000000000], [0x7FF8000000000000], [0xFFF0000000000000, 0xFFF0000000000000]] :
      List (List F64)), maxToDivideBy a = .error .degenerateNormalization := by decide +kernel
/-- V-F2 and V-F6. -/
theorem test_fft2 :
    fft2 1 2 [[{ re := 0x3FF0000000000000, im := 0x3FF0000000000000 }, { re := 0, im := 0x4000000000000000 }]] =
      [[{ re := 0x3FF0000000000000, im := 0x4008000000000000 },
        { re := 0x3FF0000000000000, im := 0xBFF0000000000000 }]] ∧
    fft2 1 2 [[{ re := 0x7FF0000000000000, im := 0 }, { re := 0x3FF0000000000000, im := 0 }]] =
      [[{ re := 0x7FF0000000000000, im := 0 }, { re := 0x7FF0000000000000, im := 0 }]] := by decide +kernel
/-- V-F8. -/
theorem test_ifft2 : ifft2 (fun _ => 0) 1 2
      [[{ re := 0x3FF0000000000000, im := 0x4008000000000000 }, { re := 0x3FF0000000000000, im := 0xBFF0000000000000 }]] =
    [[{ re := 0x3FF0000000000000, im := 0x3FF0000000000000 }, { re := 0, im := 0x4000000000000000 }]] := by
  decide +kernel
/-- 44_fft.md R194: ties away from zero, and the ends of the range. -/
theorem test_toU8 : F64.toU8 0x405FE00000000000 = 128 ∧ F64.toU8 0xBFE0000000000000 = 0 ∧
    F64.toU8 0x406FD00000000000 = 255 ∧ F64.toU8 0x40DFFFC000000000 = 255 ∧ F64.toU8 0x3FDFFFFFFFFFFFFF = 0 := by
  decide +kernel

/-! ### Operands that pass every check -/

/-- One set of operands that suits every command: a 1 x 1 image at 0, a grid of side 177 or an array at 0x8000. -/
def goodOps (len : Word) : Operands :=
  { Operands.reset with src := 0x8000, aux := 0x100, len := len, width := 1, height := 1, x := 178, y := 5,
                        factorHi := 0x406FE000 }

/-- An empty payload, or one element. -/
def goodLen (i : Instr) : Word := if takesPayload i then 0 else 1

/-- A region that fits in the smallest DMEM. -/
def lowRegion (r : Option Region) : Bool :=
  match r with
  | some r => decide (r.base % r.align = 0) && decide (r.base + r.size ≤ 65536)
  | none => true

theorem legal_of_low {r : Option Region} (h : lowRegion r = true) : legalOrNone r = true := by
  cases r with
  | none => rfl
  | some r =>
    simp only [lowRegion, Bool.and_eq_true, decide_eq_true_eq] at h
    exact legal_iff.2 ⟨h.1, h.2.trans Config.dmemBytes_ge⟩

/-- The checks, decided for the smallest DMEM. -/
def lowChecks (i : Instr) (o : Operands) : Bool :=
  (match dimChecks i o with | .ok _ => true | .error _ => false) &&
    lowRegion (srcRegion i o) && lowRegion (dstRegion i o) && lowRegion (auxRegion i o) &&
    apart (mayCoincide i) (srcRegion i o) (dstRegion i o) && apart false (srcRegion i o) (auxRegion i o) &&
    apart false (dstRegion i o) (auxRegion i o)

theorem checks_of_low {i : Instr} {o : Operands} (h : lowChecks i o = true) : checks i o = .ok () := by
  simp only [lowChecks, Bool.and_eq_true] at h
  obtain ⟨⟨⟨⟨⟨⟨hd, h1⟩, h2⟩, h3⟩, h4⟩, h5⟩, h6⟩ := h
  refine checks_ok.2 ⟨?_, regions_ok.2 ⟨legal_of_low h1, legal_of_low h2, legal_of_low h3, h4, h5, h6⟩⟩
  cases hc : dimChecks i o with
  | ok u => rfl
  | error e => rw [hc] at hd; cases hd

/-- R262, R95: an LSB_EXTRACT with NCHAN = 4 and legal regions is no command whose regions fail, so an abort frees its
destination (log 17). -/
theorem test_abort_bad_shape_legal_regions : regionsPass .lsbExtract { goodOps 0 with nchan := 4 } = true :=
  regionsPass_iff.2 (regions_ok.2 ⟨legal_of_low (by decide), legal_of_low (by decide), legal_of_low (by decide),
    by decide, by decide, by decide⟩)

/-- R193, I3, R262: an FFT_EMBED aborted with a misaligned AUX frees AUX, and keeps the image at 0 (log 27). -/
theorem test_abort_bad_regions :
    let j := jobOf (.fftEmbed true) { goodOps 0 with aux := 0x101 } blank
    0x101 ∈ abortAddrs j ∧ 0 ∉ abortAddrs j := by
  have hr : regionsPass (.fftEmbed true) { goodOps 0 with aux := 0x101 } = false := by
    rw [Bool.eq_false_iff]
    intro h
    have := (regions_ok.1 (regionsPass_iff.1 h)).2.2.1
    simp [legalOrNone, auxRegion, Region.legal, goodOps] at this
  have hd : decode (encode (.fftEmbed true)) = .ok (.fftEmbed true) := by decide
  have hs := Config.dmemBytes_ge
  simp only [abortAddrs, jobOf, hd, hr, Bool.false_eq_true, if_false, List.nil_append, auxAddrs_iff]
  exact ⟨⟨by decide, by omega⟩, fun h => absurd h.1 (by decide)⟩

/-- D27: the argument of -0 + 0i is +0. -/
theorem test_arg_of_negative_zero : Num.arg 0x8000000000000000 0x0000000000000000 = 0x0000000000000000 := by decide

theorem ready_of_low {i : Instr} {o : Operands} (h : lowChecks i o = true)
    (hp : takesPayload i = true → o.len = 0) : Ready i o :=
  ready_of_checks (checks_of_low h) fun ht => by rw [hp ht]; exact Nat.zero_le _

theorem ready_good (i : Instr) : Ready i (goodOps (goodLen i)) := by
  refine ready_of_low ?_ fun h => ?_
  · cases i with
    | lsbEmbed g => cases g <;> decide
    | fftEmbed g => cases g <;> decide
    | _ => decide
  · show goodLen i = 0
    rw [goodLen, h]
    rfl

/-- A machine that runs `i` on them. -/
def good (i : Instr) : State := running i (goodOps (goodLen i)) blank

/-- Its job. -/
def goodJob (i : Instr) : Job := jobOf i (goodOps (goodLen i)) blank

theorem good_inv (i : Instr) : (good i).Inv := running_inv i _ blank_wf blank_inRange

/-- What the statements about one command take as hypotheses. -/
abbrev Runs (i : Instr) (s : State) (j : Job) : Prop :=
  s.engine = .busy j false ∧ s.dmem.wf ∧ Ready i j.latched ∧ j.snap = s.dmem ∧ s.Inv ∧ ∃ (t : State), exec i s = .next t

theorem good_runs (i : Instr) : Runs i (good i) (goodJob i) :=
  ⟨rfl, blank_wf, ready_good i, rfl, good_inv i, _, exec_busy (running_engine i _ _) i⟩

/-- A machine about to take one event. -/
def pending (s : State) (e : Event) : State := { s with events := [e] }

/-- The host's 32-bit write of `v` to offset `o`. -/
def csrWrite (o : Nat) (v : Word) : Event := .write 4 (Config.csrBase + o) v

/-- The host's 32-bit read of offset `o`. -/
def csrRead (o : Nat) : Event := .read 4 (Config.csrBase + o)

theorem host_writes (s : State) (o : Nat) (v : Word) :
    HostWrites (pending s (csrWrite o v)) { pending s (csrWrite o v) with events := [] } o v := ⟨[], rfl, rfl⟩

theorem host_reads (s : State) (o : Nat) :
    HostReads (pending s (csrRead o)) { pending s (csrRead o) with events := [] } o := ⟨[], rfl, rfl⟩

/-- DMEM holding a binary64 array at address 0. -/
def floats (vals : List F64) : Memory := blank.writeCells (cellsAt 0 (vals.flatMap f64Bytes))

theorem floats_wf (vals : List F64) : (floats vals).wf := writeCells_wf blank_wf _

theorem readF64_floats (vals : List F64) {k : Nat} (h : k < vals.length) : (floats vals).readF64 (8 * k) = vals[k] := by
  have := readF64_block blank_wf 0 vals h
  rwa [Nat.zero_add] at this

/-- MAX or NORMALIZE on that array. -/
def arrayOps (vals : List F64) : Operands :=
  { Operands.reset with len := BitVec.ofNat 32 vals.length, factorHi := 0x406FE000 }

theorem map_range_eq {f : Nat → F64} {vals : List F64} (h : ∀ (k : Nat) (hk : k < vals.length), f k = vals[k]) :
    (List.range vals.length).map f = vals := by
  apply List.ext_getElem
  · rw [List.length_map, List.length_range]
  · intro k h1 h2
    rw [List.getElem_map, List.getElem_range]
    exact h k h2

theorem f64Array_of_reads {j : Job} {vals : List F64} (hl : j.latched.len.toNat = vals.length)
    (h : ∀ (k : Nat) (hk : k < vals.length), j.snap.readF64 (0 + 8 * k) = vals[k]) : j.f64Array 0 = vals := by
  unfold Job.f64Array
  rw [hl]
  exact map_range_eq h

theorem array_of_floats (i : Instr) {vals : List F64} (h : vals.length < 2 ^ 32) :
    (jobOf i (arrayOps vals) (floats vals)).f64Array 0 = vals :=
  f64Array_of_reads (Nat.mod_eq_of_lt h) fun k hk => (congrArg _ (Nat.zero_add (8 * k))).trans (readF64_floats vals hk)

/-! ### Witnesses: the hypotheses of each statement can be met, each clause at a boundary -/

theorem witness_DecoderAcceptsExactlyFourteenWords : ∃ (w : Word) (i : Instr), decode w = .ok i := ⟨0x106, .fftEmbed true, by decide⟩

/-- A reserved bit, the first reserved opcode, and G on MAX; with no event pending, and with the engine's turn pending. -/
theorem witness_ReservedWordsFailWithBadCommand : ∀ w ∈ ([0x00000200, 0x80000008, 0x0000000C, 0x00000108] : List Word),
    (∃ (s s0 : State) (j : Job) (d : Bool), EngineMoves s s0 ∧ s.engine = .busy j d ∧ j.word = w ∧ s.events = []) ∧
    (∃ (s s0 : State) (j : Job) (d : Bool), EngineMoves s s0 ∧ s.engine = .busy j d ∧ j.word = w ∧ s.events = [.engine]) ∧
    (w.extractLsb' 9 23 ≠ 0 ∨ 0x0B < (w.extractLsb' 0 8).toNat ∨
      (w.getLsbD 8 = true ∧ w.extractLsb' 0 8 ≠ 0x04 ∧ w.extractLsb' 0 8 ≠ 0x06)) := by
  intro w hw
  refine ⟨⟨State.reset.accept w, _, _, _, .inl ⟨rfl, rfl⟩, rfl, rfl, rfl⟩,
    ⟨pending (State.reset.accept w) .engine, _, _, _, .inr ⟨[], rfl, rfl⟩, rfl, rfl, rfl⟩, ?_⟩
  simp only [List.mem_cons, List.not_mem_nil, or_false] at hw
  rcases hw with rfl | rfl | rfl | rfl <;> decide

theorem witness_StepRunsTheDecodedCommand (i : Instr) :
    (∃ (s s0 : State) (j : Job) (d : Bool), EngineMoves s s0 ∧ s.engine = .busy j d ∧ decode j.word = .ok i) ∧
    ∃ (s s0 : State), EngineMoves s s0 ∧ s.engine = .idle := by
  refine ⟨⟨good i, _, _, _, .inl ⟨rfl, rfl⟩, rfl, ?_⟩, State.reset, _, .inl ⟨rfl, rfl⟩, rfl⟩
  cases i with
  | lsbEmbed g => cases g <;> decide
  | fftEmbed g => cases g <;> decide
  | _ => decide

theorem witness_BusyEngineEndsItsCommandInOneOfTwoWays :
    ∃ (s s0 : State) (j : Job) (d : Bool), s.Inv ∧ EngineMoves s s0 ∧ s.engine = .busy j d :=
  ⟨good .max, _, _, _, good_inv _, .inl ⟨rfl, rfl⟩, rfl⟩

/-- No poll, and two polls, before the engine's turn; a poll of a Busy and of an Idle machine; and a RUN. -/
theorem witness_WaitEnds : (∀ polls ∈ [0, 2], ∃ (rest : List Event) (s : State) (j : Job) (d : Bool), s.engine = .busy j d ∧
      s.status.busy = true ∧ s.events = waitEvents polls ++ rest) ∧
    (∃ s : State, s.status.busy = true) ∧ (∃ s : State, s.status.busy = false) ∧
    ∃ (s : State) (j : Job) (d : Bool), s.engine = .busy j d ∧ s.status.busy = true :=
  ⟨fun polls _ => ⟨[.engine], { good .nop with events := waitEvents polls ++ [.engine] }, _, _, rfl, rfl, rfl⟩,
    ⟨good .nop, rfl⟩, ⟨State.reset, rfl⟩, good .nop, _, _, rfl, rfl⟩

theorem witness_ResetRegisterValues : ∃ (s : State) (rest : List Event), s.events = .powerOn :: rest := ⟨pending (good .max) .powerOn, [], rfl⟩

/-- Idle and Busy; with an address outside the aborted regions, and with a word that is no command. -/
theorem witness_SoftResetStep :
    (∃ (s s0 : State) (v : Word), s.dmem.wf ∧ HostWrites s s0 0x004 v ∧ v.getLsbD 1 = true ∧ s.engine = .idle) ∧
    (∃ (s s0 : State) (v : Word) (j : Job) (d : Bool) (a : Nat), s.dmem.wf ∧ HostWrites s s0 0x004 v ∧ v.getLsbD 1 = true ∧ s.engine = .busy j d ∧
      ∀ i, decode j.word = .ok i → (¬ BadRegions i j.latched → inRegion (dstRegion i j.latched) a = false) ∧
        inRegion (auxRegion i j.latched) a = false) ∧
    ∃ (s s0 : State) (v : Word) (j : Job) (d : Bool), s.dmem.wf ∧ HostWrites s s0 0x004 v ∧ v.getLsbD 1 = true ∧ s.engine = .busy j d ∧
      decode j.word = .error .reservedBits := by
  refine ⟨⟨_, _, 3, blank_wf, host_writes State.reset 0x004 3, by decide, rfl⟩,
    ⟨_, _, 2, _, _, 3, blank_wf, host_writes (good .lsbExtract) 0x004 2, by decide, rfl, fun i hi => ?_⟩,
    ⟨_, _, 2, _, _, blank_wf, host_writes (State.reset.accept 0x200) 0x004 2, by decide, rfl, by decide⟩⟩
  have : i = .lsbExtract := by
    have h : decode (encode .lsbExtract) = .ok i := hi
    rw [show decode (encode .lsbExtract) = .ok .lsbExtract by decide] at h
    injection h with h
    exact h.symm
  subst this
  exact ⟨fun _ => by decide, by decide⟩

theorem witness_StepKeepsTheInvariant : ∃ s t : State, s.Inv ∧ step s = .next t :=
  ⟨good .nop, _, good_inv _, exec_busy (running_engine .nop _ _) .nop⟩

theorem witness_ConstantsReadTheirValuesAndIgnoreWrites :
    (∀ o ∈ [0x000, 0x048, 0x04C, 0x050, 0x054], ∃ (s s0 : State), HostReads s s0 o) ∧
    ∀ o ∈ [0x000, 0x040, 0x044, 0x048, 0x04C, 0x050, 0x054], ∃ (s s0 : State) (v : Word), HostWrites s s0 o v :=
  ⟨fun o _ => ⟨_, _, host_reads State.reset o⟩, fun o _ => ⟨_, _, 5, host_writes State.reset o 5⟩⟩

/-- The first and the last reserved offset; CTRL; STATUS; an operand register. -/
theorem witness_ReservedOffsetsAndBits :
    (∀ o ∈ [0x058, 0xFFC], 0x058 ≤ o ∧ o ≤ 0xFFC ∧ o % 4 = 0 ∧ (∃ (s s0 : State), HostReads s s0 o) ∧
      ∃ (s s0 : State) (v : Word), HostWrites s s0 o v) ∧
    (∀ o ∈ [0x004, 0x008], ∃ (s s0 : State), HostWrites s s0 o 0xFFFFFFFF) ∧
    ∃ (s s0 : State) (r : Csr) (v : Word), Csr.isOperand r = true ∧ s.status.busy = false ∧ HostWrites s s0 r.offset v := by
  refine ⟨fun o ho => ?_, fun o _ => ⟨_, _, host_writes State.reset o _⟩,
    ⟨_, _, .factorHi, 0xFFFFFFFF, rfl, rfl, host_writes State.reset _ _⟩⟩
  have hb : 0x058 ≤ o ∧ o ≤ 0xFFC ∧ o % 4 = 0 := by
    revert o
    decide
  exact ⟨hb.1, hb.2.1, hb.2.2, ⟨_, _, host_reads State.reset o⟩, _, _, 1, host_writes State.reset o 1⟩

theorem witness_OperandWriteIsStored : ∀ r : Csr, (∃ (s s0 : State), HostReads s s0 r.offset) ∧
    ∃ (s s0 : State) (v : Word), s.status.busy = false ∧ HostWrites s s0 r.offset v := fun _ =>
  ⟨⟨_, _, host_reads State.reset _⟩, _, _, 7, rfl, host_writes State.reset _ 7⟩

/-- V-C17, and every other access while BUSY = 1. -/
theorem witness_RegisterAccessWhileBusy : ∀ e : Event, (pending (good .max) e).Inv ∧
    ∃ (j : Job) (d : Bool), (pending (good .max) e).engine = .busy j d ∧
      (∀ r v, ∃ (s0 : State), HostWrites (pending (good .max) (csrWrite (Csr.offset r) v)) s0 r.offset v) ∧
      ∀ r, ∃ (s0 : State), HostReads (pending (good .max) (csrRead (Csr.offset r))) s0 r.offset := fun e =>
  ⟨(good_inv .max).of_model_fields [e] _ _, _, _, rfl, fun r v => ⟨_, host_writes _ r.offset v⟩,
    fun r => ⟨_, host_reads _ r.offset⟩⟩

theorem witness_StatusWriteClearsTheBitsItSets : ∃ (s s0 : State) (v : Word), HostWrites s s0 0x008 v := ⟨_, _, 0x106, host_writes State.reset _ _⟩

/-- A command and a reserved word, with the turn that follows. -/
theorem witness_CmdWriteWhileIdleIsAccepted : ∀ w ∈ ([0x00000009, 0x00000200] : List Word),
    ∃ (s s0 : State), s.status.busy = false ∧ HostWrites s s0 0x00C w ∧
      EngineMoves (State.reset.accept w) (State.reset.accept w) ∧
      (w = 0x00000200 → decode w = .error .reservedBits) := fun w _ =>
  ⟨_, _, rfl, host_writes State.reset 0x00C w, .inl ⟨rfl, rfl⟩, fun h => by rw [h]; decide⟩

/-- An overrun, and its clearing by the host. -/
theorem witness_CmdWriteWhileBusyOnlySetsOverrun :
    (∃ (s s0 : State) (w : Word) (t : State), s.status.busy = true ∧ HostWrites s s0 0x00C w ∧ step s = .next t ∧ s.status.ovr = false ∧
      t.status.ovr = true) ∧
    ∃ (s s0 : State) (v : Word) (t : State), HostWrites s s0 0x008 v ∧ step s = .next t ∧ s.status.ovr = true ∧ t.status.ovr = false := by
  refine ⟨⟨_, _, 0, _, rfl, host_writes (good .nop) 0x00C 0, busWrite_csr _ .cmd 0, rfl, rfl⟩,
    ⟨pending { State.reset with status := { Status.reset with ovr := true } } (csrWrite 0x008 0x100), _, _, _,
      host_writes _ _ _, busWrite_csr _ .status 0x100, rfl, rfl⟩⟩

theorem edges_aligned {n : Nat} (hge : 65536 ≤ n) (hmod : n % 8 = 0) {width a : Nat}
    (hw : width = 1 ∨ width = 2 ∨ width = 4) (ha : a = 0 ∨ a = n - width) : a % width = 0 ∧ a < n := by
  rcases hw with rfl | rfl | rfl <;> rcases ha with rfl | rfl <;> omega

/-- Each width at the first and at the last address of DMEM. -/
theorem witness_DmemAccessIsLittleEndian : ∀ width a : Nat, (width = 1 ∨ width = 2 ∨ width = 4) →
    (a = 0 ∨ a = Config.dmemBytes - width) →
    (∃ (s : State) (v : Word) (rest : List Event), s.status.busy = false ∧ s.dmem.wf ∧
      s.events = .write width (Config.dmemBase + a) v :: rest) ∧
    (∃ (s : State) (rest : List Event), s.status.busy = false ∧ s.dmem.wf ∧
      s.events = .read width (Config.dmemBase + a) :: rest) ∧ a % width = 0 ∧ a < Config.dmemBytes := fun _ _ hw ha =>
  ⟨⟨pending State.reset _, 0, [], rfl, blank_wf, rfl⟩, ⟨pending State.reset _, [], rfl, blank_wf, rfl⟩,
    edges_aligned Config.dmemBytes_ge Config.dmemBytes_mod hw ha⟩

/-- A wrong width and a misalignment at the edges of the CSR window. -/
theorem excluded_csr {c : Nat} : ∀ p ∈ [(c, 2), (c + 4094, 4)], c ≤ p.1 ∧ p.1 < c + 4096 ∧
    (p.2 ≠ 4 ∨ (p.1 - c) % 4 ≠ 0) := by
  intro p hp
  simp only [List.mem_cons, List.not_mem_nil, or_false] at hp
  rcases hp with rfl | rfl
  · exact ⟨Nat.le_refl _, by omega, .inl (show (2 : Nat) ≠ 4 by decide)⟩
  · refine ⟨by omega, by omega, .inr ?_⟩
    show (c + 4094 - c) % 4 ≠ 0
    omega

/-- Two wrong widths, and a misalignment at the last byte of DMEM. -/
theorem excluded_dmem {b n : Nat} (hge : 65536 ≤ n) (hmod : n % 8 = 0) : ∀ p ∈ [(b, 3), (b, 8), (b + (n - 1), 2)],
    b ≤ p.1 ∧ p.1 < b + n ∧ ((p.2 ≠ 1 ∧ p.2 ≠ 2 ∧ p.2 ≠ 4) ∨ (p.1 - b) % p.2 ≠ 0) := by
  intro p hp
  simp only [List.mem_cons, List.not_mem_nil, or_false] at hp
  rcases hp with rfl | rfl | rfl
  · exact ⟨Nat.le_refl _, by omega, .inl (show (3 : Nat) ≠ 1 ∧ (3 : Nat) ≠ 2 ∧ (3 : Nat) ≠ 4 by decide)⟩
  · exact ⟨Nat.le_refl _, by omega, .inl (show (8 : Nat) ≠ 1 ∧ (8 : Nat) ≠ 2 ∧ (8 : Nat) ≠ 4 by decide)⟩
  · refine ⟨by omega, by omega, .inr ?_⟩
    show (b + (n - 1) - b) % 2 ≠ 0
    omega

theorem unmapped_exists (c b n : Nat) : ∃ addr : Nat, ¬ (c ≤ addr ∧ addr < c + 4096) ∧ ¬ (b ≤ addr ∧ addr < b + n) :=
  ⟨c + 4096 + b + n, by omega, by omega⟩

/-- Each kind of excluded access, at the edges of the windows. -/
theorem witness_ExcludedHostAccessesHaveNoStep :
    (∀ width addr : Nat, ∃ (s : State) (rest : List Event), s.events = .read width addr :: rest) ∧
    (∀ p ∈ [(Config.csrBase, 2), (Config.csrBase + 4094, 4)], Config.csrBase ≤ p.1 ∧ p.1 < Config.csrBase + 4096 ∧
      (p.2 ≠ 4 ∨ (p.1 - Config.csrBase) % 4 ≠ 0)) ∧
    (∀ p ∈ [(Config.dmemBase, 3), (Config.dmemBase, 8), (Config.dmemBase + (Config.dmemBytes - 1), 2)],
      Config.dmemBase ≤ p.1 ∧ p.1 < Config.dmemBase + Config.dmemBytes ∧
      ((p.2 ≠ 1 ∧ p.2 ≠ 2 ∧ p.2 ≠ 4) ∨ (p.1 - Config.dmemBase) % p.2 ≠ 0)) ∧
    ∃ addr : Nat, ¬ (Config.csrBase ≤ addr ∧ addr < Config.csrBase + 4096) ∧
      ¬ (Config.dmemBase ≤ addr ∧ addr < Config.dmemBase + Config.dmemBytes) :=
  ⟨fun _ _ => ⟨pending State.reset _, [], rfl⟩, excluded_csr, excluded_dmem Config.dmemBytes_ge Config.dmemBytes_mod,
    unmapped_exists _ _ _⟩

theorem witness_DmemAccessWhileBusy : ∀ e : Event, ∃ (s : State) (j : Job) (d : Bool), s.status.busy = true ∧ s.engine = .busy j d ∧ s.dmem.wf ∧
    s.events = [e] ∧ 0 % 4 = 0 ∧ 0 < Config.dmemBytes := fun e =>
  ⟨pending (good .max) e, _, _, rfl, rfl, blank_wf, rfl, rfl, Nat.lt_of_lt_of_le (by decide) Config.dmemBytes_ge⟩

/-- A completion; that of a word that is no command; V-C3; V-C4; and IRQ_EN set after a completion of either kind. -/
theorem witness_InterruptFollowsCompletion :
    (∃ (i : Instr) (s t : State), s.Inv ∧ exec i s = .next t) ∧
    (∃ (s s0 t : State) (j : Job) (d : Bool), s.Inv ∧ EngineMoves s s0 ∧ s.engine = .busy j d ∧ step s = .next t ∧
      decode j.word = .error .reservedBits) ∧
    (∃ (s s0 : State) (v : Word), HostWrites s s0 0x008 v ∧ v &&& 0x006 = 0x006) ∧
    (∃ (s s0 : State) (v : Word), HostWrites s s0 0x004 v ∧ v.getLsbD 0 = false) ∧
    ∀ st ∈ [{ Status.reset with done := true }, { Status.reset with err := true, errcode := 6 }], ∃ (s s0 : State) (v : Word),
      HostWrites s s0 0x004 v ∧ v.getLsbD 1 = false ∧ v.getLsbD 0 = true ∧ (s.status.done = true ∨ s.status.err = true) := by
  refine ⟨⟨.nop, good .nop, _, good_inv _, exec_busy (running_engine .nop _ _) .nop⟩,
    ⟨State.reset.accept 0x200, _, _, _, _, (State.Inv.of_resetRegisters (s := State.reset) blank_wf blank_inRange).accept _,
      .inl ⟨rfl, rfl⟩, rfl, rfl, by decide⟩,
    ⟨_, _, 0x106, host_writes State.reset _ _, by decide⟩, ⟨_, _, 0, host_writes State.reset _ _, by decide⟩, ?_⟩
  intro st hst
  refine ⟨pending { State.reset with status := st } (csrWrite 0x004 1), _, 1, host_writes _ _ _, by decide, by decide, ?_⟩
  show st.done = true ∨ st.err = true
  revert st
  decide

theorem witness_EveryCommandCompletes (i : Instr) : ∃ (s : State) (j : Job) (d : Bool), s.engine = .busy j d ∧ ∃ (t : State), exec i s = .next t :=
  ⟨good i, _, _, rfl, (good_runs i).2.2.2.2.2⟩

theorem witness_CommandsWriteOnlyTheirRegions (i : Instr) : ∃ (s t : State) (j : Job) (d : Bool) (a : Nat), s.dmem.wf ∧ s.engine = .busy j d ∧
    exec i s = .next t ∧ inRegion (dstRegion i j.latched) a = false ∧ inRegion (auxRegion i j.latched) a = false := by
  refine ⟨good i, _, _, _, 0xFFFF, blank_wf, rfl, exec_busy (running_engine i _ _) i, ?_, ?_⟩
  all_goals
    cases i with
    | lsbEmbed g => cases g <;> decide
    | fftEmbed g => cases g <;> decide
    | _ => decide

/-- A command that fails, and a word that is no command. -/
theorem witness_FailedCommandChangesNothingElse :
    (∃ (s s0 t : State) (j : Job), s.Inv ∧ EngineMoves s s0 ∧ s.engine = .busy j false ∧ step s = .next t ∧ t.status.err = true) ∧
    ∃ (s s0 t : State) (j : Job), s.Inv ∧ EngineMoves s s0 ∧ s.engine = .busy j false ∧ step s = .next t ∧ t.status.err = true ∧
      decode j.word = .error .reservedBits :=
  ⟨⟨good .fftExtract, _, _, _, good_inv _, .inl ⟨rfl, rfl⟩, rfl, rfl, rfl⟩,
    ⟨State.reset.accept 0x200, _, _, _, (State.Inv.of_resetRegisters (s := State.reset) blank_wf blank_inRange).accept _,
      .inl ⟨rfl, rfl⟩, rfl, rfl, rfl, by decide⟩⟩

/-- Extents and sides of 0 and 65536, NCHAN of 0, 1 and 256, and LEN = 0. -/
theorem witness_BadShapeFailsWithDimensionMismatch :
    (∀ o i, ∃ (s : State) (j : Job) (d : Bool), s.engine = .busy j d ∧ j.latched = o ∧ j.word = encode i) ∧
    (∀ v ∈ ([0, 65536] : List Word), BadShape .tileIndex { goodOps 1 with tileL := v } ∧
      BadShape .tileMap { goodOps 1 with width := v } ∧ BadShape .tileMap { goodOps 1 with height := v } ∧
      BadShape (.lsbEmbed true) { goodOps 1 with tileL := v } ∧ BadShape .fft2 { goodOps 1 with width := v }) ∧
    BadShape (.lsbEmbed false) { goodOps 1 with nchan := 1 } ∧ BadShape .lsbExtract { goodOps 1 with nchan := 4 } ∧
    BadShape (.fftEmbed true) { goodOps 1 with nchan := 1 } ∧ BadShape .fft2 { goodOps 1 with nchan := 0 } ∧
    BadShape .ifft2 { goodOps 1 with nchan := 256 } ∧ BadShape .max (goodOps 0) ∧ BadShape .normalize (goodOps 0) := by
  refine ⟨fun o i => ⟨running i o blank, _, _, rfl, rfl, rfl⟩, ?_, ?_⟩
  · intro v hv
    simp only [List.mem_cons, List.not_mem_nil, or_false] at hv
    rcases hv with rfl | rfl <;> refine ⟨?_, ?_, ?_, ?_, ?_⟩ <;> simp [BadShape, goodOps]
  · refine ⟨?_, ?_, ?_, ?_, ?_, ?_, ?_⟩ <;> simp [BadShape, goodOps]

/-- LSB_EXTRACT whose last source byte is its first destination byte. -/
def overlapOps : Operands := { goodOps 0 with dst := 0x8002 }

/-- QR_ENCODE whose last destination byte is one past the end of DMEM. -/
def longOps : Operands := { goodOps 0 with dst := BitVec.ofNat 32 (Config.dmemBytes - 31328) }

theorem overlap_regions : srcRegion .lsbExtract overlapOps = some { base := 0x8000, size := 3, align := 1 } ∧
    dstRegion .lsbExtract overlapOps = some { base := 0x8002, size := 1, align := 1 } := by decide

theorem long_misfit {r : Region} (hb : r.base = longOps.dst.toNat) (hs : r.size = 31329) : ¬ Fits r.base r.size r.align := by
  rintro ⟨-, h⟩
  have hge := Config.dmemBytes_ge
  have hle := Config.dmemBytes_le
  unfold longOps at hb
  rw [BitVec.toNat_ofNat] at hb
  revert hb h hge hle
  rw [hs]
  generalize Config.dmemBytes = n
  intro hb h hge hle
  rw [Nat.mod_eq_of_lt (by omega)] at hb
  omega

/-- A misaligned base (V-N20), a region one byte too long (V-Q8), and an overlap of one byte (V-L17). -/
theorem witness_BadRegionsFailWithBadAddress :
    (∃ (s : State) (j : Job) (d : Bool), s.engine = .busy j d ∧ ¬ BadShape .max j.latched ∧ BadRegions .max j.latched) ∧
    (∃ (s : State) (j : Job) (d : Bool), s.engine = .busy j d ∧ ¬ BadShape .qrEncode j.latched ∧ BadRegions .qrEncode j.latched) ∧
    ∃ (s : State) (j : Job) (d : Bool), s.engine = .busy j d ∧ ¬ BadShape .lsbExtract j.latched ∧ BadRegions .lsbExtract j.latched := by
  refine ⟨⟨running .max { goodOps 1 with src := 4 } blank, _, _, running_engine _ _ _,
      (show ¬ BadShape .max { goodOps 1 with src := 4 } by simp [BadShape, goodOps]), .inl ⟨_, .inl rfl, fun h => ?_⟩⟩,
    ⟨running .qrEncode longOps blank, _, _, running_engine _ _ _, fun h => h,
      .inl ⟨_, .inr (.inl rfl), fun h => ?_⟩⟩,
    ⟨running .lsbExtract overlapOps blank, _, _, running_engine _ _ _,
      (show ¬ BadShape .lsbExtract overlapOps by simp [BadShape, overlapOps, goodOps, Operands.reset]),
      .inr (.inl ⟨_, _, overlap_regions.1, overlap_regions.2, ?_, ?_⟩)⟩⟩
  · exact absurd h.1 (by decide)
  · refine long_misfit ?_ ?_ h
    · rfl
    · show Config.gridSide * Config.gridSide = 31329
      rfl
  · decide
  · rintro ⟨h | h, _⟩ <;> cases h

/-- One byte more than any capacity the model allows, on each of the three commands that take a payload. -/
theorem witness_LongPayloadFailsWithPayloadTooLarge :
    ∀ i ∈ [Instr.qrEncode, .lsbEmbed false, .fftEmbed false], ∃ (s : State) (j : Job) (d : Bool), s.engine = .busy j d ∧ ¬ BadShape i j.latched ∧
      ¬ BadRegions i j.latched ∧ takesPayload i = true ∧ Config.qrCapacity < j.latched.len.toNat := by
  intro i hi
  have hc : checks i (goodOps 3917) = .ok () ∧ takesPayload i = true := by
    simp only [List.mem_cons, List.not_mem_nil, or_false] at hi
    rcases hi with rfl | rfl | rfl <;> exact ⟨checks_of_low (by decide), rfl⟩
  obtain ⟨hc, ht⟩ := hc
  exact ⟨running i (goodOps 3917) blank, _, _, rfl, (checks_ok_iff.1 hc).1, (checks_ok_iff.1 hc).2, ht,
    Nat.lt_succ_of_le Config.qrCapacity_le⟩

theorem witness_EngineNeverWritesOperands : ∃ s t : State, (∀ width addr v rest, s.events ≠ .write width addr v :: rest) ∧
    (∀ rest, s.events ≠ .powerOn :: rest) ∧ step s = .next t :=
  ⟨good .nop, _, (fun _ _ _ _ h => by cases h), (fun _ h => by cases h), exec_busy (running_engine .nop _ _) .nop⟩

/-- TILE_INDEX of V-T1 on a machine whose RESULT is 0. -/
theorem witness_ResultChangesOnlyByTileIndexOrMax : ∃ s t : State, step s = .next t ∧ ¬ SameResult s t := by
  refine ⟨good .tileIndex, _, exec_busy (running_engine .tileIndex _ _) .tileIndex, fun h => ?_⟩
  have h1 := h.1
  rw [complete_resultLo] at h1
  exact absurd h1 (by decide +kernel)

/-- Two machines that differ in CTRL, in the read data and in a byte outside the command's regions. -/
theorem witness_CommandsReadOnlyTheirRegions (i : Instr) (hn : i ≠ .normalize) (hi : i ≠ .ifft2) :
    ∃ (s1 s2 t1 t2 : State) (j1 j2 : Job), i ≠ .normalize ∧ i ≠ .ifft2 ∧ s1.dmem.wf ∧ s2.dmem.wf ∧ s1.engine = .busy j1 false ∧
    s2.engine = .busy j2 false ∧ j1.latched = j2.latched ∧
    (∀ a, inRegion (srcRegion i j1.latched) a = true ∨ inRegion (dstRegion i j1.latched) a = true →
      j1.snap.readByte a = j2.snap.readByte a) ∧
    (∀ a, inRegion (dstRegion i j1.latched) a = true → s1.byte a = s2.byte a) ∧
    s1.status = s2.status ∧ s1.resultLo = s2.resultLo ∧ s1.resultHi = s2.resultHi ∧
    exec i s1 = .next t1 ∧ exec i s2 = .next t2 ∧ s1.irqEn ≠ s2.irqEn ∧ s1.dmem.readByte 0xFFFF ≠ s2.dmem.readByte 0xFFFF := by
  have hout : inRegion (srcRegion i (goodOps (goodLen i))) 0xFFFF = false ∧
      inRegion (dstRegion i (goodOps (goodLen i))) 0xFFFF = false := by
    cases i with
    | lsbEmbed g => cases g <;> exact ⟨by decide, by decide⟩
    | fftEmbed g => cases g <;> exact ⟨by decide, by decide⟩
    | _ => exact ⟨by decide, by decide⟩
  let m := blank.writeByte 0xFFFF (~~~ blank.readByte 0xFFFF)
  have hm : ∀ a, (inRegion (srcRegion i (goodOps (goodLen i))) a = true ∨
      inRegion (dstRegion i (goodOps (goodLen i))) a = true) → blank.readByte a = m.readByte a := by
    intro a ha
    rw [readByte_writeByte blank_wf, if_neg]
    rintro rfl
    rw [hout.1, hout.2] at ha
    simp at ha
  refine ⟨good i, { running i (goodOps (goodLen i)) m with irqEn := true, readData := 5 }, _, _, _, _, hn, hi, blank_wf,
    writeByte_wf blank_wf _ _, rfl, rfl, rfl, fun a ha => hm a ha, fun a ha => hm a (.inr ha), rfl, rfl, rfl,
    exec_busy (running_engine i _ _) i, exec_busy rfl i, (show false ≠ true by decide), ?_⟩
  show blank.readByte 0xFFFF ≠ m.readByte 0xFFFF
  rw [readByte_writeByte blank_wf, if_pos rfl]
  generalize blank.readByte 0xFFFF = b
  revert b
  decide

theorem witness_NopOnlyCompletes : Runs .nop (good .nop) (goodJob .nop) := good_runs _

/-- The two sides of QR_CAPACITY: an empty payload, and 3917 bytes. -/
theorem witness_GridSourceOfBothForms : (∃ j : Job, j.latched.len.toNat ≤ Config.qrCapacity) ∧
    ∃ j : Job, Config.qrCapacity < j.latched.len.toNat :=
  ⟨⟨goodJob .qrEncode, Nat.zero_le _⟩, ⟨jobOf .qrEncode (goodOps 3917) blank, Nat.lt_succ_of_le Config.qrCapacity_le⟩⟩

theorem witness_QrEncodeWritesTheGrid : Runs .qrEncode (good .qrEncode) (goodJob .qrEncode) := good_runs _

/-- The smallest and the largest side. -/
theorem witness_TileIndexWritesTheIndex : ∀ l ∈ ([1, 65535] : List Word), ∃ (s : State) (j : Job) (d : Bool), s.engine = .busy j d ∧
    j.latched.tileL = l ∧ LegalSide j.latched.tileL.toNat := by
  intro l hl
  refine ⟨running .tileIndex { goodOps 0 with tileL := l } blank, _, _, rfl, rfl, ?_⟩
  show LegalSide l.toNat
  simp only [List.mem_cons, List.not_mem_nil, or_false] at hl
  rcases hl with rfl | rfl <;> decide

theorem witness_TileMapWritesTheMap : Runs .tileMap (good .tileMap) (goodJob .tileMap) := good_runs _

theorem witness_LsbEmbedReplacesBitZero (g : Bool) : Runs (.lsbEmbed g) (good (.lsbEmbed g)) (goodJob (.lsbEmbed g)) :=
  good_runs _

theorem witness_LsbExtractWritesTheRedPlane : Runs .lsbExtract (good .lsbExtract) (goodJob .lsbExtract) := good_runs _

theorem witness_FftEmbedRunsTheEightSteps (g : Bool) : Runs (.fftEmbed g) (good (.fftEmbed g)) (goodJob (.fftEmbed g)) :=
  good_runs _

theorem witness_FftExtractRaisesUnimplemented : Runs .fftExtract (good .fftExtract) (goodJob .fftExtract) ∧
    (good .fftExtract).status.ovr = false := ⟨good_runs _, rfl⟩

theorem witness_MaxWritesTheMaximum : Runs .max (good .max) (goodJob .max) := good_runs _

theorem ready_array (i : Instr) (h : i = .max ∨ i = .normalize) {vals : List F64} (h0 : vals ≠ [])
    (hl : vals.length ≤ 8192) : Ready i (arrayOps vals) := by
  have hlen : (BitVec.ofNat 32 vals.length).toNat = vals.length := by
    rw [BitVec.toNat_ofNat, Nat.mod_eq_of_lt (by omega)]
  have hpos : vals.length ≠ 0 := fun h => h0 (List.length_eq_zero_iff.1 h)
  rcases h with rfl | rfl <;>
  · refine ready_of_low ?_ (fun h => by cases h)
    simp [lowChecks, dimChecks, lowRegion, srcRegion, dstRegion, auxRegion, apart, arrayOps, Operands.reset, hlen, require, hpos]
    omega

/-- MAX or NORMALIZE about to run on an array. -/
theorem array_runs (i : Instr) (h : i = .max ∨ i = .normalize) {vals : List F64} (h0 : vals ≠ [])
    (hl : vals.length ≤ 8192) : ∃ (s : State) (j : Job), s.engine = .busy j false ∧ s.dmem.wf ∧ Ready i j.latched ∧ j.latched = arrayOps vals ∧
      j.snap = floats vals ∧ j.f64Array j.latched.dst.toNat = vals ∧ j.f64Array j.latched.src.toNat = vals :=
  ⟨running i (arrayOps vals) (floats vals), _, rfl, floats_wf vals, ready_array i h h0 hl, rfl, rfl,
    array_of_floats i (by omega), array_of_floats i (by omega)⟩

theorem witness_NormalizeRescalesInPlace : ∃ (s : State) (j : Job) (m : F64), s.engine = .busy j false ∧ s.dmem.wf ∧ Ready .normalize j.latched ∧
    fmax (j.f64Array j.latched.dst.toNat) = some m ∧ F64.isFinite m = true ∧ F64.isZero m = false := by
  obtain ⟨s, j, h1, h2, h3, _, _, h6, _⟩ := array_runs .normalize (.inr rfl)
    (vals := [0xBFF0000000000000, 0xC010000000000000]) (by decide) (by decide)
  exact ⟨s, j, 0xBFF0000000000000, h1, h2, h3, by rw [h6]; decide +kernel, by decide, by decide⟩

theorem witness_Fft2TransformsEachChannel : Runs .fft2 (good .fft2) (goodJob .fft2) := good_runs _

theorem witness_Ifft2TransformsEachChannel : Runs .ifft2 (good .ifft2) (goodJob .ifft2) := good_runs _

theorem witness_TileRangePeriodAndBijection : ∃ l x y k : Nat, 1 ≤ l ∧ x < l ∧ y < l ∧ k < l * l := ⟨1, 0, 0, 0, by decide⟩

theorem witness_LsbEmbedPerturbsOnlyBitZeroAndIsIdempotent (g : Bool) :
    Runs (.lsbEmbed g) (good (.lsbEmbed g)) (goodJob (.lsbEmbed g)) := good_runs _

/-- LSB_EMBED.G of a 1 x 1 symbol into a 2 x 2 image at 0. -/
def embedOps : Operands := { goodOps 0 with tileL := 1, width := 2, height := 2 }

/-- LSB_EXTRACT of that image. -/
def extractOps : Operands := { embedOps with src := 0, dst := 0x100 }

/-- QR_ENCODE of an empty payload at 0x7FF8. -/
def encodeOps : Operands := { goodOps 0 with src := 0x7FF8, dst := 0x8000 }

/-- An embedding command on that payload. -/
def payloadOps : Operands := { goodOps 0 with src := 0x7FF8 }

theorem low_embed : lowChecks (.lsbEmbed true) embedOps = true := by decide +kernel

theorem low_extract : lowChecks .lsbExtract extractOps = true := by decide +kernel

theorem low_encode : lowChecks .qrEncode encodeOps = true := by decide +kernel

theorem low_payload : ∀ i ∈ [Instr.lsbEmbed false, .fftEmbed false], lowChecks i payloadOps = true := by
  decide +kernel

theorem low_direct : ∀ i ∈ [Instr.lsbEmbed true, .fftEmbed true], lowChecks i (goodOps 0) = true := by decide +kernel

/-- LSB_EMBED of a direct grid, then LSB_EXTRACT of what it wrote, on the same DMEM; the last period on each axis. -/
theorem witness_LsbBitPlaneRoundTrip : ∃ (g : Bool) (grid : Nat → Bool) (s1 t1 s2 t2 : State) (j1 j2 : Job),
    s1.engine = .busy j1 false ∧ s1.dmem.wf ∧ Ready (.lsbEmbed g) j1.latched ∧ gridSource g j1 = .ok grid ∧
    exec (.lsbEmbed g) s1 = .next t1 ∧
    s2.engine = .busy j2 false ∧ s2.dmem.wf ∧ Ready .lsbExtract j2.latched ∧ j2.snap = t1.dmem ∧
    j2.latched.src = j1.latched.dst ∧ j2.latched.width = j1.latched.width ∧ j2.latched.height = j1.latched.height ∧
    exec .lsbExtract s2 = .next t2 ∧
    0 + j1.latched.tileL.toNat < j1.latched.width.toNat ∧ 0 + j1.latched.tileL.toNat < j1.latched.height.toNat := by
  obtain ⟨m, hm, hmem⟩ : ∃ m : Memory, m.wf ∧ m = ((running (.lsbEmbed true) embedOps blank).complete (.lsbEmbed true)
      (jobOf (.lsbEmbed true) embedOps blank) false (outOf (.lsbEmbed true) (jobOf (.lsbEmbed true) embedOps blank))).dmem := by
    refine ⟨_, ?_, rfl⟩
    rw [complete_dmem]
    exact writeCells_wf (writtenBy_wf blank_wf _) _
  exact ⟨true, _, running (.lsbEmbed true) embedOps blank, _, running .lsbExtract extractOps m, _,
    jobOf (.lsbEmbed true) embedOps blank, jobOf .lsbExtract extractOps m, running_engine _ _ _, blank_wf,
    ready_of_low low_embed (fun h => by cases h), rfl, exec_busy (running_engine (.lsbEmbed true) _ _) _,
    running_engine _ _ m, hm, ready_of_low low_extract (fun h => by cases h), hmem, rfl, rfl, rfl,
    exec_busy (running_engine .lsbExtract _ m) _, by decide, by decide⟩

/-- The two pairs of commands, on an empty payload at 0x7FF8 and its grid at 0x8000. -/
theorem witness_PayloadAndGridFormsAgree : ∀ q ∈ [(Instr.lsbEmbed false, Instr.lsbEmbed true), (.fftEmbed false, .fftEmbed true)],
    ∃ (s0 t0 s1 s2 t1 t2 : State) (j0 j1 j2 : Job),
    s0.engine = .busy j0 false ∧ s0.dmem.wf ∧ j0.snap = s0.dmem ∧ Ready .qrEncode j0.latched ∧ exec .qrEncode s0 = .next t0 ∧
    s1.engine = .busy j1 false ∧ s1.dmem = s0.dmem ∧ j1.snap = s0.dmem ∧ Ready q.1 j1.latched ∧
    j1.latched.src = j0.latched.src ∧ j1.latched.len = j0.latched.len ∧
    s2.engine = .busy j2 false ∧ s2.dmem = t0.dmem ∧ j2.snap = t0.dmem ∧ Ready q.2 j2.latched ∧
    j2.latched.src = j0.latched.dst ∧ j2.latched.tileL = 177 ∧ j2.latched.dst = j1.latched.dst ∧
    j2.latched.width = j1.latched.width ∧ j2.latched.height = j1.latched.height ∧ s1.status = s2.status ∧
    exec q.1 s1 = .next t1 ∧ exec q.2 s2 = .next t2 := by
  intro q hq
  have hr : Ready q.1 payloadOps ∧ Ready q.2 (goodOps 0) := by
    simp only [List.mem_cons, List.not_mem_nil, or_false] at hq
    rcases hq with rfl | rfl <;>
      exact ⟨ready_of_low (low_payload _ (by simp)) fun _ => rfl, ready_of_low (low_direct _ (by simp)) fun _ => rfl⟩
  obtain ⟨m, hm⟩ : ∃ m : Memory, m = ((running .qrEncode encodeOps blank).complete .qrEncode (jobOf .qrEncode encodeOps blank)
      false (outOf .qrEncode (jobOf .qrEncode encodeOps blank))).dmem := ⟨_, rfl⟩
  exact ⟨running .qrEncode encodeOps blank, _, running q.1 payloadOps blank, running q.2 (goodOps 0) m, _, _,
    jobOf .qrEncode encodeOps blank, jobOf q.1 payloadOps blank, jobOf q.2 (goodOps 0) m, running_engine _ _ _, blank_wf, rfl,
    ready_of_low low_encode (fun _ => rfl), exec_busy (running_engine .qrEncode _ _) _, running_engine _ _ _, rfl, rfl, hr.1,
    rfl, rfl, running_engine _ _ _, hm, hm, hr.2, rfl, rfl, rfl, rfl, rfl, rfl,
    exec_busy (running_engine q.1 _ _) _, exec_busy (running_engine q.2 _ _) _⟩

/-- V-N3: the first of two equal maxima; V-N5: none. -/
theorem witness_FmaxIsTheFirstLargestElement : (∃ a m, fmax a = some m ∧ a.length = 2) ∧ ∃ a, fmax a = none ∧ a.length = 2 :=
  ⟨⟨[0x8000000000000000, 0], 0x8000000000000000, by decide⟩, ⟨[F64.qNaN, F64.qNaN], by decide⟩⟩

theorem witness_FmaxByAnyPartition : ∃ a b : F64, F64.isNaN a = false ∧ F64.isNaN b = false ∧ F64.gt a b = false ∧
    F64.gt b a = false ∧ F64.isZero a = false := ⟨F64.one, F64.one, by decide⟩

/-- V-N19, V-N5, V-N2, V-N17, V-N16 and V-N18. -/
theorem witness_EmptyAndDegenerateArrays :
    (∀ i ∈ [Instr.max, .normalize], ∃ (s : State) (j : Job) (d : Bool), s.engine = .busy j d ∧ j.latched.len = 0 ∧ j.word = encode i) ∧
    (∀ i ∈ [Instr.max, .normalize], ∃ (s : State) (j : Job), s.engine = .busy j false ∧ Ready i j.latched ∧
      (j.f64Array j.latched.src.toNat = [F64.qNaN] ∧ j.f64Array j.latched.dst.toNat = [F64.qNaN])) ∧
    (∃ (s : State) (j : Job), s.engine = .busy j false ∧ Ready .max j.latched ∧ j.f64Array j.latched.src.toNat = [F64.one]) ∧
    ∀ v ∈ [F64.zero false, F64.inf true], ∃ (s : State) (j : Job) (m : F64), s.engine = .busy j false ∧ Ready .normalize j.latched ∧
      fmax (j.f64Array j.latched.dst.toNat) = some m ∧ (F64.isZero m = true ∨ F64.isInf m = true) ∧ m = v := by
  refine ⟨fun i _ => ⟨running i (goodOps 0) blank, _, _, rfl, rfl, rfl⟩, fun i hi => ?_, ?_, fun v hv => ?_⟩
  · have hi' : i = .max ∨ i = .normalize := by simpa using hi
    obtain ⟨s, j, h1, _, h3, _, _, h6, h7⟩ := array_runs i hi' (vals := [F64.qNaN]) (by decide) (by decide)
    exact ⟨s, j, h1, h3, h7, h6⟩
  · obtain ⟨s, j, h1, _, h3, _, _, _, h7⟩ := array_runs .max (.inl rfl) (vals := [F64.one]) (by decide) (by decide)
    exact ⟨s, j, h1, h3, h7⟩
  · obtain ⟨s, j, h1, _, h3, _, _, h6, _⟩ := array_runs .normalize (.inr rfl) (vals := [v]) (by simp) (by simp)
    refine ⟨s, j, v, h1, h3, ?_, ?_, rfl⟩
    · rw [h6]
      simp only [List.mem_cons, List.not_mem_nil, or_false] at hv
      rcases hv with rfl | rfl <;> decide
    · simp only [List.mem_cons, List.not_mem_nil, or_false] at hv
      rcases hv with rfl | rfl <;> decide

theorem witness_NormalizedMaximumIsTheFactor : ∃ (a : List F64) (m f : F64), fmax a = some m ∧ F64.isFinite m = true ∧
    F64.isZero m = false ∧ F64.gt m (F64.zero false) = true ∧ F64.isFinite f = true ∧ F64.isNaN f = false ∧
    F64.gt f (F64.zero false) = true := ⟨[F64.one], F64.one, F64.twoFiftyFive, by decide⟩

/-- V-N1. -/
theorem witness_NormalizeWorkedExample : ∃ (s : State) (j : Job), s.engine = .busy j false ∧ s.dmem.wf ∧ Ready .normalize j.latched ∧
    j.latched.len = 3 ∧ j.latched.factor = 0x406FE00000000000 ∧
    j.snap.readF64 j.latched.dst.toNat = 0x3FF0000000000000 ∧ j.snap.readF64 (j.latched.dst.toNat + 8) = 0x4000000000000000 ∧
    j.snap.readF64 (j.latched.dst.toNat + 16) = 0x4010000000000000 := by
  obtain ⟨s, j, h1, h2, h3, h4, h5, _, _⟩ := array_runs .normalize (.inr rfl)
    (vals := [0x3FF0000000000000, 0x4000000000000000, 0x4010000000000000]) (by decide) (by decide)
  refine ⟨s, j, h1, h2, h3, by rw [h4]; rfl, by rw [h4]; decide, ?_, ?_, ?_⟩ <;> rw [h4, h5]
  · exact readF64_floats _ (k := 0) (by decide)
  · exact readF64_floats _ (k := 1) (by decide)
  · exact readF64_floats _ (k := 2) (by decide)

theorem witness_TransformsAreTwoPassesAxisOneFirst : ∃ w h u v : Nat, u < w ∧ v < h := ⟨3, 2, 2, 1, by decide⟩

theorem witness_KernelSpecialValues : F64.isZero (F64.zero true) = true ∧ ∃ v z n : F64, F64.isNaN v = false ∧ F64.isZero z = true ∧
    F64.gt v (F64.zero false) = true ∧ F64.isNaN n = true ∧ F64.isInf (F64.inf true) = true ∧
    C64.hasNaN { re := n, im := z } = true := ⟨by decide, F64.one, F64.zero true, F64.qNaN, by decide⟩

theorem witness_SmallTransformExamples : ∃ z : C64, C64.hasNaN z = false := ⟨{ re := F64.inf true, im := F64.zero true }, by decide⟩

/-- FFT2 of the array at 0. -/
def forwardOps : Operands := { goodOps 1 with src := 0, dst := 0x100 }

/-- IFFT2 of its result. -/
def backwardOps : Operands := { goodOps 1 with src := 0x100, dst := 0x200 }

theorem low_forward : lowChecks .fft2 forwardOps = true := by decide +kernel

theorem low_backward : lowChecks .ifft2 backwardOps = true := by decide +kernel

theorem toRat_one : F64.toRat F64.one = 1 := by
  rw [toRat_eq, show F64.units F64.one = 2 ^ 1074 by decide +kernel, show F64.sign F64.one = false by decide,
    if_neg Bool.false_ne_true, one_mul, Nat.cast_pow, Nat.cast_ofNat, div_self (pow_ne_zero _ two_ne_zero)]

/-- The 1 x 1 array of the value 1 has room. -/
theorem hasRoom_one {a : Nat → Nat → F64} (h : a 0 0 = F64.one) :
    (∀ x < 1, ∀ y < 1, F64.isFinite (a x y) = true) ∧ RoundTripHasRoom 1 1 a := by
  constructor <;> intro x hx y hy <;> (obtain rfl : x = 0 := by omega) <;> (obtain rfl : y = 0 := by omega) <;> rw [h]
  · decide
  · have h1 : (1 : ℚ) ≤ 2 ^ 1023 := one_le_pow₀ one_le_two
    rw [toRat_one, abs_one, Nat.cast_one, one_mul, one_mul]
    exact ⟨lt_trans (by norm_num) overflow_gt.1, fun _ _ => h1⟩

/-- A 3 x 1 array of 2^1022, three quarters of the range once it is multiplied by W*H, has room (R177; log 28). -/
theorem test_room_near_overflow : RoundTripHasRoom 3 1 fun _ _ => 0x7FD0000000000000 := by
  intro x _ y _
  have hu : F64.units 0x7FD0000000000000 = 2 ^ 1022 * 2 ^ 1074 := by decide +kernel
  have hs : F64.sign 0x7FD0000000000000 = false := by decide
  have hp : (0 : ℚ) ≤ 2 ^ 1022 := by positivity
  have ht : F64.toRat 0x7FD0000000000000 = 2 ^ 1022 := by
    rw [toRat_eq, hs, hu, Nat.cast_mul, Nat.cast_pow, Nat.cast_pow, Nat.cast_ofNat, if_neg Bool.false_ne_true, one_mul,
      mul_div_cancel_right₀ _ (pow_ne_zero _ two_ne_zero)]
  rw [ht, abs_of_nonneg hp]
  refine ⟨lt_of_le_of_lt (le_of_eq ?_) overflow_gt.2, fun h => absurd h (by norm_num)⟩
  rw [show (2 : ℚ) ^ 1023 = 2 * 2 ^ 1022 by rw [← pow_succ']]
  push_cast
  ring

/-- Integers of both signs at the bound; and FFT2, then IFFT2, of the value 1 on one DMEM. -/
theorem witness_SmallIntegerTransformsRoundTrip :
    (∃ (w h : Nat) (a : Nat → Nat → ℤ), (w = 1 ∨ w = 2) ∧ (h = 1 ∨ h = 2) ∧ (∀ x y, |a x y| < 2 ^ 40) ∧
      ∃ x y, x < w ∧ y < h ∧ a x y = -(2 ^ 40 - 1)) ∧
    ∃ (c : Nat) (s1 t1 s2 t2 : State) (j1 j2 : Job),
      s1.engine = .busy j1 false ∧ s1.dmem.wf ∧ Ready .fft2 j1.latched ∧ exec .fft2 s1 = .next t1 ∧
      s2.engine = .busy j2 false ∧ s2.dmem.wf ∧ Ready .ifft2 j2.latched ∧ j2.snap = t1.dmem ∧
      j2.latched.src = j1.latched.dst ∧ j2.latched.width = j1.latched.width ∧ j2.latched.height = j1.latched.height ∧
      j2.latched.nchan = j1.latched.nchan ∧ exec .ifft2 s2 = .next t2 ∧ c < j1.latched.nchan.toNat ∧
      j1.latched.width = 1 ∧ j1.latched.height = 1 ∧ (j1.snap.readC64 0).im = F64.zero false ∧
      let a := fun x y => (j1.snap.readC64 (16 * ((x * 1 + y) * 3 + c))).re
      (∀ x < 1, ∀ y < 1, F64.isFinite (a x y) = true) ∧ RoundTripHasRoom 1 1 a := by
  refine ⟨⟨2, 2, fun _ _ => -(2 ^ 40 - 1), .inr rfl, .inr rfl, fun _ _ => by norm_num, 1, 1, by decide⟩, ?_⟩
  obtain ⟨m1, hm1, hre, him⟩ : ∃ m1 : Memory, m1.wf ∧ m1.readF64 0 = F64.one ∧ m1.readF64 8 = F64.zero false :=
    ⟨floats [F64.one, F64.zero false], floats_wf _, readF64_floats _ (k := 0) (by decide), readF64_floats _ (k := 1) (by decide)⟩
  obtain ⟨m, hm, hmem⟩ : ∃ m : Memory, m.wf ∧ m = ((running .fft2 forwardOps m1).complete .fft2
      (jobOf .fft2 forwardOps m1) false (outOf .fft2 (jobOf .fft2 forwardOps m1))).dmem := by
    refine ⟨_, ?_, rfl⟩
    rw [complete_dmem]
    exact writeCells_wf (writtenBy_wf hm1 _) _
  exact ⟨0, running .fft2 forwardOps m1, _, running .ifft2 backwardOps m, _, jobOf .fft2 forwardOps m1,
    jobOf .ifft2 backwardOps m, running_engine _ _ _, hm1, ready_of_low low_forward (fun h => by cases h),
    exec_busy (running_engine .fft2 _ _) _, running_engine _ _ m, hm, ready_of_low low_backward (fun h => by cases h), hmem,
    rfl, rfl, rfl, rfl, exec_busy (running_engine .ifft2 _ m) _,
    (show 0 < (3 : Word).toNat by decide), rfl, rfl, him, hasRoom_one hre⟩

theorem witness_ArithmeticRoundsToNearestEven : ∃ a b : F64, F64.isFinite a = true ∧ F64.isFinite b = true ∧
    F64.isZero b = false := ⟨F64.one, 0x0000000000000001, by decide⟩

/-- A finite value, a NaN, both infinities; and an image that is degenerate whatever Num is (V-E8). -/
theorem witness_EmbeddedSamplesAreRoundedAndOneIsWhite :
    (F64.isFinite F64.one = true ∧ F64.isNaN F64.qNaN = true ∧ F64.isInf (F64.inf false) = true ∧
      F64.isInf (F64.inf true) = true) ∧
    embedPixels (fun _ _ => 0) (fun _ => true) 2 2 1 (List.replicate 12 0x00) = .error .degenerateNormalization :=
  ⟨by decide, test_fftEmbed_black⟩

end Sys2Proof.Tests
end

section
/-! PROOFS, 00_scope.md. The bytes of a little-endian host access of DMEM (R12, R60, R61), and the rounding of the four
operations (R14). -/

namespace Sys2Proof.Machine

/-! ### Little-endian data -/

/-- Byte `k` of a word, counted from the least significant. -/
theorem extractByte_eq (v : Word) (k : Nat) : v.extractLsb' (8 * k) 8 = BitVec.ofNat 8 (v.toNat / 256 ^ k) := by
  rw [BitVec.extractLsb', Nat.shiftRight_eq_div_pow, Nat.pow_mul]

/-- The first four bytes of a number survive in the word made of it. -/
theorem extractByte_ofNat (n : Nat) {k : Nat} (hk : k < 4) :
    (BitVec.ofNat 32 n).extractLsb' (8 * k) 8 = BitVec.ofNat 8 (n / 256 ^ k) := by
  rw [extractByte_eq, BitVec.toNat_ofNat]
  apply BitVec.eq_of_toNat_eq
  rw [BitVec.toNat_ofNat, BitVec.toNat_ofNat]
  interval_cases k <;> omega

/-- `leBytes` stores the bytes of a number, least significant first. -/
theorem leBytes_getD {n k : Nat} (v : Nat) (hk : k < n) : (leBytes n v).getD k 0 = BitVec.ofNat 8 (v / 256 ^ k) := by
  induction n generalizing k v with
  | zero => omega
  | succ n ih =>
    cases k with
    | zero => simp [leBytes]
    | succ k => rw [leBytes, List.getD_cons_succ, ih _ (by omega), Nat.div_div_eq_div_mul, Nat.pow_succ']

/-- The bytes of a number read from DMEM are those at its addresses, and 0 above its width. -/
theorem readLE_byte (m : Memory) (a n k : Nat) :
    BitVec.ofNat 8 (m.readLE a n / 256 ^ k) = if k < n then m.readByte (a + k) else 0 := by
  induction n generalizing a k with
  | zero => simp [Memory.readLE]
  | succ n ih =>
    have hb : (m.readByte a).toNat < 256 := (m.readByte a).isLt
    rw [Memory.readLE]
    cases k with
    | zero =>
      apply BitVec.eq_of_toNat_eq
      simp only [BitVec.toNat_ofNat, Nat.pow_zero, Nat.div_one, Nat.zero_lt_succ, if_true, Nat.add_zero]
      omega
    | succ k =>
      have hdiv : ((m.readByte a).toNat + 256 * m.readLE (a + 1) n) / 256 = m.readLE (a + 1) n := by omega
      rw [Nat.pow_succ', ← Nat.div_div_eq_div_mul, hdiv, ih, Nat.add_assoc, Nat.add_comm 1 k]
      simp only [Nat.add_lt_add_iff_right]

/-! ### Host accesses of DMEM while the engine is Idle -/

/-- The access forms of R61. -/
theorem dmemForm_iff {width a : Nat} :
    dmemForm width a = true ↔ (width = 1 ∨ width = 2 ∨ width = 4) ∧ a % width = 0 := by
  simp [dmemForm, or_assoc]

/-- A host write of a legal form to DMEM is `writeDmem`. -/
theorem busWrite_dmem (s : State) {width a : Nat} (hf : dmemForm width a = true) (ha : a < Config.dmemBytes) (v : Word) :
    s.busWrite width (Config.dmemBase + a) v = .next (s.writeDmem width a v) := by
  simp [State.busWrite, busTarget_dmem ha, hf]

/-- A host read of a legal form of DMEM is `readDmem`. -/
theorem busRead_dmem (s : State) {width a : Nat} (hf : dmemForm width a = true) (ha : a < Config.dmemBytes) :
    s.busRead width (Config.dmemBase + a) = .next (s.readDmem width a) := by
  simp [State.busRead, busTarget_dmem ha, hf]

/-- While BUSY = 0 a DMEM write stores the datum's low bytes. -/
theorem writeDmem_idle {s : State} (hb : s.status.busy = false) (width a : Nat) (v : Word) :
    s.writeDmem width a v = { s with dmem := s.dmem.writeCells (cellsAt a (leBytes width v.toNat)) } := by
  simp [State.writeDmem, hb]

/-- While BUSY = 0 a DMEM read answers the bytes at its addresses. -/
theorem readDmem_idle {s : State} (hb : s.status.busy = false) (width a : Nat) :
    s.readDmem width a = { s with readData := BitVec.ofNat 32 (s.dmem.readLE a width) } := by
  simp [State.readDmem, hb]

theorem step_write {s : State} {width addr : Nat} {v : Word} {rest : List Event}
    (he : s.events = .write width addr v :: rest) :
    step s = ({ s with events := rest }).busWrite width addr v := by
  unfold step; rw [he]

theorem step_read {s : State} {width addr : Nat} {rest : List Event} (he : s.events = .read width addr :: rest) :
    step s = ({ s with events := rest }).busRead width addr := by
  unfold step; rw [he]

/-! ### The four operations as one rounding -/

/-- `r` is `roundUnits` of a quotient of naturals and a sign that together are the exact value `q`. -/
def IsRounded (r : F64) (q : ℚ) : Prop :=
  ∃ (neg : Bool) (num den : Nat), 0 < den ∧ r = F64.roundUnits neg num den ∧
    q = (if neg then -1 else 1) * ((num : ℚ) / den) / 2 ^ 1074

theorem IsRounded.nearestEven {r : F64} {q : ℚ} (h : IsRounded r q) : NearestEven r q := by
  obtain ⟨neg, num, den, hd, rfl, rfl⟩ := h
  exact nearestEven_roundUnits neg num den hd

/-- A zero is the rounding of 0, of either sign. -/
theorem zero_eq_roundUnits (neg : Bool) : F64.zero neg = F64.roundUnits neg 0 1 := by cases neg <;> decide

/-- The sign of a product or a quotient is the exclusive or of the operands'. -/
theorem signs_mul (p q : Bool) :
    (if p then (-1 : ℚ) else 1) * (if q then -1 else 1) = if (p != q) = true then -1 else 1 := by
  cases p <;> cases q <;> simp

theorem add_isRounded (n : NanBits) {a b : F64} (ha : F64.isFinite a = true) (hb : F64.isFinite b = true) :
    IsRounded (F64.add n a b) (F64.toRat a + F64.toRat b) := by
  have hq : F64.toRat a + F64.toRat b = ((F64.signedUnits a + F64.signedUnits b : Int) : ℚ) / 2 ^ 1074 := by
    rw [F64.toRat, F64.toRat, ← add_div, Int.cast_add]
  rw [sum_finite ha hb, hq]
  generalize F64.signedUnits a + F64.signedUnits b = sum
  by_cases h0 : sum = 0
  · exact ⟨F64.sign a && F64.sign b, 0, 1, one_pos, by rw [if_pos h0, zero_eq_roundUnits], by simp [h0]⟩
  · refine ⟨decide (sum < 0), sum.natAbs, 1, one_pos, if_neg h0, ?_⟩
    rw [Nat.cast_natAbs, Nat.cast_one, div_one]
    by_cases hs : sum < 0
    · simp [hs, abs_of_neg hs]
    · simp [hs, abs_of_nonneg (not_lt.1 hs)]

theorem sub_isRounded (n : NanBits) {a b : F64} (ha : F64.isFinite a = true) (hb : F64.isFinite b = true) :
    IsRounded (F64.sub n a b) (F64.toRat a - F64.toRat b) := by
  rw [sub_eq_add_neg, ← toRat_neg]
  exact add_isRounded n ha (by rw [isFinite_neg, hb])

theorem mul_isRounded (n : NanBits) {a b : F64} (ha : F64.isFinite a = true) (hb : F64.isFinite b = true) :
    IsRounded (F64.mul n a b) (F64.toRat a * F64.toRat b) := by
  obtain ⟨hna, hia⟩ := not_nan_of_finite ha
  obtain ⟨hnb, hib⟩ := not_nan_of_finite hb
  refine ⟨F64.sign a != F64.sign b, F64.units a * F64.units b, 2 ^ 1074, Nat.two_pow_pos 1074, ?_, ?_⟩
  · simp only [F64.mul, hna, hia, hnb, hib, Bool.or_self, Bool.false_eq_true, if_false]
  · rw [toRat_eq, toRat_eq, ← signs_mul, Nat.cast_mul, Nat.cast_pow, Nat.cast_ofNat]
    generalize (2 : ℚ) ^ 1074 = unit
    ring

theorem div_isRounded (n : NanBits) {a b : F64} (ha : F64.isFinite a = true) (hb : F64.isFinite b = true)
    (hz : F64.isZero b = false) : IsRounded (F64.div n a b) (F64.toRat a / F64.toRat b) := by
  obtain ⟨hna, hia⟩ := not_nan_of_finite ha
  obtain ⟨hnb, hib⟩ := not_nan_of_finite hb
  refine ⟨F64.sign a != F64.sign b, F64.units a * 2 ^ 1074, F64.units b, units_pos hz, ?_, ?_⟩
  · simp only [F64.div, hna, hia, hnb, hib, hz, Bool.or_self, Bool.false_eq_true, if_false]
  · have hinv : (if F64.sign b then (-1 : ℚ) else 1)⁻¹ = if F64.sign b then -1 else 1 := by split <;> norm_num
    have hu : (2 : ℚ) ^ 1074 ≠ 0 := pow_ne_zero _ two_ne_zero
    rw [toRat_eq, toRat_eq, ← signs_mul, Nat.cast_mul, Nat.cast_pow, Nat.cast_ofNat, div_div_div_cancel_right₀ hu,
      mul_div_mul_comm, div_eq_mul_inv (if F64.sign a then (-1 : ℚ) else 1), hinv]
    generalize (2 : ℚ) ^ 1074 = unit at hu ⊢
    field_simp

end Sys2Proof.Machine

/-! ### The obligations -/

section
open Sys2Proof Sys2Proof.Machine

/-- Settles O58: each operation on finite values is one rounding of the exact result. -/
theorem arithmeticRoundsToNearestEven : Obligations.ArithmeticRoundsToNearestEven := fun n _ _ ha hb =>
  ⟨(add_isRounded n ha hb).nearestEven, (sub_isRounded n ha hb).nearestEven, (mul_isRounded n ha hb).nearestEven,
    fun hz => (div_isRounded n ha hb hz).nearestEven⟩

/-- Settles O19: the block a write stores and the number a read answers, byte by byte. -/
theorem dmemAccessIsLittleEndian : Obligations.DmemAccessIsLittleEndian := by
  intro s width a rest hb hwf hw hal ha
  have hf : dmemForm width a = true := dmemForm_iff.2 ⟨hw, hal⟩
  refine ⟨fun v he => ?_, fun he => ?_⟩
  · have hlen : (leBytes width v.toNat).length = width := leBytes_length _ _
    refine ⟨{ s with events := rest, dmem := s.dmem.writeCells (cellsAt a (leBytes width v.toNat)) }, ?_, rfl,
      fun k hk => ?_, same_outside hwf rfl hlen⟩
    · rw [step_write he, busWrite_dmem _ hf ha, writeDmem_idle (s := { s with events := rest }) hb]
    · rw [byte_inside hwf rfl hlen hk, leBytes_getD _ hk, extractByte_eq]
  · refine ⟨BitVec.ofNat 32 (s.dmem.readLE a width), ?_, fun k hk => ?_⟩
    · rw [step_read he, busRead_dmem _ hf ha, readDmem_idle (s := { s with events := rest }) hb]
    · rw [extractByte_ofNat _ hk, readLE_byte, State.byte]

end
end

section
/-! PROOFS, 10_state.md. What a step of the machine can be (R22, R112, R113, R260, R262), what a host access does to the
registers (R20 to R39), and the flags and RESULT after a Busy engine's turn (R26, R36, R41). -/

namespace Sys2Proof.Machine

/-! ### The engine's turn -/

/-- The machine of the engine's turn differs from the machine before it in the pending events alone. -/
theorem EngineMoves.sameButEvents {s s0 : State} (h : EngineMoves s s0) : ∃ rest, s0 = { s with events := rest } := by
  obtain ⟨_, rfl⟩ | ⟨rest, _, rfl⟩ := h
  · exact ⟨s0.events, rfl⟩
  · exact ⟨rest, rfl⟩

theorem EngineMoves.engine_eq {s s0 : State} (h : EngineMoves s s0) : s0.engine = s.engine := by
  obtain ⟨rest, rfl⟩ := h.sameButEvents
  rfl

/-- Where the engine has the turn, the step is its turn. -/
theorem step_engineMoves {s s0 : State} (h : EngineMoves s s0) : step s = s0.engineTurn := by
  obtain ⟨he, rfl⟩ | ⟨rest, he, rfl⟩ := h <;> rw [step, he]

/-- `Exec` of a latched word: that of its command, or BadCommand where it decodes to none (R97, R112). -/
def Job.out (j : Job) : CmdOut :=
  match decode j.word with
  | .ok i => outOf i j
  | .error _ => .error .badCommand

/-- The machine after a Busy engine's turn (R113). -/
def State.afterTurn (s : State) (j : Job) (d : Bool) : State :=
  match decode j.word with
  | .ok i => s.complete i j d (outOf i j)
  | .error _ => s.completeBad

theorem engineTurn_idle {s : State} (h : s.engine = .idle) : s.engineTurn = .next s := by
  simp [State.engineTurn, h]

/-- A Busy engine whose word decodes runs that command. -/
theorem engineTurn_decoded {s : State} {j : Job} {d : Bool} {i : Instr} (h : s.engine = .busy j d)
    (hi : decode j.word = .ok i) : s.engineTurn = exec i s := by
  simp [State.engineTurn, h, hi]

/-- A Busy engine's turn always answers a next state. -/
theorem engineTurn_busy {s : State} {j : Job} {d : Bool} (h : s.engine = .busy j d) :
    s.engineTurn = .next (s.afterTurn j d) := by
  cases hw : decode j.word with
  | ok i => rw [engineTurn_decoded h hw, exec_busy h]; simp [State.afterTurn, hw]
  | error e => simp [State.engineTurn, State.afterTurn, h, hw]

theorem step_busyTurn {s s0 : State} {j : Job} {d : Bool} (h : EngineMoves s s0) (hb : s.engine = .busy j d) :
    step s = .next (s0.afterTurn j d) := by
  rw [step_engineMoves h, engineTurn_busy (h.engine_eq.trans hb)]

section AfterTurn
variable (s : State) (j : Job) (d : Bool)

@[simp] theorem afterTurn_irqEn : (s.afterTurn j d).irqEn = s.irqEn := by
  unfold State.afterTurn; split <;> simp [State.completeBad]

@[simp] theorem afterTurn_cmd : (s.afterTurn j d).cmd = s.cmd := by
  unfold State.afterTurn; split <;> simp [State.completeBad]

@[simp] theorem afterTurn_ops : (s.afterTurn j d).ops = s.ops := by
  unfold State.afterTurn; split <;> simp [State.completeBad]

@[simp] theorem afterTurn_engine : (s.afterTurn j d).engine = .idle := by
  unfold State.afterTurn; split <;> simp [State.completeBad]

@[simp] theorem afterTurn_status : (s.afterTurn j d).status = statusAfter s.status j.out := by
  unfold State.afterTurn Job.out; split <;> simp [State.completeBad, statusAfter]

@[simp] theorem afterTurn_resultLo :
    (s.afterTurn j d).resultLo = ((resultOf j.out).map fun v => v.extractLsb' 0 32).getD s.resultLo := by
  unfold State.afterTurn Job.out; split <;> simp [State.completeBad, resultOf]

@[simp] theorem afterTurn_resultHi :
    (s.afterTurn j d).resultHi = ((resultOf j.out).map fun v => v.extractLsb' 32 32).getD s.resultHi := by
  unfold State.afterTurn Job.out; split <;> simp [State.completeBad, resultOf]

end AfterTurn

/-- After a command DONE or ERR is 1. -/
theorem statusAfter_done_or_err (t : Status) (out : CmdOut) :
    ((statusAfter t out).done || (statusAfter t out).err) = true := by
  cases out <;> simp [statusAfter]

/-- The flags after a command that started with DONE, ERR and ERRCODE clear (R26, R230). -/
theorem statusAfter_outcome {t : Status} (hd : t.done = false) (he : t.err = false) (hc : t.errcode = 0) (out : CmdOut) :
    (statusAfter t out).busy = false ∧ (statusAfter t out).done = !(statusAfter t out).err ∧
      ((statusAfter t out).done = true → (statusAfter t out).errcode = 0) ∧
      ((statusAfter t out).err = true →
        1 ≤ (statusAfter t out).errcode.toNat ∧ (statusAfter t out).errcode.toNat ≤ 6) := by
  cases out with
  | ok e => simp [statusAfter, he, hc]
  | error e =>
    have hpos : 1 ≤ e.code.toNat := Nat.one_le_iff_ne_zero.2 fun h => code_pos e (BitVec.eq_of_toNat_eq h)
    simp [statusAfter, hd, hpos, code_le]

/-- A word with a result is that of TILE_INDEX or MAX, and its command succeeds (R36). -/
theorem decode_of_resultOf {j : Job} (h : resultOf j.out ≠ none) :
    (decode j.word = .ok .tileIndex ∨ decode j.word = .ok .max) ∧ ∃ e, j.out = .ok e := by
  have hdec : ∃ i, decode j.word = .ok i ∧ j.out = outOf i j := by
    unfold Job.out at h ⊢
    split at h
    · next i hi => exact ⟨i, hi, rfl⟩
    · exact absurd rfl h
  obtain ⟨i, hi, ho⟩ := hdec
  rw [ho] at h ⊢
  cases hr : outOf i j with
  | error e => rw [hr] at h; exact absurd rfl h
  | ok e =>
    refine ⟨?_, e, rfl⟩
    by_contra hn
    have hn : i ≠ .tileIndex ∧ i ≠ .max := by
      constructor <;> rintro rfl <;> simp [hi] at hn
    rw [hr] at h
    exact h (outOf_result hr hn.1 hn.2)

/-! ### Register accesses of the host -/

theorem HostWrites.sameButEvents {s s0 : State} {o : Nat} {v : Word} (h : HostWrites s s0 o v) :
    ∃ rest, s0 = { s with events := rest } := by
  obtain ⟨rest, _, rfl⟩ := h
  exact ⟨rest, rfl⟩

theorem HostWrites.status_eq {s s0 : State} {o : Nat} {v : Word} (h : HostWrites s s0 o v) : s0.status = s.status := by
  obtain ⟨rest, rfl⟩ := h.sameButEvents
  rfl

/-- No register holds the pending events. -/
theorem readCsr_events (s : State) (rest : List Event) (r : Csr) :
    ({ s with events := rest } : State).readCsr r = s.readCsr r := by
  cases r <;> rfl

theorem HostWrites.readCsr_eq {s s0 : State} {o : Nat} {v : Word} (h : HostWrites s s0 o v) (r : Csr) :
    s0.readCsr r = s.readCsr r := by
  obtain ⟨rest, rfl⟩ := h.sameButEvents
  exact readCsr_events s rest r

/-- A host read of a register answers its value and changes nothing else. -/
theorem step_hostReads {s s0 : State} {r : Csr} (h : HostReads s s0 r.offset) :
    step s = .next { s0 with readData := s.readCsr r } := by
  obtain ⟨rest, he, rfl⟩ := h
  rw [step_read he, busRead_csr, readCsr_events]

/-- A host write of a register is `writeCsr`. -/
theorem step_hostWrites {s s0 : State} {r : Csr} {v : Word} (h : HostWrites s s0 r.offset v) :
    step s = .next (s0.writeCsr r v) := by
  obtain ⟨rest, he, rfl⟩ := h
  rw [step_write he, busWrite_csr]

/-- The map gives each register one offset. -/
theorem csrAt_eq_some {o : Nat} {r : Csr} (h : csrAt o = some r) : o = r.offset := by
  unfold csrAt at h
  split at h
  case h_23 => cases h
  all_goals injection h with h; subst h; rfl

/-- Above the last register the window is reserved. -/
theorem csrAt_reserved {o : Nat} (h : 0x058 ≤ o) : csrAt o = none := by
  cases hr : csrAt o with
  | none => rfl
  | some r =>
    have hle : r.offset ≤ 0x054 := by cases r <;> decide
    have := csrAt_eq_some hr
    omega

/-- A 32-bit host read of a reserved offset answers 0 and changes nothing else (R39). -/
theorem step_readsReserved {s s0 : State} {o : Nat} (h : 0x058 ≤ o) (hlt : o < 4096) (hal : o % 4 = 0)
    (hr : HostReads s s0 o) : step s = .next { s0 with readData := 0 } := by
  obtain ⟨rest, he, rfl⟩ := hr
  rw [step_read he]
  simp [State.busRead, busTarget_csr hlt, csrForm, hal, State.readOffset, csrAt_reserved h]

/-- A 32-bit host write of a reserved offset changes nothing (R39). -/
theorem step_writesReserved {s s0 : State} {o : Nat} {v : Word} (h : 0x058 ≤ o) (hlt : o < 4096) (hal : o % 4 = 0)
    (hw : HostWrites s s0 o v) : step s = .next s0 := by
  obtain ⟨rest, he, rfl⟩ := hw
  rw [step_write he]
  simp [State.busWrite, busTarget_csr hlt, csrForm, hal, State.writeOffset, csrAt_reserved h]

/-! ### Operand registers -/

/-- While BUSY = 1 the operand registers ignore a write (R38). -/
theorem writeOps_busy {s : State} (h : s.status.busy = true) (o : Operands) : s.writeOps o = s := by
  simp [State.writeOps, h]

theorem writeOps_idle {s : State} (h : s.status.busy = false) (o : Operands) : s.writeOps o = { s with ops := o } := by
  simp [State.writeOps, h]

/-- The operand registers after a write of `v` to register `r`, where it is one of them. -/
def Operands.put (o : Operands) (r : Csr) (v : Word) : Operands :=
  match r with
  | .src => { o with src := v }
  | .dst => { o with dst := v }
  | .aux => { o with aux := v }
  | .len => { o with len := v }
  | .width => { o with width := v }
  | .height => { o with height := v }
  | .nchan => { o with nchan := v }
  | .tileL => { o with tileL := v }
  | .x => { o with x := v }
  | .y => { o with y := v }
  | .factorLo => { o with factorLo := v }
  | .factorHi => { o with factorHi := v }
  | _ => o

/-- A write to an operand register is a write of that register alone. -/
theorem writeCsr_operand {r : Csr} (hr : r.isOperand = true) (s : State) (v : Word) :
    s.writeCsr r v = s.writeOps (s.ops.put r v) := by
  cases r <;> cases hr <;> rfl

/-- What the registers read after a write to one operand register: the word there, the old value elsewhere
(R23's map as a table, one entry for each pair of registers). -/
theorem readCsr_put {r : Csr} (hr : r.isOperand = true) (s : State) (v : Word) (q : Csr) :
    ({ s with ops := s.ops.put r v } : State).readCsr q = if q = r then v else s.readCsr q := by
  cases r <;> cases hr <;> cases q <;> rfl

/-! ### CTRL and CMD -/

/-- A CTRL write with SOFT_RESET set is the soft reset (R25, R262). -/
theorem writeCtrl_reset {v : Word} (h : v.getLsbD 1 = true) (s : State) : s.writeCtrl v = s.softReset := by
  simp [State.writeCtrl, h]

/-- A CTRL write with SOFT_RESET clear sets IRQ_EN alone (R25). -/
theorem writeCtrl_irqEn {v : Word} (h : v.getLsbD 1 = false) (s : State) :
    s.writeCtrl v = { s with irqEn := v.getLsbD 0 } := by
  simp only [State.writeCtrl, h, Bool.false_eq_true, if_false]

/-- CTRL ignores its reserved bits (R39). -/
theorem writeCtrl_mask (s : State) (v : Word) : s.writeCtrl (v &&& 0x003) = s.writeCtrl v := by
  simp [State.writeCtrl]

theorem writeCmd_busy {s : State} (h : s.status.busy = true) (w : Word) :
    s.writeCmd w = { s with status := s.status.overrun } := by
  simp [State.writeCmd, h]

/-! ### STATUS -/

/-- STATUS ignores every bit of a write but those of DONE, ERR and OVR (R26, R39). -/
theorem w1c_mask (t : Status) (v : Word) : t.w1c (v &&& 0x106) = t.w1c v := by
  simp [Status.w1c]

/-- With DONE and ERR clear, as while BUSY = 1, a W1C write can clear OVR alone (R38). -/
theorem w1c_running {t : Status} (hd : t.done = false) (he : t.err = false) (v : Word) :
    t.w1c v = { t with ovr := t.ovr && !v.getLsbD 8 } := by
  simp [Status.w1c, hd, he]

/-- The bits of STATUS, in the form `simp` gives a bit of a word. -/
theorem getElem_toWord (t : Status) (i : Nat) (hi : i < 32) : t.toWord[i] =
    if i = 0 then t.busy else if i = 1 then t.done else if i = 2 then t.err else if i = 8 then t.ovr
    else if 4 ≤ i ∧ i < 8 then t.errcode.getLsbD (i - 4) else false := by
  rw [← BitVec.getLsbD_eq_getElem, getLsbD_toWord]

/-- STATUS reads 0 in its reserved bits (R39). -/
theorem toWord_reserved (t : Status) : t.toWord &&& ~~~(0x1F7 : Word) = 0 := by
  apply BitVec.eq_of_getLsbD_eq
  intro i hi
  interval_cases i <;> simp [getElem_toWord]

/-- A W1C write clears in STATUS the bits it sets among DONE, ERR and OVR (R26). -/
theorem toWord_w1c (t : Status) (v : Word) : (t.w1c v).toWord = t.toWord &&& ~~~(v &&& 0x106) := by
  apply BitVec.eq_of_getLsbD_eq
  intro i hi
  interval_cases i <;> simp [getElem_toWord]

theorem ctrlWord_reserved (b : Bool) : ctrlWord b &&& ~~~(0x001 : Word) = 0 := by
  cases b <;> decide

/-! ### Resets -/

/-- The registers after a reset read their reset values, the parameters' registers theirs (R23). -/
theorem readCsr_resetRegisters (s : State) (r : Csr) : s.resetRegisters.readCsr r = r.resetValue := by
  cases r with
  | status => exact toWord_reset
  | _ => rfl

@[simp] theorem softReset_engine (s : State) : s.softReset.engine = .idle := by
  unfold State.softReset; split <;> rfl

@[simp] theorem softReset_irqEn (s : State) : s.softReset.irqEn = false := by
  unfold State.softReset; split <;> rfl

theorem irq_of_irqEn {s : State} (h : s.irqEn = false) : s.irq = false := by
  simp [State.irq, h]

/-- A byte outside the regions of an aborted command is none that its abort leaves open. -/
theorem not_mem_abortAddrs {j : Job} {a : Nat}
    (h : ∀ i, decode j.word = .ok i → (¬ BadRegions i j.latched → inRegion (dstRegion i j.latched) a = false) ∧
      inRegion (auxRegion i j.latched) a = false) : a ∉ abortAddrs j := by
  unfold abortAddrs
  split
  · next i hi =>
    obtain ⟨hdst, haux⟩ := h i hi
    rw [List.mem_append]
    rintro (hm | hm)
    · split_ifs at hm with hp
      · have := hdst (regions_ok_iff.1 (regionsPass_iff.1 hp))
        simp [(destAddrs_iff.1 hm).1] at this
      · cases hm
    · simp [(auxAddrs_iff.1 hm).1] at haux
  · exact List.not_mem_nil

/-- A soft reset does what R262 says, on the machine a host write reaches. -/
theorem softReset_done {s : State} (hw : s.dmem.wf) (rest : List Event) :
    SoftResetDone s { s with events := rest } ({ s with events := rest } : State).softReset where
  registers r := by unfold State.softReset; split <;> exact readCsr_resetRegisters _ r
  idle := softReset_engine _
  irqLow := irq_of_irqEn (softReset_irqEn _)
  events := by unfold State.softReset; split <;> rfl
  readData := by unfold State.softReset; split <;> rfl
  idleMemory he := by simp [State.softReset, he]
  abortMemory j d he a ha := by
    have hopen : ∀ c ∈ drawnCells s.draws (abortAddrs j), c.1 ≠ a := fun c hc hca =>
      not_mem_abortAddrs ha (hca ▸ drawnCells_addr hc)
    simp [State.byte, State.softReset, he, readByte_writeCells_other hw hopen]

theorem HostWrites.softReset_done {s s0 : State} {o : Nat} {v : Word} (h : HostWrites s s0 o v) (hw : s.dmem.wf) :
    SoftResetDone s s0 s0.softReset := by
  obtain ⟨rest, rfl⟩ := h.sameButEvents
  exact Machine.softReset_done hw rest

/-! ### What one step can be -/

/-- What a step of `s` that answers a next state can be, one constructor for each kind of event. -/
inductive StepCase (s : State) : State → Prop
  /-- an Idle engine's turn -/
  | idleTurn {s0 : State} (h : EngineMoves s s0) (hi : s.engine = .idle) : StepCase s s0
  /-- a Busy engine's turn -/
  | busyTurn {s0 : State} {j : Job} {d : Bool} (h : EngineMoves s s0) (hb : s.engine = .busy j d) :
      StepCase s (s0.afterTurn j d)
  /-- a host read, of either window -/
  | read {width addr : Nat} {rest : List Event} (he : s.events = .read width addr :: rest) (v : Word) (n : Nat) :
      StepCase s { s with events := rest, readData := v, draws := n }
  /-- a host write of a register -/
  | writeCsr {s0 : State} {r : Csr} {v : Word} (h : HostWrites s s0 r.offset v) : StepCase s (s0.writeCsr r v)
  /-- a host write of a reserved offset -/
  | writeReserved {o : Nat} {s0 : State} {v : Word} (h : HostWrites s s0 o v) : StepCase s s0
  /-- a host write of DMEM -/
  | writeDmem {width addr a : Nat} {v : Word} {rest : List Event} (he : s.events = .write width addr v :: rest)
      (hf : dmemForm width a = true) (ha : a < Config.dmemBytes) :
      StepCase s (({ s with events := rest } : State).writeDmem width a v)
  /-- the power-on reset -/
  | powerOn {rest : List Event} (he : s.events = .powerOn :: rest) :
      StepCase s ({ s with events := rest } : State).powerOnReset

/-- The address that leads to an offset of the CSR window. -/
theorem busTarget_csr_eq {addr o : Nat} (h : busTarget addr = some (.csr o)) : addr = Config.csrBase + o := by
  unfold busTarget at h
  split_ifs at h
  · injection h with h; injection h with h; omega
  · cases h

/-- A host write that answers a next state is one of a register, of a reserved offset or of DMEM. -/
theorem stepCase_write {s t : State} {width addr : Nat} {v : Word} {rest : List Event}
    (he : s.events = .write width addr v :: rest) (h : ({ s with events := rest } : State).busWrite width addr v = .next t) :
    StepCase s t := by
  unfold State.busWrite at h
  split at h
  · cases h
  · next o ho =>
    split_ifs at h with hf
    injection h with h
    have hw : HostWrites s { s with events := rest } o v := by
      simp only [csrForm, Bool.and_eq_true, beq_iff_eq] at hf
      exact ⟨rest, by rw [he, hf.1, busTarget_csr_eq ho], rfl⟩
    subst h
    unfold State.writeOffset
    split
    · next r hr =>
      rw [csrAt_eq_some hr] at hw
      exact .writeCsr hw
    · exact .writeReserved hw
  · next a ha =>
    split_ifs at h with hf
    injection h with h
    subst h
    exact .writeDmem he hf (busTarget_dmem_lt ha)

theorem stepCase_engine {s s0 t : State} (hm : EngineMoves s s0) (h : s0.engineTurn = .next t) : StepCase s t := by
  cases hs : s.engine with
  | idle =>
    rw [engineTurn_idle (hm.engine_eq.trans hs)] at h
    injection h with h
    exact h ▸ .idleTurn hm hs
  | busy j d =>
    rw [engineTurn_busy (hm.engine_eq.trans hs)] at h
    injection h with h
    exact h ▸ .busyTurn hm hs

/-- Every step that answers a next state is one of the cases. -/
theorem step_cases {s t : State} (h : step s = .next t) : StepCase s t := by
  unfold step at h
  split at h
  · next he => exact stepCase_engine (.inl ⟨he, rfl⟩) h
  · next rest he => exact stepCase_engine (.inr ⟨rest, he, rfl⟩) h
  · next width addr rest he =>
    obtain ⟨v, n, rfl⟩ := busRead_next h
    exact .read he v n
  · next width addr v rest he => exact stepCase_write he h
  · next rest he =>
    injection h with h
    exact h ▸ .powerOn he

/-! ### The invariant -/

namespace State.Inv

theorem of_events {s : State} (h : s.Inv) (rest : List Event) : ({ s with events := rest } : State).Inv :=
  h.of_model_fields rest s.readData s.draws

theorem busy_of_engine {s : State} (h : s.Inv) {j : Job} {d : Bool} (hb : s.engine = .busy j d) : s.status.busy = true := by
  rw [h.busyIsEngine, hb]; rfl

/-- A register write keeps it, by the register's own offset. -/
theorem writeCsr {s : State} (h : s.Inv) (r : Csr) (v : Word) : (s.writeCsr r v).Inv := by
  have := h.writeOffset r.offset v
  rwa [State.writeOffset, csrAt_offset] at this

/-- A Busy engine's turn keeps it. -/
theorem afterTurn {s : State} (h : s.Inv) {j : Job} {d : Bool} (hb : s.engine = .busy j d) : (s.afterTurn j d).Inv := by
  unfold State.afterTurn
  split
  · exact h.complete hb _
  · exact h.completeBad hb

/-- Every case of a step keeps it. -/
theorem stepCase {s t : State} (h : s.Inv) (hc : StepCase s t) : t.Inv := by
  cases hc with
  | idleTurn hm hi =>
    obtain ⟨rest, rfl⟩ := hm.sameButEvents
    exact h.of_events rest
  | busyTurn hm hb =>
    obtain ⟨rest, rfl⟩ := hm.sameButEvents
    exact (h.of_events rest).afterTurn hb
  | read he v n => exact h.of_model_fields _ v n
  | writeCsr hw =>
    obtain ⟨rest, rfl⟩ := hw.sameButEvents
    exact (h.of_events rest).writeCsr _ _
  | writeReserved hw =>
    obtain ⟨rest, rfl⟩ := hw.sameButEvents
    exact h.of_events rest
  | writeDmem he hf ha => exact (h.of_events _).writeDmem hf ha _
  | powerOn he => exact powerOnReset _

end State.Inv

/-! ### RESULT -/

theorem writeOps_sameResult (s : State) (o : Operands) : SameResult s (s.writeOps o) := by
  unfold State.writeOps; split <;> exact ⟨rfl, rfl⟩

theorem writeCmd_sameResult (s : State) (w : Word) : SameResult s (s.writeCmd w) := by
  unfold State.writeCmd; split <;> exact ⟨rfl, rfl⟩

theorem writeDmem_sameResult (s : State) (width a : Nat) (v : Word) : SameResult s (s.writeDmem width a v) := by
  unfold State.writeDmem; split <;> exact ⟨rfl, rfl⟩

/-- A register write that is no soft reset keeps RESULT. -/
theorem writeCsr_sameResult (s : State) {r : Csr} {v : Word} (h : r = .ctrl → v.getLsbD 1 = false) :
    SameResult s (s.writeCsr r v) := by
  cases r with
  | ctrl => rw [State.writeCsr, writeCtrl_irqEn (h rfl)]; exact ⟨rfl, rfl⟩
  | cmd => exact writeCmd_sameResult s v
  | status | id | resultLo | resultHi | qrSide | strength | qrCap | dmemSize => exact ⟨rfl, rfl⟩
  | _ => exact writeOps_sameResult s _

/-- A Busy engine's turn that changes RESULT completes TILE_INDEX or MAX with DONE (R36). -/
theorem afterTurn_result {s : State} {j : Job} {d : Bool} (h : ¬ SameResult s (s.afterTurn j d)) :
    (s.afterTurn j d).status.done = true ∧ (decode j.word = .ok .tileIndex ∨ decode j.word = .ok .max) := by
  have hr : resultOf j.out ≠ none := fun hn => h (by simp [SameResult, hn])
  obtain ⟨hw, e, he⟩ := decode_of_resultOf hr
  exact ⟨by simp [he, statusAfter], hw⟩

/-! ### The accept of a command's word -/

/-- The decoder reads every command's word back as that command (R99). -/
theorem decode_encode (i : Instr) : decode (encode i) = .ok i := by
  cases i with
  | lsbEmbed g => exact (Laws.RoundTrip.lsbEmbed g).2
  | fftEmbed g => exact (Laws.RoundTrip.fftEmbed g).2
  | _ => decide

end Sys2Proof.Machine

/-! ### The obligations -/

section
open Sys2Proof Sys2Proof.Machine

/-- Settles O11: each kind of step keeps the invariant. -/
theorem stepKeepsTheInvariant : Obligations.StepKeepsTheInvariant := fun _ _ h hs => h.stepCase (step_cases hs)

/-- Settles O6: the flags are clear while BUSY = 1, so the command's own outcome alone decides them. -/
theorem busyEngineEndsItsCommandInOneOfTwoWays : Obligations.BusyEngineEndsItsCommandInOneOfTwoWays := by
  intro s s0 j d hinv hm hb
  obtain ⟨hdone, herr, hcode⟩ := hinv.busyClears (hinv.busy_of_engine hb)
  obtain ⟨rest, rfl⟩ := hm.sameButEvents
  refine ⟨_, step_busyTurn hm hb, afterTurn_engine _ _ _, ?_⟩
  rw [afterTurn_status]
  exact statusAfter_outcome hdone herr hcode j.out

/-- Settles O13: no register stands above 0x054, and the masks hold the bits that CTRL and STATUS take. -/
theorem reservedOffsetsAndBits : Obligations.ReservedOffsetsAndBits := by
  refine ⟨fun s s0 o hlo hhi hal => ?_, fun s => ⟨ctrlWord_reserved _, toWord_reserved _⟩, fun s s0 v hw => ?_,
    fun s s0 v hw => ?_, fun s s0 r v hr hb hw => ?_⟩
  · have hlt : o < 4096 := by omega
    exact ⟨step_readsReserved hlo hlt hal, fun v => step_writesReserved hlo hlt hal⟩
  · rw [step_hostWrites (r := .ctrl) hw, State.writeCsr, State.writeCsr, writeCtrl_mask]
  · rw [step_hostWrites (r := .status) hw, State.writeCsr, State.writeCsr, w1c_mask]
  · refine ⟨_, step_hostWrites hw, ?_⟩
    rw [← hw.status_eq] at hb
    rw [writeCsr_operand hr, writeOps_idle hb, readCsr_put hr, if_pos rfl]

/-- Settles O14, by the registers' values after a write to one operand register. -/
theorem operandWriteIsStored : Obligations.OperandWriteIsStored := by
  refine ⟨fun s s0 r h => step_hostReads h, fun s s0 r v hr hb hw => ?_⟩
  rw [← hw.status_eq] at hb
  refine ⟨{ s0 with ops := s0.ops.put r v }, ?_, ?_, fun q hq => ?_, rfl⟩
  · rw [step_hostWrites hw, writeCsr_operand hr, writeOps_idle hb]
  · rw [readCsr_put hr, if_pos rfl]
  · rw [readCsr_put hr, if_neg hq, hw.readCsr_eq]

/-- Settles O15: BUSY is 1 while the engine is Busy, with DONE and ERR clear, and the latched operands are the registers. -/
theorem registerAccessWhileBusy : Obligations.RegisterAccessWhileBusy := by
  intro s s0 j d hinv hb
  have hbusy := hinv.busy_of_engine hb
  obtain ⟨hdone, herr, -⟩ := hinv.busyClears hbusy
  refine ⟨fun r v hr hw => ?_, fun v hw h1 => ?_, fun v hw h1 => ?_, fun v hw => ?_, fun w hw => ?_,
    fun r h => step_hostReads h, (hinv.latchedAsRegisters j d hb).2.symm⟩
  · rw [← hw.status_eq] at hbusy
    rw [step_hostWrites hw, writeCsr_operand hr, writeOps_busy hbusy]
  · rw [step_hostWrites (r := .ctrl) hw, State.writeCsr, writeCtrl_irqEn h1]
  · refine ⟨_, ?_, hw.softReset_done hinv.dmemWf⟩
    rw [step_hostWrites (r := .ctrl) hw, State.writeCsr, writeCtrl_reset h1]
  · rw [← hw.status_eq] at hdone herr
    rw [step_hostWrites (r := .status) hw, State.writeCsr, w1c_running hdone herr]
  · rw [← hw.status_eq] at hbusy
    rw [step_hostWrites (r := .cmd) hw, State.writeCsr, writeCmd_busy hbusy, Status.overrun]

/-- Settles O16, bit by bit of the STATUS word. -/
theorem statusWriteClearsTheBitsItSets : Obligations.StatusWriteClearsTheBitsItSets := by
  intro s s0 v hw
  refine ⟨_, step_hostWrites (r := .status) hw, ?_, rfl⟩
  rw [← hw.readCsr_eq]
  exact toWord_w1c s0.status v

/-- Settles O22: every completion leaves DONE or ERR set, and a CTRL write of either kind leaves IRQ_EN as bit 0 or clear. -/
theorem interruptFollowsCompletion : Obligations.InterruptFollowsCompletion := by
  refine ⟨fun i s t _ h => ?_, fun s s0 t j d _ hm hb h => ?_, fun s s0 v hw hv => ?_, fun s s0 v hw => ⟨fun h1 => ?_, ?_⟩⟩
  · obtain ⟨j, d, _, rfl⟩ := exec_next h
    rw [State.irq, complete_irqEn, complete_status, statusAfter_done_or_err, Bool.and_true]
  · rw [step_busyTurn hm hb] at h
    injection h with h
    obtain ⟨rest, rfl⟩ := hm.sameButEvents
    rw [← h, State.irq, afterTurn_irqEn, afterTurn_status, statusAfter_done_or_err, Bool.and_true]
  · have hdone : v.getLsbD 1 = true := by simpa using congrArg (·.getLsbD 1) hv
    have herr : v.getLsbD 2 = true := by simpa using congrArg (·.getLsbD 2) hv
    exact ⟨_, step_hostWrites (r := .status) hw, by simp [State.writeCsr, State.irq, hdone, herr]⟩
  · rw [step_hostWrites (r := .ctrl) hw, State.writeCsr, writeCtrl_irqEn h1]
  · refine ⟨_, step_hostWrites (r := .ctrl) hw, fun h0 => irq_of_irqEn ?_, fun h1 h0 hf => ?_⟩
    · cases h1 : v.getLsbD 1 with
      | true => rw [State.writeCsr, writeCtrl_reset h1, softReset_irqEn]
      | false => rw [State.writeCsr, writeCtrl_irqEn h1]; exact h0
    · rw [← hw.status_eq] at hf
      rw [State.writeCsr, writeCtrl_irqEn h1]
      simpa only [State.irq, h0, Bool.true_and, Bool.or_eq_true] using hf

/-- Settles O29: the engine's turn and a host read keep these registers, and no other event is left. -/
theorem engineNeverWritesOperands : Obligations.EngineNeverWritesOperands := by
  intro s t hwrite hpower hs
  cases step_cases hs with
  | idleTurn hm hi => obtain ⟨rest, rfl⟩ := hm.sameButEvents; exact ⟨rfl, rfl, rfl⟩
  | busyTurn hm hb => obtain ⟨rest, rfl⟩ := hm.sameButEvents; simp
  | read he v n => exact ⟨rfl, rfl, rfl⟩
  | writeCsr hw => obtain ⟨rest, he, _⟩ := hw; exact absurd he (hwrite _ _ _ _)
  | writeReserved hw => obtain ⟨rest, he, _⟩ := hw; exact absurd he (hwrite _ _ _ _)
  | writeDmem he hf ha => exact absurd he (hwrite _ _ _ _)
  | powerOn he => exact absurd he (hpower _)

/-- Settles O30: of the kinds of step, only a reset and the turn of TILE_INDEX or MAX write RESULT. -/
theorem resultChangesOnlyByTileIndexOrMax : Obligations.ResultChangesOnlyByTileIndexOrMax := by
  intro s t hs hne
  cases step_cases hs with
  | idleTurn hm hi => obtain ⟨rest, rfl⟩ := hm.sameButEvents; exact absurd ⟨rfl, rfl⟩ hne
  | @busyTurn s0 j d hm hb =>
    have hne0 : ¬ SameResult s0 (s0.afterTurn j d) := by obtain ⟨rest, rfl⟩ := hm.sameButEvents; exact hne
    obtain ⟨hdone, hword⟩ := afterTurn_result hne0
    exact .inr ⟨s0, j, d, hm, hb, hdone, hword⟩
  | read he v n => exact absurd ⟨rfl, rfl⟩ hne
  | @writeCsr s0 r v hw =>
    by_cases hreset : r = .ctrl ∧ v.getLsbD 1 = true
    · obtain ⟨rfl, h1⟩ := hreset
      exact .inl (.inr ⟨s0, v, hw, h1⟩)
    · have hsame : SameResult s0 (s0.writeCsr r v) := writeCsr_sameResult s0 (by simpa using hreset)
      obtain ⟨rest, rfl⟩ := hw.sameButEvents
      exact absurd hsame hne
  | writeReserved hw => obtain ⟨rest, rfl⟩ := hw.sameButEvents; exact absurd ⟨rfl, rfl⟩ hne
  | writeDmem he hf ha => exact absurd (writeDmem_sameResult _ _ _ _) hne
  | powerOn he => exact .inl (.inl ⟨_, he⟩)

/-- Settles O5, by what the engine's turn is for a Busy and for an Idle engine. -/
theorem stepRunsTheDecodedCommand : Obligations.StepRunsTheDecodedCommand := by
  refine ⟨fun s s0 j d i hm hb hi => ?_, fun s s0 hm hi => ?_, fun s i => ?_⟩
  · rw [step_engineMoves hm, engineTurn_decoded (hm.engine_eq.trans hb) hi]
  · rw [step_engineMoves hm, engineTurn_idle (hm.engine_eq.trans hi)]
  · have hword : BitVec.ofNat 32 ((encode i).toNat % 2 ^ 32) = encode i := by
      rw [Nat.mod_eq_of_lt (encode i).isLt, BitVec.ofNat_toNat, BitVec.setWidth_eq]
    have hm : EngineMoves (s.withFetchWord 32 (encode i).toNat) (s.accept (encode i)) :=
      .inr ⟨s.events, rfl, by rw [State.withFetchWord, hword]; rfl⟩
    rw [step_engineMoves hm, engineTurn_decoded (accept_engine s (encode i)) (decode_encode i)]

/-- Settles O8: State.reset is itself a machine with reset registers, and an empty DMEM list reads the power-on bytes. -/
theorem resetRegisterValues : Obligations.ResetRegisterValues := by
  refine ⟨readCsr_resetRegisters State.reset, rfl, rfl, fun s rest he => ?_⟩
  refine ⟨({ s with events := rest } : State).powerOnReset, by rw [step, he], fun r => ?_, rfl, rfl, rfl, fun a => rfl⟩
  exact readCsr_resetRegisters { s with dmem := { cycle := s.dmem.cycle + 1, cells := [] } } r

/-- Settles O10: the reset state is a machine with reset registers and an empty DMEM list. -/
theorem resetMeetsTheInvariant : Obligations.ResetMeetsTheInvariant :=
  State.Inv.of_resetRegisters (s := State.reset) (wf_empty 0) (inRange_empty 0)

/-- Settles O12: both parameters fit in 32 bits, and a write of these registers is no change. -/
theorem constantsReadTheirValuesAndIgnoreWrites : Obligations.ConstantsReadTheirValuesAndIgnoreWrites := by
  have hqr : Config.qrCapacity < 2 ^ 32 := Nat.lt_of_le_of_lt Config.qrCapacity_le (by decide)
  have hmem : Config.dmemBytes < 2 ^ 32 := Nat.lt_of_le_of_lt Config.dmemBytes_le (by decide)
  refine ⟨fun s s0 h => step_hostReads (r := .id) h, fun s s0 h => step_hostReads (r := .qrSide) h,
    fun s s0 h => step_hostReads (r := .strength) h,
    fun s s0 h => ⟨_, (toNat_eq_iff _ hqr).2 rfl, step_hostReads (r := .qrCap) h⟩,
    fun s s0 h => ⟨_, (toNat_eq_iff _ hmem).2 rfl, step_hostReads (r := .dmemSize) h⟩, fun s s0 o v ho hw => ?_⟩
  simp only [List.mem_cons, List.not_mem_nil, or_false] at ho
  obtain rfl | rfl | rfl | rfl | rfl | rfl | rfl := ho
  · exact step_hostWrites (r := .id) hw
  · exact step_hostWrites (r := .resultLo) hw
  · exact step_hostWrites (r := .resultHi) hw
  · exact step_hostWrites (r := .qrSide) hw
  · exact step_hostWrites (r := .strength) hw
  · exact step_hostWrites (r := .qrCap) hw
  · exact step_hostWrites (r := .dmemSize) hw

end
end

section
/-! PROOFS, 20_memory.md. The host accesses that have no step (R61, R62), DMEM accesses while BUSY = 1 (R70), and a
command's regions: the bytes it leaves alone (R67) and its failure where they are bad (R64, R65). -/

namespace Sys2Proof.Machine

/-! ### The window of a host address -/

/-- An address of the CSR window leads to its offset there. -/
theorem busTarget_of_csrWindow {addr : Nat} (hlo : Config.csrBase ≤ addr) (hhi : addr < Config.csrBase + 4096) :
    busTarget addr = some (.csr (addr - Config.csrBase)) := by
  obtain ⟨o, rfl⟩ := Nat.exists_eq_add_of_le hlo
  rw [busTarget_csr (by omega), Nat.add_sub_cancel_left]

/-- An address of the DMEM window leads to its offset there. -/
theorem busTarget_of_dmemWindow {addr : Nat} (hlo : Config.dmemBase ≤ addr)
    (hhi : addr < Config.dmemBase + Config.dmemBytes) : busTarget addr = some (.dmem (addr - Config.dmemBase)) := by
  obtain ⟨a, rfl⟩ := Nat.exists_eq_add_of_le hlo
  rw [busTarget_dmem (by omega), Nat.add_sub_cancel_left]

/-- An address outside both windows leads nowhere. -/
theorem busTarget_of_noWindow {addr : Nat} (hcsr : ¬ (Config.csrBase ≤ addr ∧ addr < Config.csrBase + 4096))
    (hdmem : ¬ (Config.dmemBase ≤ addr ∧ addr < Config.dmemBase + Config.dmemBytes)) : busTarget addr = none := by
  rw [← Config.csrBytes_eq] at hcsr
  rw [busTarget, if_neg hcsr, if_neg hdmem]

/-- The access form of R62. -/
theorem csrForm_iff {width o : Nat} : csrForm width o = true ↔ width = 4 ∧ o % 4 = 0 := by
  simp [csrForm]

/-! ### The step of a host access, read or write alike -/

section Access
variable {s : State} {rest : List Event} {width addr : Nat}
  (he : s.events = .read width addr :: rest ∨ ∃ v, s.events = .write width addr v :: rest)
include he

theorem step_access_csr_refused {o : Nat} (ht : busTarget addr = some (.csr o)) (hf : ¬ csrForm width o = true) :
    step s = .refused .csrAccessForm := by
  obtain he | ⟨v, he⟩ := he
  · rw [step_read he, State.busRead, ht]; exact if_neg hf
  · rw [step_write he, State.busWrite, ht]; exact if_neg hf

theorem step_access_dmem_refused {a : Nat} (ht : busTarget addr = some (.dmem a)) (hf : ¬ dmemForm width a = true) :
    step s = .refused .dmemAccessForm := by
  obtain he | ⟨v, he⟩ := he
  · rw [step_read he, State.busRead, ht]; exact if_neg hf
  · rw [step_write he, State.busWrite, ht]; exact if_neg hf

theorem step_access_unmapped (ht : busTarget addr = none) : step s = .fault .unmappedHostAddress := by
  obtain he | ⟨v, he⟩ := he
  · rw [step_read he, State.busRead, ht]
  · rw [step_write he, State.busWrite, ht]

end Access

/-! ### Host accesses of DMEM while BUSY = 1 -/

theorem accessAddrs_iff {width a x : Nat} : x ∈ accessAddrs width a ↔ a ≤ x ∧ x < a + width := by
  simp only [accessAddrs, List.mem_map, List.mem_range]
  constructor
  · rintro ⟨k, hk, rfl⟩; omega
  · rintro ⟨hlo, hhi⟩; exact ⟨x - a, by omega, by omega⟩

/-- Drawing free bytes leaves every byte that is not listed alone. -/
theorem drawBytes_byte_other {s : State} (hw : s.dmem.wf) {addrs : List Nat} {x : Nat} (hx : x ∉ addrs) :
    (s.drawBytes addrs).byte x = s.byte x := by
  rw [State.byte, drawBytes_dmem, readByte_writeCells_other hw]
  · rfl
  · rintro c hc rfl
    exact hx (drawnCells_addr hc)

/-- While BUSY = 1 a DMEM write leaves its targets open and marks the running command (R70; log 16). -/
theorem writeDmem_busy {s : State} {j : Job} {d : Bool} (hb : s.status.busy = true) (hj : s.engine = .busy j d)
    (width a : Nat) (v : Word) :
    s.writeDmem width a v = { s.drawBytes (accessAddrs width a) with engine := .busy j true } := by
  simp [State.writeDmem, hb, hj, Engine.disturb]

/-- While BUSY = 1 a DMEM read answers free bytes (R70; log 14). -/
theorem readDmem_busy {s : State} (hb : s.status.busy = true) (width a : Nat) :
    s.readDmem width a =
      { s with readData := BitVec.ofNat 32 (freeDatum width s.draws), draws := s.draws + width } := by
  simp [State.readDmem, hb]

/-! ### A command whose checks fail -/

/-- Every command but NOP and FFT_EXTRACT makes its checks first (R233). -/
theorem outOf_eq_checks_bind {i : Instr} (hnop : i ≠ .nop) (hext : i ≠ .fftExtract) (j : Job) :
    ∃ f : Unit → CmdOut, outOf i j = (checks i j.latched >>= f) := by
  cases i with
  | nop => exact absurd rfl hnop
  | fftExtract => exact absurd rfl hext
  | _ => exact ⟨_, rfl⟩

/-- A command whose checks fail answers their error. -/
theorem outOf_of_checks_error {i : Instr} (hnop : i ≠ .nop) (hext : i ≠ .fftExtract) {j : Job} {e : CmdError}
    (h : checks i j.latched = .error e) : outOf i j = .error e := by
  obtain ⟨f, hf⟩ := outOf_eq_checks_bind hnop hext j
  rw [hf, h, bind_error]

/-- NOP and FFT_EXTRACT have no region that could be bad (R95). -/
theorem BadRegions.has_checks {i : Instr} {o : Operands} (h : BadRegions i o) : i ≠ .nop ∧ i ≠ .fftExtract := by
  constructor <;> rintro rfl <;> simp [BadRegions, srcRegion, dstRegion, auxRegion] at h

/-- A failed completion's ERRCODE is the code of its error (R230). -/
theorem FailedAs.errcode {s t : State} {e : CmdError} (h : FailedAs s t e) : t.status.errcode = e.code := by
  rw [h.status]

end Sys2Proof.Machine

/-! ### The obligations -/

section
open Sys2Proof Sys2Proof.Machine

/-- Settles O20: each window's access form decides, for a read and a write alike. -/
theorem excludedHostAccessesHaveNoStep : Obligations.ExcludedHostAccessesHaveNoStep := by
  intro s rest width addr he
  refine ⟨fun hlo hhi hform => ?_, fun hlo hhi hform => ?_, fun hcsr hdmem => ?_⟩
  · refine step_access_csr_refused he (busTarget_of_csrWindow hlo hhi) fun hf => ?_
    obtain ⟨hw, hal⟩ := csrForm_iff.1 hf
    exact hform.elim (· hw) (· hal)
  · refine step_access_dmem_refused he (busTarget_of_dmemWindow hlo hhi) fun hf => ?_
    obtain ⟨hw, hal⟩ := dmemForm_iff.1 hf
    exact hform.elim (fun hn => by omega) (· hal)
  · exact step_access_unmapped he (busTarget_of_noWindow hcsr hdmem)

/-- Settles O21: the access draws free bytes, a write only for its targets, a read only for its datum. -/
theorem dmemAccessWhileBusy : Obligations.DmemAccessWhileBusy := by
  intro s j d width a rest hb hj hwf hw hal ha
  have hf : dmemForm width a = true := dmemForm_iff.2 ⟨hw, hal⟩
  refine ⟨fun v he => ?_, fun he => ?_⟩
  · refine ⟨{ ({ s with events := rest } : State).drawBytes (accessAddrs width a) with engine := .busy j true }, ?_,
      fun x hx => ?_, rfl⟩
    · rw [step_write he, busWrite_dmem _ hf ha, writeDmem_busy (s := { s with events := rest }) hb hj]
    · exact drawBytes_byte_other (s := s) hwf fun hm => hx (accessAddrs_iff.1 hm)
  · refine ⟨{ s with events := rest, readData := BitVec.ofNat 32 (freeDatum width s.draws), draws := s.draws + width },
      ?_, rfl⟩
    rw [step_read he, busRead_dmem _ hf ha, readDmem_busy (s := { s with events := rest }) hb]

/-- Settles O24: a command's writes and the bytes its completion leaves open lie in DST and AUX. -/
theorem commandsWriteOnlyTheirRegions : Obligations.CommandsWriteOnlyTheirRegions := by
  intro i s t j d hwf hb ht a hdst haux
  rw [exec_busy hb] at ht
  injection ht with ht
  exact ht ▸ complete_frame hwf i j d hdst haux

/-- Settles O27: a command that has regions makes the region checks after the shape checks and before all else. -/
theorem badRegionsFailWithBadAddress : Obligations.BadRegionsFailWithBadAddress := by
  intro i s j d hb hshape hregions
  obtain ⟨hnop, hext⟩ := hregions.has_checks
  have hout : outOf i j = .error .badAddress := outOf_of_checks_error hnop hext (checks_badRegions hshape hregions)
  have hfail : FailedAs s (s.complete i j d (outOf i j)) .badAddress := failed_of hout
  exact ⟨_, exec_busy hb i, hfail, hfail.errcode⟩

end
end

section
/-! PROOFS, 30_encoding.md. The decoder and the encoder field by field (R90 to R99), and WAIT (R101): its polls and the
engine's turn, as events of the machine and as turns of a host script. -/

namespace Sys2Proof

/-! ### Legal fields -/

/-- Legal fields, check by check (R91 to R93). -/
theorem CmdFields.wf_iff (f : CmdFields) :
    f.wf = true ↔ f.rsv = 0 ∧ f.opc.toNat ≤ 0x0B ∧ (f.g = true → f.opc = 0x04 ∨ f.opc = 0x06) := by
  cases hg : f.g <;> simp [CmdFields.wf, CmdFields.rsvZero, CmdFields.opcDefined, CmdFields.gLegal, hg, and_assoc]

/-- Illegal fields are those that one of the three checks of R99 rejects. -/
theorem CmdFields.wf_eq_false_iff (f : CmdFields) :
    f.wf = false ↔ f.rsv ≠ 0 ∨ 0x0B < f.opc.toNat ∨ (f.g = true ∧ f.opc ≠ 0x04 ∧ f.opc ≠ 0x06) := by
  rw [← Bool.not_eq_true, f.wf_iff, not_and_or, not_and_or, not_le, Classical.not_imp, not_or]

/-- The fields of every command are legal. -/
theorem Instr.wf_eq_true (i : Instr) : i.wf = true := by
  cases i with
  | lsbEmbed g => exact (Laws.RoundTrip.lsbEmbed g).1
  | fftEmbed g => exact (Laws.RoundTrip.fftEmbed g).1
  | _ => decide

/-! ### The command of an opcode -/

/-- Every defined opcode names a command (R91, R96). -/
theorem commandOf_defined {opc : BitVec 8} (h : opc.toNat ≤ 0x0B) (g : Bool) : ∃ i, commandOf opc g = .ok i := by
  generalize hn : opc.toNat = n at h
  unfold commandOf
  rw [hn]
  interval_cases n <;> exact ⟨_, rfl⟩

/-- A command has the opcode that names it. -/
theorem opc_of_commandOf {opc : BitVec 8} {g : Bool} {i : Instr} (h : commandOf opc g = .ok i) : i.opc = opc := by
  apply BitVec.eq_of_toNat_eq
  unfold commandOf at h
  split at h
  case h_13 => cases h
  all_goals next hopc => injection h with h; subst h; exact hopc.symm

/-- A command of a legal G has that G (R92). -/
theorem gFlag_of_commandOf {opc : BitVec 8} {g : Bool} {i : Instr} (hg : g = true → opc = 0x04 ∨ opc = 0x06)
    (h : commandOf opc g = .ok i) : i.gFlag = g := by
  cases g with
  | true => obtain rfl | rfl := hg rfl <;> (injection h with h; subst h; rfl)
  | false =>
    unfold commandOf at h
    split at h
    case h_13 => cases h
    all_goals injection h with h; subst h; rfl

/-! ### The decoder -/

/-- The decoder reads the command of legal fields off the opcode map. -/
theorem decode_of_wf {w : Word} (h : (splitWord w).wf = true) :
    decode w = commandOf (splitWord w).opc (splitWord w).g := by
  obtain ⟨hrsv, hopc, hg⟩ := (CmdFields.wf_iff _).1 h
  simp only [decode]
  rw [if_neg (not_not.2 hrsv), if_neg (not_lt.2 hopc), if_neg fun ⟨h1, h4, h6⟩ => (hg h1).elim h4 h6]

/-- The decoder rejects exactly the words whose fields are illegal (R99). -/
theorem decode_eq_error_iff {w : Word} : (∃ e, decode w = .error e) ↔ (splitWord w).wf = false := by
  constructor
  · rintro ⟨e, he⟩
    refine Bool.eq_false_iff.2 fun hwf => ?_
    obtain ⟨i, hi⟩ := commandOf_defined ((CmdFields.wf_iff _).1 hwf).2.1 (splitWord w).g
    rw [decode_of_wf hwf, hi] at he
    cases he
  · intro h
    simp only [decode]
    split_ifs with hrsv hopc hg
    case neg => exact absurd ((CmdFields.wf_eq_false_iff _).1 h) (by tauto)
    all_goals exact ⟨_, rfl⟩

/-- A word that decodes has the fields of its command (R90). -/
theorem splitWord_of_decode {w : Word} {i : Instr} (h : decode w = .ok i) : splitWord w = i.fields := by
  have hwf : (splitWord w).wf = true := by
    rw [← Bool.not_eq_false, ← decode_eq_error_iff, h]
    rintro ⟨e, he⟩
    cases he
  obtain ⟨hrsv, -, hg⟩ := (CmdFields.wf_iff _).1 hwf
  rw [decode_of_wf hwf] at h
  rw [Instr.fields, opc_of_commandOf h, gFlag_of_commandOf hg h, ← hrsv]

/-- The one word that decodes to a command is its encoding. -/
theorem decode_eq_ok_iff {w : Word} {i : Instr} : decode w = .ok i ↔ w = encode i := by
  constructor
  · intro h
    rw [encode, ← splitWord_of_decode h, joinFields_splitWord]
  · rintro rfl
    exact Machine.decode_encode i

/-- The encodings of the commands are the twelve opcodes with G = 0, and LSB_EMBED and FFT_EMBED with G = 1 (R99). -/
theorem exists_eq_encode_iff {w : Word} : (∃ i, w = encode i) ↔
    w ∈ ([0x000, 0x001, 0x002, 0x003, 0x004, 0x005, 0x006, 0x007, 0x008, 0x009, 0x00A, 0x00B, 0x104, 0x106] : List Word) := by
  constructor
  · rintro ⟨i, rfl⟩
    cases i with
    | lsbEmbed g => cases g <;> decide
    | fftEmbed g => cases g <;> decide
    | _ => decide
  · simp only [List.mem_cons, List.not_mem_nil, or_false]
    rintro (rfl | rfl | rfl | rfl | rfl | rfl | rfl | rfl | rfl | rfl | rfl | rfl | rfl | rfl)
    exacts [⟨.nop, by decide⟩, ⟨.qrEncode, by decide⟩, ⟨.tileIndex, by decide⟩, ⟨.tileMap, by decide⟩,
      ⟨.lsbEmbed false, by decide⟩, ⟨.lsbExtract, by decide⟩, ⟨.fftEmbed false, by decide⟩, ⟨.fftExtract, by decide⟩,
      ⟨.max, by decide⟩, ⟨.normalize, by decide⟩, ⟨.fft2, by decide⟩, ⟨.ifft2, by decide⟩, ⟨.lsbEmbed true, by decide⟩,
      ⟨.fftEmbed true, by decide⟩]

end Sys2Proof

namespace Sys2Proof.Machine

/-! ### A word that is no command -/

/-- A Busy engine's turn on a word that decodes to no command fails with BadCommand, with no other effect (R97). -/
theorem afterTurn_of_decode_error {s : State} {j : Job} {d : Bool} {e : DecodeError} (h : decode j.word = .error e) :
    s.afterTurn j d = s.failWith .badCommand := by
  rw [State.afterTurn, h]
  rfl

/-- Taking an error is a failed completion. -/
theorem failWith_failedAs (s : State) (e : CmdError) : FailedAs s (s.failWith e) e :=
  ⟨⟨rfl, rfl, rfl, rfl, rfl⟩, rfl, rfl, rfl, rfl⟩

/-! ### The machine under WAIT -/

/-- The machine after a poll of STATUS, with the events that are then pending. -/
def State.polled (s : State) (rest : List Event) : State := { s with events := rest, readData := s.status.toWord }

section Polled
variable (s : State) (rest : List Event)

@[simp] theorem polled_engine : (s.polled rest).engine = s.engine := rfl
@[simp] theorem polled_cmd : (s.polled rest).cmd = s.cmd := rfl

/-- A poll reads BUSY in bit 0 (R26). -/
theorem polled_readData_bit0 : (s.polled rest).readData.getLsbD 0 = s.status.busy :=
  getLsbD_toWord s.status 0

end Polled

/-- After a Busy engine's turn BUSY is 0 (R113). -/
theorem afterTurn_busy (s : State) (j : Job) (d : Bool) : (s.afterTurn j d).status.busy = false := by
  rw [afterTurn_status]
  cases j.out <;> rfl

/-- A Busy engine's turn leaves the pending events alone. -/
@[simp] theorem afterTurn_events (s : State) (j : Job) (d : Bool) : (s.afterTurn j d).events = s.events := by
  unfold State.afterTurn; split <;> simp [State.completeBad]

/-- A pending poll of STATUS is the machine's next step. -/
theorem step_poll {s : State} {rest : List Event} (h : s.events = rdEvent .status :: rest) :
    step s = .next (s.polled rest) :=
  step_hostReads (r := .status) ⟨rest, h, rfl⟩

/-! ### WAIT as events of the machine -/

/-- Any number of polls, a Busy engine's turn and one more poll: the machine ends Idle, and that poll reads BUSY = 0. -/
theorem stepsTo_waitEvents (polls : Nat) {rest : List Event} {s : State} {j : Job} {d : Bool} (hb : s.engine = .busy j d)
    (he : s.events = waitEvents polls ++ rest) :
    ∃ t, StepsTo (polls + 2) s t ∧ t.engine = .idle ∧ t.events = rest ∧ t.readData.getLsbD 0 = false := by
  induction polls generalizing s with
  | zero =>
    have hturn := step_busyTurn (.inr ⟨_, he, rfl⟩) hb
    exact ⟨_, ⟨_, hturn, _, step_poll (rest := rest) (afterTurn_events _ _ _), rfl⟩, afterTurn_engine _ _ _, rfl,
      (polled_readData_bit0 _ _).trans (afterTurn_busy _ _ _)⟩
  | succ n ih =>
    obtain ⟨t, hsteps, ht⟩ := ih (s := s.polled (waitEvents n ++ rest)) hb rfl
    exact ⟨t, ⟨_, step_poll he, hsteps⟩, ht⟩

/-! ### WAIT in a host script -/

/-- A poll that reads BUSY = 1 is followed by another (R101). -/
theorem runOps_poll_busy {s : State} (h : s.status.busy = true) (ops : List HostOp) (turns : List Turn) :
    runOps (.untilIdle :: ops) (.host :: turns) s = runOps (.untilIdle :: ops) turns (s.polled []) := by
  rw [runOps_poll, if_pos h]
  rfl

/-- A poll that reads BUSY = 0 ends WAIT (R101). -/
theorem runOps_poll_idle {s : State} (h : s.status.busy = false) (ops : List HostOp) (turns : List Turn) :
    runOps (.untilIdle :: ops) (.host :: turns) s = runOps ops turns (s.polled []) := by
  rw [runOps_poll, if_neg (Bool.eq_false_iff.1 h)]
  rfl

/-- A turn of a Busy engine leaves the script where it is (R113). -/
theorem runOps_busyTurn {s : State} {j : Job} {d : Bool} (hb : s.engine = .busy j d) (ops : List HostOp)
    (turns : List Turn) :
    runOps ops (.other .engine :: turns) s = runOps ops turns (({ s with events := [] } : State).afterTurn j d) :=
  runOps_engine s ops turns (engineTurn_busy hb)

theorem waitTurns_succ (polls : Nat) : waitTurns (polls + 1) = .host :: waitTurns polls := rfl

/-- WAIT on a Busy machine, whatever number of polls comes before the engine's turn: it is done after one more poll, on
an Idle machine with the same CMD. -/
theorem runOps_waitTurns (polls : Nat) (ops : List HostOp) (turns : List Turn) {s : State} {j : Job} {d : Bool}
    (hb : s.engine = .busy j d) (hbusy : s.status.busy = true) :
    ∃ t, t.engine = .idle ∧ t.cmd = s.cmd ∧ t.readData.getLsbD 0 = false ∧
      runOps (.untilIdle :: ops) (waitTurns polls ++ turns) s = runOps ops turns t := by
  induction polls generalizing s with
  | zero =>
    have hidle := afterTurn_busy { s with events := [] } j d
    refine ⟨_, ?_, ?_, ?_, (runOps_busyTurn hb _ _).trans (runOps_poll_idle hidle ops turns)⟩
    · rw [polled_engine, afterTurn_engine]
    · rw [polled_cmd, afterTurn_cmd]
    · rw [polled_readData_bit0, hidle]
  | succ n ih =>
    obtain ⟨t, hidle, hcmd, hread, hrun⟩ := ih (s := s.polled []) hb hbusy
    exact ⟨t, hidle, hcmd, hread, by rw [waitTurns_succ, List.cons_append, runOps_poll_busy hbusy, hrun]⟩

/-- A CMD write while BUSY = 0 is accepted (R110). -/
theorem writeCmd_idle {s : State} (h : s.status.busy = false) (w : Word) : s.writeCmd w = s.accept w := by
  simp [State.writeCmd, h]

/-- The host's turn on a CMD write while BUSY = 0 is the accept of its word. -/
theorem runOps_cmd_idle {s : State} (h : s.status.busy = false) (w : Word) (ops : List HostOp) (turns : List Turn) :
    runOps (.access (wrEvent .cmd w) :: ops) (.host :: turns) s =
      runOps ops turns (({ s with events := [] } : State).accept w) := by
  rw [runOps_wr, State.writeCsr, writeCmd_idle (s := { s with events := [] }) h]

end Sys2Proof.Machine

/-! ### The obligations -/

section
open Sys2Proof Sys2Proof.Machine

/-- Settles O2: a word is made of its three fields, and those of a word that decodes are its command's. -/
theorem decodeAndEncodeAgree : Obligations.DecodeAndEncodeAgree :=
  ⟨Instr.wf_eq_true, fun _ _ => decode_eq_ok_iff⟩

/-- Settles O3: the rejected words are those of illegal fields, and the others are the encodings of the commands. -/
theorem decoderAcceptsExactlyFourteenWords : Obligations.DecoderAcceptsExactlyFourteenWords := by
  refine ⟨fun w => decode_eq_error_iff.trans (splitWord w).wf_eq_false_iff, fun w i h => ?_, fun w => ?_⟩
  · have hfields := splitWord_of_decode h
    exact ⟨(congrArg CmdFields.opc hfields).symm, (congrArg CmdFields.g hfields).symm⟩
  · rw [← exists_eq_encode_iff]
    exact exists_congr fun _ => decode_eq_ok_iff

/-- Settles O4: the decoder rejects such a word, and the engine's turn on it takes BadCommand. -/
theorem reservedWordsFailWithBadCommand : Obligations.ReservedWordsFailWithBadCommand := by
  intro s s0 j d hm hb hreserved
  obtain ⟨e, he⟩ := decode_eq_error_iff.2 ((splitWord j.word).wf_eq_false_iff.2 hreserved)
  exact ⟨s0.failWith .badCommand, afterTurn_of_decode_error he ▸ step_busyTurn hm hb, failWith_failedAs _ _, rfl, rfl⟩

/-- Settles O7, by induction on the number of polls before the engine's turn; RUN is the accept of its word and a WAIT. -/
theorem waitEnds : Obligations.WaitEnds := by
  refine ⟨fun polls rest s j d hb _ he => stepsTo_waitEvents polls hb he, fun ops turns s => ?_,
    fun polls ops turns s j d hb hbusy => ?_, fun i polls s hidle => ?_⟩
  · exact ⟨s.polled [], take_rdEvent s .status, polled_readData_bit0 s [], fun h => runOps_poll_busy h ops turns,
      fun h => runOps_poll_idle h ops turns⟩
  · obtain ⟨t, ht, _, hread, hrun⟩ := runOps_waitTurns polls ops turns hb hbusy
    exact ⟨t, ht, hread, hrun⟩
  · obtain ⟨t, ht, hcmd, hread, hrun⟩ := runOps_waitTurns polls [] []
      (s := ({ s with events := [] } : State).accept (encode i)) rfl rfl
    rw [List.append_nil] at hrun
    exact ⟨t, ht, hcmd, hread, (runOps_cmd_idle hidle (encode i) [.untilIdle] (waitTurns polls)).trans hrun⟩

/-- Settles O1: the fourteen words are the encodings of their commands, and each other word fails one of the three checks. -/
theorem specWordsDecodeToTheirCommands : Obligations.SpecWordsDecodeToTheirCommands :=
  ⟨decode_encode .nop, decode_encode .qrEncode, decode_encode .tileIndex, decode_encode .tileMap,
    decode_encode (.lsbEmbed false), decode_encode (.lsbEmbed true), decode_encode .lsbExtract,
    decode_encode (.fftEmbed false), decode_encode (.fftEmbed true), decode_encode .fftExtract, decode_encode .max,
    decode_encode .normalize, decode_encode .fft2, decode_encode .ifft2, by decide, by decide, by decide⟩

end
end

section
/-! PROOFS, 40_command_control.md, what R114 needs of FFT_EMBED. The bits of NaN values stop at `to_u8`: the steps of
44_fft.md R181 on arrays that are equal but for the bits of NaN values give arrays that are so again, equal maxima and equal
samples (I11, R194; logs 11, 12). -/

namespace Sys2Proof.Machine

/-! ### Arrays equal under a map -/

/-- Elements at one place of two arrays equal under a map are equal under it. -/
theorem getElem_congr_under {α γ : Type} {p : α → γ} {l m : List α} (h : l.map p = m.map p) {k : Nat}
    (hl : k < l.length) (hm : k < m.length) : p l[k] = p m[k] := by
  simpa [hl, hm] using congrArg (·[k]?) h

/-- A map that sees each element's place keeps a likeness of arrays that it keeps at every place. -/
theorem map_zipIdx_congr {α β γ δ : Type} {p : α → γ} {q : β → δ} {f g : α × Nat → β} {l m : List α}
    (h : l.map p = m.map p) (hfg : ∀ a b k, p a = p b → q (f (a, k)) = q (g (b, k))) :
    ((l.zipIdx).map f).map q = ((m.zipIdx).map g).map q := by
  have hlen : l.length = m.length := by simpa using congrArg List.length h
  refine List.ext_getElem (by simp [hlen]) fun k hl hm => ?_
  simp only [List.length_map, List.length_zipIdx] at hl hm
  simpa using hfg _ _ k (getElem_congr_under h hl hm)

/-- A map keeps a likeness of arrays that it keeps of every element. -/
theorem map_congr_under {α β γ δ : Type} {p : α → γ} {q : β → δ} {f : α → β} {l m : List α} (h : l.map p = m.map p)
    (hf : ∀ a b, p a = p b → q (f a) = q (f b)) : (l.map f).map q = (m.map f).map q := by
  have hlen : l.length = m.length := by simpa using congrArg List.length h
  refine List.ext_getElem (by simp [hlen]) fun k hl hm => ?_
  simp only [List.length_map] at hl hm
  simpa using hf _ _ (getElem_congr_under h hl hm)

/-! ### The scalar kernel (N3) -/

@[simp] theorem isNaN_canon (v : F64) : F64.isNaN (F64.canon v) = F64.isNaN v := by
  unfold F64.canon
  split_ifs with h
  · rw [h, isNaN_qNaN]
  · rfl

theorem canon_of_not_nan {v : F64} (h : F64.isNaN v = false) : F64.canon v = v := by
  simp [F64.canon, h]

/-- A function of one value that gives a NaN for every NaN takes no NaN bits in. -/
theorem canon_fn {f : F64 → F64} (hnan : ∀ v, F64.isNaN v = true → F64.isNaN (f v) = true) {v u : F64}
    (h : F64.canon v = F64.canon u) : F64.canon (f v) = F64.canon (f u) := by
  obtain rfl | ⟨hv, hu⟩ := canon_eq_iff.1 h
  · rfl
  · exact canon_eq_of_nan (hnan v hv) (hnan u hu)

theorem isNaN_log10 {v : F64} (h : F64.isNaN v = true) : F64.isNaN (Num.log10 v) = true := by
  rw [Num.log10, if_pos h]; exact isNaN_quiet _

theorem isNaN_pow10 {v : F64} (h : F64.isNaN v = true) : F64.isNaN (Num.pow10 v) = true := by
  rw [Num.pow10, if_pos h]; exact isNaN_quiet _

theorem isNaN_cos {v : F64} (h : F64.isNaN v = true) : F64.isNaN (Num.cos v) = true := by
  rw [Num.cos, if_pos h]; exact isNaN_quiet _

theorem isNaN_sin {v : F64} (h : F64.isNaN v = true) : F64.isNaN (Num.sin v) = true := by
  rw [Num.sin, if_pos h]; exact isNaN_quiet _

theorem isNaN_arg {v z : F64} (h : F64.isNaN v = true ∨ F64.isNaN z = true) : F64.isNaN (Num.arg v z) = true := by
  rw [Num.arg, if_pos (by simpa using h)]; exact isNaN_quiet _

/-- An infinite component makes a magnitude infinite, whatever the other one (N3; log 23). -/
theorem abs_of_isInf {v z : F64} (h : F64.isInf v = true ∨ F64.isInf z = true) : Num.abs v z = F64.inf false := by
  rw [Num.abs, if_pos (by simpa using h)]

/-- A NaN without an infinity makes a magnitude NaN (N3). -/
theorem isNaN_abs {v z : F64} (hi : F64.isInf v = false ∧ F64.isInf z = false)
    (h : F64.isNaN v = true ∨ F64.isNaN z = true) : F64.isNaN (Num.abs v z) = true := by
  rw [Num.abs, if_neg (by simp [hi]), if_pos (by simpa using h)]; exact isNaN_quiet _

theorem isInf_of_canon_eq {v u : F64} (h : F64.canon v = F64.canon u) : F64.isInf v = F64.isInf u := by
  obtain rfl | ⟨hv, hu⟩ := canon_eq_iff.1 h
  · rfl
  · rw [not_inf_of_nan hv, not_inf_of_nan hu]

theorem canon_abs {v u y z : F64} (h : F64.canon v = F64.canon u) (h' : F64.canon y = F64.canon z) :
    F64.canon (Num.abs v y) = F64.canon (Num.abs u z) := by
  by_cases hinf : F64.isInf v = true ∨ F64.isInf y = true
  · rw [abs_of_isInf hinf, abs_of_isInf (by rwa [← isInf_of_canon_eq h, ← isInf_of_canon_eq h'])]
  · have hinf : F64.isInf v = false ∧ F64.isInf y = false := by simpa using hinf
    by_cases hnan : F64.isNaN v = true ∨ F64.isNaN y = true
    · refine canon_eq_of_nan (isNaN_abs hinf hnan) (isNaN_abs ?_ ?_)
      · rwa [← isInf_of_canon_eq h, ← isInf_of_canon_eq h']
      · rwa [← isNaN_of_canon_eq h, ← isNaN_of_canon_eq h']
    · obtain rfl := (canon_eq_iff.1 h).resolve_right fun hn => hnan (.inl hn.1)
      obtain rfl := (canon_eq_iff.1 h').resolve_right fun hn => hnan (.inr hn.1)
      rfl

theorem canon_arg {v u y z : F64} (h : F64.canon v = F64.canon u) (h' : F64.canon y = F64.canon z) :
    F64.canon (Num.arg v y) = F64.canon (Num.arg u z) :=
  canon_op (fun _ => Num.arg) (fun _ _ _ => isNaN_arg) (fun _ _ _ _ => rfl) (n := 0) (m := 0) h h'

/-! ### The transforms -/

theorem SameButNaN.getD {l m : List C64} (h : SameButNaN l m) (k : Nat) :
    C64.canon (l.getD k default) = C64.canon (m.getD k default) := by
  rw [← List.getD_map (f := C64.canon), ← List.getD_map (f := C64.canon), h]

/-- Tables equal but for NaN bits have passes equal but for NaN bits. -/
theorem canon_entry_passes (sign : DftSign) {w h : Nat} {a b : Nat → Nat → C64}
    (hab : ∀ x y, C64.canon (a x y) = C64.canon (b x y)) {u v : Nat} (hu : u < w) (hv : v < h) :
    C64.canon (entry (passes sign w h ((List.range w).map fun x => (List.range h).map fun y => a x y)) u v) =
      C64.canon (entry (passes sign w h ((List.range w).map fun x => (List.range h).map fun y => b x y)) u v) := by
  have hrow : ∀ x, SameButNaN ((List.range h).map fun y => a x y) ((List.range h).map fun y => b x y) := fun x => by
    simp [SameButNaN, hab]
  have hcol : SameButNaN
      ((List.range w).map fun x => (Num.dft1 sign ((List.range h).map fun y => a x y)).getD v default)
      ((List.range w).map fun x => (Num.dft1 sign ((List.range h).map fun y => b x y)).getD v default) := by
    simp only [SameButNaN, List.map_map]
    exact List.map_congr_left fun x _ => (sameButNaN_dft1 sign (hrow x)).getD v
  rw [entry_passes sign w h a hu hv, entry_passes sign w h b hu hv]
  exact (sameButNaN_dft1 sign hcol).getD u

theorem canon_entry_ifft2 (nan1 nan2 : Nat → NanBits) {w h : Nat} {a b : Nat → Nat → C64}
    (hab : ∀ x y, C64.canon (a x y) = C64.canon (b x y)) {u v : Nat} (hu : u < w) (hv : v < h) :
    C64.canon (entry (ifft2 nan1 w h ((List.range w).map fun x => (List.range h).map fun y => a x y)) u v) =
      C64.canon (entry (ifft2 nan2 w h ((List.range w).map fun x => (List.range h).map fun y => b x y)) u v) := by
  obtain ⟨hre, him⟩ := c64_canon_eq_iff.1 (canon_entry_passes .plus hab hu hv)
  simp only [ifft2, ifft2Of]
  rw [entry_table _ hu hv, entry_table _ hu hv, c64_canon_eq_iff]
  exact ⟨canon_div hre rfl, canon_div him rfl⟩

/-- A transform of every channel keeps arrays equal but for NaN bits where it keeps tables so. -/
theorem sameButNaN_perChannel {w h n : Nat} {f g : Nat → List (List C64) → List (List C64)} {l m : List C64}
    (hlm : SameButNaN l m)
    (hfg : ∀ (c : Nat) (a b : Nat → Nat → C64), (∀ x y, C64.canon (a x y) = C64.canon (b x y)) → ∀ u < w, ∀ v < h,
      C64.canon (entry (f c ((List.range w).map fun x => (List.range h).map fun y => a x y)) u v) =
        C64.canon (entry (g c ((List.range w).map fun x => (List.range h).map fun y => b x y)) u v)) :
    SameButNaN (perChannel w h n f l) (perChannel w h n g m) := by
  unfold perChannel merge
  simp only [SameButNaN, List.map_map]
  refine List.map_congr_left fun k hk => ?_
  have hk : k < w * h * n := List.mem_range.1 hk
  have hn : 0 < n := Nat.pos_of_ne_zero fun h0 => by simp [h0] at hk
  have hwh : k / n < w * h := Nat.div_lt_of_lt_mul (by rwa [Nat.mul_comm])
  have hh : 0 < h := Nat.pos_of_ne_zero fun h0 => by simp [h0] at hwh
  simp only [Function.comp, getD_map_range _ _ (Nat.mod_lt k hn)]
  exact hfg _ _ _ (fun x y => hlm.getD _) _ (Nat.div_lt_of_lt_mul (by rwa [Nat.mul_comm])) _ (Nat.mod_lt _ hh)

/-! ### The eight steps -/

/-- Binary64 arrays equal but for NaN bits. -/
def SameFloats (a b : List F64) : Prop := a.map F64.canon = b.map F64.canon

/-- `fmax` skips every NaN, whatever its bits (R211). -/
theorem fmaxStep_canon (cur : Option F64) (v : F64) : fmaxStep cur (F64.canon v) = fmaxStep cur v := by
  cases h : F64.isNaN v with
  | true => simp [fmaxStep, h]
  | false => rw [canon_of_not_nan h]

theorem fmax_canon (a : List F64) : fmax (a.map F64.canon) = fmax a := by
  simp only [fmax, List.foldl_map, fmaxStep_canon]

theorem SameFloats.maxToDivideBy {a b : List F64} (h : SameFloats a b) :
    Machine.maxToDivideBy a = Machine.maxToDivideBy b := by
  rw [Machine.maxToDivideBy, Machine.maxToDivideBy, ← fmax_canon a, ← fmax_canon b, h]

theorem SameFloats.norm {a b : List F64} (h : SameFloats a b) (nan1 nan2 : Nat → NanBits) (m f : F64) :
    SameFloats (Machine.norm nan1 a m f) (Machine.norm nan2 b m f) :=
  map_zipIdx_congr h fun _ _ _ hv => canon_mul (canon_div hv rfl) rfl

/-- `to_u8` gives 0 for every NaN (R194). -/
theorem toU8_congr {v u : F64} (h : F64.canon v = F64.canon u) : F64.toU8 v = F64.toU8 u := by
  obtain rfl | ⟨hv, hu⟩ := canon_eq_iff.1 h
  · rfl
  · rw [F64.toU8, F64.toU8, if_pos hv, if_pos hu]

theorem SameFloats.toU8 {a b : List F64} (h : SameFloats a b) : a.map F64.toU8 = b.map F64.toU8 := by
  simpa only [List.map_id] using map_congr_under (f := F64.toU8) (q := id) h fun _ _ => toU8_congr

theorem sameButNaN_embedSpectrum (nan1 nan2 : Nat → Nat → NanBits) (w h : Nat) (pixels : List Byte) :
    SameButNaN (embedSpectrum nan1 w h pixels) (embedSpectrum nan2 w h pixels) := by
  refine sameButNaN_perChannel ?_ fun c a b hab u hu v hv => canon_entry_passes .minus hab hu hv
  refine map_zipIdx_congr (p := id) rfl fun a b k hab => c64_canon_eq_iff.2 ⟨?_, rfl⟩
  obtain rfl : a = b := hab
  exact canon_div rfl rfl

theorem SameButNaN.embedLog {s t : List C64} (h : SameButNaN s t) :
    SameFloats (Machine.embedLog s) (Machine.embedLog t) := by
  refine map_congr_under h fun a b hab => ?_
  obtain ⟨hre, him⟩ := c64_canon_eq_iff.1 hab
  exact canon_fn (fun _ => isNaN_log10) (canon_abs hre him)

theorem SameFloats.embedPerturbed {a b : List F64} (hab : SameFloats a b) (nan1 nan2 : Nat → Nat → NanBits)
    (grid : Nat → Bool) (h l : Nat) :
    SameFloats (Machine.embedPerturbed nan1 grid h l a) (Machine.embedPerturbed nan2 grid h l b) :=
  map_zipIdx_congr hab fun _ _ _ hv => canon_add hv rfl

theorem SameButNaN.embedRebuilt {s t : List C64} {a b : List F64} (hst : SameButNaN s t) (hab : SameFloats a b)
    (nan1 nan2 : Nat → Nat → NanBits) :
    SameButNaN (Machine.embedRebuilt nan1 s a) (Machine.embedRebuilt nan2 t b) := by
  have hzip : (s.zip a).map (Prod.map C64.canon F64.canon) = (t.zip b).map (Prod.map C64.canon F64.canon) := by
    rw [← List.zip_map, ← List.zip_map, hst, hab]
  refine map_zipIdx_congr hzip fun p q k hpq => ?_
  obtain ⟨hz, hv⟩ := Prod.mk.inj hpq
  obtain ⟨hre, him⟩ := c64_canon_eq_iff.1 hz
  have hphase := canon_arg hre him
  have hmag := canon_fn (fun _ => isNaN_pow10) hv
  exact c64_canon_eq_iff.2 ⟨canon_mul hmag (canon_fn (fun _ => isNaN_cos) hphase),
    canon_mul hmag (canon_fn (fun _ => isNaN_sin) hphase)⟩

theorem SameButNaN.embedReal {s t : List C64} (h : SameButNaN s t) (nan1 nan2 : Nat → Nat → NanBits) (w k : Nat) :
    SameFloats (Machine.embedReal nan1 w k s) (Machine.embedReal nan2 w k t) := by
  have hinv : SameButNaN (perChannel w k 3 (fun c => ifft2 (nan1 (8 + c)) w k) s)
      (perChannel w k 3 (fun c => ifft2 (nan2 (8 + c)) w k) t) :=
    sameButNaN_perChannel h fun c a b hab u hu v hv => canon_entry_ifft2 _ _ hab hu hv
  exact map_congr_under hinv fun _ _ hz => (c64_canon_eq_iff.1 hz).1

/-- The free bits of NaN values reach neither the samples of FFT_EMBED nor its error (I11). -/
theorem embedPixels_nanBits (nan1 nan2 : Nat → Nat → NanBits) (grid : Nat → Bool) (w h l : Nat) (pixels : List Byte) :
    embedPixels nan1 grid w h l pixels = embedPixels nan2 grid w h l pixels := by
  have hspec := sameButNaN_embedSpectrum nan1 nan2 w h pixels
  have hlog := hspec.embedLog
  unfold embedPixels
  simp only
  rw [hlog.maxToDivideBy]
  refine bind_congr fun premax => ?_
  have hl2 := (hlog.norm (nan1 4) (nan2 4) premax F64.twoFiftyFive).embedPerturbed nan1 nan2 grid h l
  rw [hl2.maxToDivideBy]
  refine bind_congr fun m2 => ?_
  have hreal := (hspec.embedRebuilt (hl2.norm (nan1 6) (nan2 6) m2 premax) nan1 nan2).embedReal nan1 nan2 w h
  rw [hreal.maxToDivideBy]
  refine bind_congr fun rmax => ?_
  rw [(hreal.norm (nan1 11) (nan2 11) rmax F64.twoFiftyFive).toU8]

end Sys2Proof.Machine
end

section
/-! PROOFS, 40_command_control.md. The accept of a CMD write and OVR (R110, R111), what every completion is (R113, R116,
R117), the grid source (R120), and that a command reads only its operands and its regions (R114). -/

namespace Sys2Proof.Machine

/-! ### OVR -/

/-- A command's completion leaves OVR alone. -/
@[simp] theorem statusAfter_ovr (t : Status) (out : CmdOut) : (statusAfter t out).ovr = t.ovr := by
  cases out <;> rfl

theorem writeOps_status (s : State) (o : Operands) : (s.writeOps o).status = s.status := by
  unfold State.writeOps; split <;> rfl

theorem writeDmem_status (s : State) (width a : Nat) (v : Word) : (s.writeDmem width a v).status = s.status := by
  unfold State.writeDmem; split <;> rfl

theorem softReset_ovr (s : State) : s.softReset.status.ovr = false := by
  unfold State.softReset; split <;> rfl

/-- What a register write does to OVR: a CMD write while BUSY = 1 sets it, a soft reset and a W1C of bit 8 clear it, and every
other write leaves it alone (R26, R111, R241). -/
theorem writeCsr_ovr (s : State) (r : Csr) (v : Word) : (s.writeCsr r v).status.ovr = s.status.ovr ∨
    ((s.writeCsr r v).status.ovr = true ∧ s.status.busy = true ∧ r = .cmd) ∨
    ((s.writeCsr r v).status.ovr = false ∧ (r = .ctrl ∧ v.getLsbD 1 = true ∨ r = .status ∧ v.getLsbD 8 = true)) := by
  cases r with
  | cmd =>
    cases hb : s.status.busy with
    | true => exact .inr (.inl ⟨by rw [State.writeCsr, writeCmd_busy hb, overrun_ovr], rfl, rfl⟩)
    | false => exact .inl (by rw [State.writeCsr, writeCmd_idle hb, accept_status, accepted_ovr])
  | ctrl =>
    cases hv : v.getLsbD 1 with
    | true => exact .inr (.inr ⟨by rw [State.writeCsr, writeCtrl_reset hv, softReset_ovr], .inl ⟨rfl, rfl⟩⟩)
    | false => exact .inl (by rw [State.writeCsr, writeCtrl_irqEn hv])
  | status =>
    cases hv : v.getLsbD 8 with
    | true => exact .inr (.inr ⟨by simp [State.writeCsr, hv], .inr ⟨rfl, rfl⟩⟩)
    | false => exact .inl (by simp only [State.writeCsr, w1c_ovr, hv, Bool.not_false, Bool.and_true])
  | id | resultLo | resultHi | qrSide | strength | qrCap | dmemSize => exact .inl rfl
  | _ => exact .inl (by rw [State.writeCsr, writeOps_status])

/-- What a step does to OVR (R111, R241). -/
theorem step_ovr {s t : State} (hs : step s = .next t) : t.status.ovr = s.status.ovr ∨
    (t.status.ovr = true ∧ s.status.busy = true ∧ ∃ s0 w, HostWrites s s0 0x00C w) ∨
    (t.status.ovr = false ∧ (ResetComes s ∨ ∃ s0 v, HostWrites s s0 0x008 v ∧ v.getLsbD 8 = true)) := by
  cases step_cases hs with
  | idleTurn hm hi => obtain ⟨rest, rfl⟩ := hm.sameButEvents; exact .inl rfl
  | busyTurn hm hb => obtain ⟨rest, rfl⟩ := hm.sameButEvents; exact .inl (by simp)
  | read he v n => exact .inl rfl
  | @writeCsr s0 r v hw =>
    rw [← hw.status_eq]
    obtain hsame | ⟨hset, hb, rfl⟩ | ⟨hclear, ⟨rfl, hv⟩ | ⟨rfl, hv⟩⟩ := writeCsr_ovr s0 r v
    · exact .inl hsame
    · exact .inr (.inl ⟨hset, hb, s0, v, hw⟩)
    · exact .inr (.inr ⟨hclear, .inl (.inr ⟨s0, v, hw, hv⟩)⟩)
    · exact .inr (.inr ⟨hclear, .inr ⟨s0, v, hw, hv⟩⟩)
  | writeReserved hw => exact .inl (by rw [hw.status_eq])
  | writeDmem he hf ha => exact .inl (by rw [writeDmem_status])
  | powerOn he => exact .inr (.inr ⟨rfl, .inl (.inl ⟨_, he⟩)⟩)

/-! ### Completion -/

/-- A Busy engine's turn on a word that is no command takes BadCommand (R97). -/
theorem step_of_decode_error {s s0 : State} {j : Job} {d : Bool} {e : DecodeError} (hm : EngineMoves s s0)
    (hb : s.engine = .busy j d) (he : decode j.word = .error e) : step s = .next (s0.failWith .badCommand) := by
  rw [step_busyTurn hm hb, afterTurn_of_decode_error he]

/-- A command other than TILE_INDEX and MAX leaves RESULT alone, whatever its outcome (R36). -/
theorem complete_sameResult {i : Instr} (hindex : i ≠ .tileIndex) (hmax : i ≠ .max) (s : State) (j : Job) (d : Bool) :
    SameResult s (s.complete i j d (outOf i j)) := by
  cases ho : outOf i j with
  | ok e => simp [SameResult, resultOf, outOf_result ho hindex hmax]
  | error e => simp [SameResult, resultOf]

/-- NOP and FFT_EXTRACT have no shape that could be bad (R117, R118). -/
theorem BadShape.has_checks {i : Instr} {o : Operands} (h : BadShape i o) : i ≠ .nop ∧ i ≠ .fftExtract := by
  constructor <;> rintro rfl <;> exact h

/-- NOP leaves DMEM alone, whatever the host did while it ran. -/
theorem complete_nop_dmem (s : State) (j : Job) (d : Bool) : (s.complete .nop j d (nopOut j)).dmem = s.dmem := by
  cases d <;> rfl

/-! ### The grid source -/

/-- A direct grid reads true where its byte is not 0x00 (R120). -/
theorem gridSource_direct (j : Job) :
    gridSource true j = .ok fun i => j.snap.readByte (j.latched.src.toNat + i) != 0 := rfl

/-- A payload's grid is that of QrEncode (R120, R131). -/
theorem gridSource_payload {j : Job} {grid : Nat → Bool}
    (h : qrEncode (j.bytes j.latched.src.toNat j.latched.len.toNat) = some grid) : gridSource false j = .ok grid := by
  simp [gridSource, h]

/-- A payload that QrEncode refuses is PayloadTooLarge (R120). -/
theorem gridSource_tooLarge {j : Job} (h : qrEncode (j.bytes j.latched.src.toNat j.latched.len.toNat) = none) :
    gridSource false j = .error .payloadTooLarge := by
  simp [gridSource, h]

/-! ### What a command reads -/

/-- Two memories hold the same `size` bytes from `base` on. -/
def SameBytes (m n : Memory) (base size : Nat) : Prop := ∀ k < size, m.readByte (base + k) = n.readByte (base + k)

/-- Memories that agree on a region hold the same bytes from its base on. -/
theorem sameBytes_of_region {m n : Memory} {r : Option Region}
    (h : ∀ a, inRegion r a = true → m.readByte a = n.readByte a) {q : Region} (hq : r = some q) :
    SameBytes m n q.base q.size := fun k hk => h _ (by rw [hq]; exact has_iff.2 (by omega))

theorem SameBytes.part {m n : Memory} {base size : Nat} (h : SameBytes m n base size) {start len : Nat}
    (hle : start + len ≤ size) : SameBytes m n (base + start) len := fun k hk => by
  rw [Nat.add_assoc]
  exact h _ (by omega)

theorem SameBytes.shorten {m n : Memory} {base size len : Nat} (h : SameBytes m n base size) (hle : len ≤ size) :
    SameBytes m n base len := fun k hk => h k (by omega)

theorem SameBytes.readLE {m n : Memory} {base size : Nat} (h : SameBytes m n base size) :
    m.readLE base size = n.readLE base size := by
  induction size generalizing base with
  | zero => rfl
  | succ size ih =>
    have hfirst : m.readByte base = n.readByte base := h 0 (by omega)
    rw [Memory.readLE, Memory.readLE, ih (h.part (start := 1) (by omega)), hfirst]

theorem SameBytes.readF64 {m n : Memory} {base : Nat} (h : SameBytes m n base 8) : m.readF64 base = n.readF64 base := by
  rw [Memory.readF64, Memory.readF64, h.readLE]

theorem SameBytes.readC64 {m n : Memory} {base : Nat} (h : SameBytes m n base 16) : m.readC64 base = n.readC64 base := by
  rw [Memory.readC64, Memory.readC64, (h.shorten (len := 8) (by omega)).readF64,
    (h.part (start := 8) (len := 8) (by omega)).readF64]

/-- A later step may use that the first one answered. -/
theorem bind_congr_of_ok {α β : Type} {x : Except CmdError α} {f g : α → Except CmdError β}
    (h : ∀ a, x = .ok a → f a = g a) : (x >>= f) = (x >>= g) := by
  cases x with
  | error e => rfl
  | ok a => exact h a rfl

section TwoJobs
variable {w1 w2 : Word} {o : Operands} {m n : Memory}

theorem bytes_congr {base size : Nat} (h : SameBytes m n base size) :
    Job.bytes ⟨w1, o, m⟩ base size = Job.bytes ⟨w2, o, n⟩ base size :=
  List.map_congr_left fun k hk => h k (List.mem_range.1 hk)

theorem f64Array_congr {base : Nat} (h : SameBytes m n base (8 * o.len.toNat)) :
    Job.f64Array ⟨w1, o, m⟩ base = Job.f64Array ⟨w2, o, n⟩ base :=
  List.map_congr_left fun k hk => (h.part (by have := List.mem_range.1 hk; dsimp only at this; omega)).readF64

theorem c64Array_congr {base : Nat} (h : SameBytes m n base (16 * o.area * o.nchan.toNat)) :
    Job.c64Array ⟨w1, o, m⟩ base = Job.c64Array ⟨w2, o, n⟩ base := by
  rw [Nat.mul_assoc] at h
  exact List.map_congr_left fun k hk => (h.part (by have := List.mem_range.1 hk; dsimp only at this; omega)).readC64

/-- The grid sources of two jobs with one payload or one direct grid agree, in their error and in every cell of the grid;
what follows may use no cell beyond. -/
theorem gridSource_bind_congr {g : Bool} (h : SameBytes m n (gridRegion g o).base (gridRegion g o).size)
    {F G : (Nat → Bool) → CmdOut}
    (hFG : ∀ grid grid', (∀ k < gridSideOf g o * gridSideOf g o, grid k = grid' k) → F grid = G grid') :
    (gridSource g ⟨w1, o, m⟩ >>= F) = (gridSource g ⟨w2, o, n⟩ >>= G) := by
  cases g with
  | true => exact hFG _ _ fun k hk => congrArg (· != 0) (h k hk)
  | false =>
    have hbytes : Job.bytes ⟨w1, o, m⟩ o.src.toNat o.len.toNat = Job.bytes ⟨w2, o, n⟩ o.src.toNat o.len.toNat :=
      bytes_congr h
    have hsource : gridSource false ⟨w1, o, m⟩ = gridSource false ⟨w2, o, n⟩ := by
      simp only [gridSource, Bool.false_eq_true, if_false, hbytes]
    rw [hsource]
    exact bind_congr fun grid => hFG grid grid fun _ _ => rfl

end TwoJobs

/-- An embedder's grid has a cell where its shape is good (R118). -/
theorem gridSideOf_pos {g : Bool} {o : Operands} (h : ¬ (g = true ∧ ¬ LegalSide o.tileL.toNat)) : 1 ≤ gridSideOf g o := by
  cases g with
  | true => exact (Decidable.not_not.1 fun hl => h ⟨rfl, hl⟩ : LegalSide o.tileL.toNat).1
  | false => exact (by decide : 1 ≤ Config.gridSide)

/-- FFT_EMBED's steps read the cells of the grid alone. -/
theorem embedPixels_grid_congr (nan : Nat → Nat → NanBits) {grid grid' : Nat → Bool} {l : Nat} (hl : 1 ≤ l)
    (h : ∀ k < l * l, grid k = grid' k) (w ht : Nat) (pixels : List Byte) :
    embedPixels nan grid w ht l pixels = embedPixels nan grid' w ht l pixels := by
  have hstep : embedPerturbed nan grid ht l = embedPerturbed nan grid' ht l := by
    funext a
    simp only [embedPerturbed, tiledCell_congr hl h]
  unfold embedPixels
  rw [hstep]

/-- What a command computes depends on its latched operands and on the bytes of its SRC and DST regions at accept (R114).
NORMALIZE and IFFT2 may write NaN elements, whose bits are free (log 12). -/
theorem outOf_congr {i : Instr} (hnorm : i ≠ .normalize) (hifft : i ≠ .ifft2) (w1 w2 : Word) (o : Operands) {m n : Memory}
    (hsrc : ∀ r, srcRegion i o = some r → SameBytes m n r.base r.size)
    (hdst : ∀ r, dstRegion i o = some r → SameBytes m n r.base r.size) :
    outOf i ⟨w1, o, m⟩ = outOf i ⟨w2, o, n⟩ := by
  cases i with
  | normalize => exact absurd rfl hnorm
  | ifft2 => exact absurd rfl hifft
  | nop | tileIndex | tileMap | fftExtract => rfl
  | qrEncode =>
    refine bind_congr fun _ => gridSource_bind_congr (g := false) (hsrc _ rfl) fun grid grid' hgrid => ?_
    have hbytes : gridBytes grid = gridBytes grid' :=
      List.map_congr_left fun k hk => by rw [hgrid k (List.mem_range.1 hk)]
    rw [hbytes]
  | lsbEmbed g =>
    refine bind_congr_of_ok fun _ hc => gridSource_bind_congr (hsrc _ rfl) fun grid grid' hgrid => ?_
    have hside : 1 ≤ gridSideOf g o := gridSideOf_pos fun h => (checks_ok_iff.1 hc).1 (.inr (.inr h))
    refine congrArg (okBytes o.dst.toNat) (List.map_congr_left fun k hk => ?_)
    exact congrArg₂ withLsb (hdst _ rfl k (List.mem_range.1 hk)) (tiledCell_congr hside hgrid k)
  | lsbExtract =>
    refine bind_congr fun _ => congrArg (okBytes o.dst.toNat) (List.map_congr_left fun k hk => ?_)
    exact congrArg grayOf (hsrc _ rfl _ (by have := List.mem_range.1 hk; dsimp only at this ⊢; omega))
  | fftEmbed g =>
    refine bind_congr_of_ok fun _ hc => gridSource_bind_congr (hsrc _ rfl) fun grid grid' hgrid => ?_
    have hside : 1 ≤ gridSideOf g o := gridSideOf_pos fun h => (checks_ok_iff.1 hc).1 (.inr (.inr h))
    dsimp only
    rw [bytes_congr (w1 := w1) (w2 := w2) (hdst _ rfl), embedPixels_grid_congr _ hside hgrid, embedPixels_nanBits]
  | max => exact bind_congr fun _ => by dsimp only; rw [f64Array_congr (w1 := w1) (w2 := w2) (hsrc _ rfl)]
  | fft2 => exact bind_congr fun _ => by dsimp only; rw [c64Array_congr (w1 := w1) (w2 := w2) (hsrc _ rfl)]

/-- A completion with no host write leaves in DST what the command wrote (R67, R70). -/
theorem complete_readByte_dst {s : State} (hw : s.dmem.wf) (i : Instr) (j : Job) (out : CmdOut) {a : Nat}
    (ha : inRegion (dstRegion i j.latched) a = true) :
    (s.complete i j false out).byte a = (writtenBy s.dmem out).readByte a := by
  refine complete_readByte hw i j false out fun hm => ?_
  simp [openAddrs, scratchAddrs_iff, ha] at hm

/-- One list of writes keeps two memories alike at a byte. -/
theorem readByte_writeCells_congr {m n : Memory} (hm : m.wf) (hn : n.wf) {a : Nat} (h : m.readByte a = n.readByte a)
    (l : List Host.Cell) : (m.writeCells l).readByte a = (n.writeCells l).readByte a := by
  induction l generalizing m n with
  | nil => exact h
  | cons c l ih =>
    refine ih (writeByte_wf hm _ _) (writeByte_wf hn _ _) ?_
    rw [readByte_writeByte hm, readByte_writeByte hn, h]

theorem writtenBy_readByte_congr {m n : Memory} (hm : m.wf) (hn : n.wf) {a : Nat} (h : m.readByte a = n.readByte a)
    (out : CmdOut) : (writtenBy m out).readByte a = (writtenBy n out).readByte a := by
  cases out with
  | ok e => exact readByte_writeCells_congr hm hn h _
  | error e => exact h

end Sys2Proof.Machine

/-! ### The obligations -/

section
open Sys2Proof Sys2Proof.Machine

/-- Settles O17: the write is the accept of its word, and the engine's turn on a word that is no command takes BadCommand. -/
theorem cmdWriteWhileIdleIsAccepted : Obligations.CmdWriteWhileIdleIsAccepted := by
  intro s s0 w hb hw
  rw [← hw.status_eq] at hb
  refine ⟨s0.accept w, ?_, by simp [State.irq], rfl, fun e t0 he hm =>
    ⟨t0.failWith .badCommand, step_of_decode_error hm (accept_engine s0 w) he, failWith_failedAs _ _⟩⟩
  rw [step_hostWrites (r := .cmd) hw, State.writeCsr, writeCmd_idle hb]

/-- Settles O18: OVR changes in a step only as `step_ovr` says. -/
theorem cmdWriteWhileBusyOnlySetsOverrun : Obligations.CmdWriteWhileBusyOnlySetsOverrun := by
  refine ⟨fun s s0 w hb hw => ?_, fun s t hs => ?_⟩
  · rw [← hw.status_eq] at hb
    refine ⟨_, ?_, rfl, ?_⟩
    · rw [step_hostWrites (r := .cmd) hw, State.writeCsr, writeCmd_busy hb, Status.overrun]
    · obtain ⟨rest, rfl⟩ := hw.sameButEvents
      rfl
  · obtain hsame | ⟨hset, hwrite⟩ | ⟨hclear, hcause⟩ := step_ovr hs
    · rw [hsame]
      exact ⟨fun h0 h1 => absurd (h0.symm.trans h1) (by decide), fun h0 h1 => absurd (h0.symm.trans h1) (by decide)⟩
    · exact ⟨fun _ _ => hwrite, fun _ h1 => absurd (h1.symm.trans hset) (by decide)⟩
    · exact ⟨fun _ h1 => absurd (hclear.symm.trans h1) (by decide), fun _ _ => hcause⟩

/-- Settles O23, by the outcome of the command. -/
theorem everyCommandCompletes : Obligations.EveryCommandCompletes := by
  intro i s j d hb
  refine ⟨_, exec_busy hb i, ?_, fun hindex hmax => complete_sameResult hindex hmax s j d⟩
  cases ho : outOf i j with
  | ok e => exact .inl ⟨succeeded_of rfl, by rintro rfl; cases ho⟩
  | error e => exact .inr ⟨e, outOf_error ho, failed_of rfl⟩

/-- Settles O26: a command that has a shape checks it before all else. -/
theorem badShapeFailsWithDimensionMismatch : Obligations.BadShapeFailsWithDimensionMismatch := by
  intro i s j d hb hshape
  obtain ⟨hnop, hext⟩ := hshape.has_checks
  have hout : outOf i j = .error .dimensionMismatch := outOf_of_checks_error hnop hext (checks_badShape hshape)
  have hfail : FailedAs s (s.complete i j d (outOf i j)) .dimensionMismatch := failed_of hout
  exact ⟨_, exec_busy hb i, hfail, hfail.errcode⟩

/-- Settles O31: both machines run one outcome, and a completion leaves in DST what its command wrote. -/
theorem commandsReadOnlyTheirRegions : Obligations.CommandsReadOnlyTheirRegions := by
  intro i s1 s2 t1 t2 j1 j2 hnorm hifft hwf1 hwf2 hb1 hb2 hlatched hsnap hdst hstatus hlo hhi ht1 ht2
  have hout : outOf i j1 = outOf i j2 := by
    obtain ⟨w1, o, m⟩ := j1
    obtain ⟨w2, _, n⟩ := j2
    obtain rfl := hlatched
    exact outOf_congr hnorm hifft w1 w2 o (fun _ => sameBytes_of_region fun a ha => hsnap a (.inl ha))
      fun _ => sameBytes_of_region fun a ha => hsnap a (.inr ha)
  rw [exec_busy hb1, hout] at ht1
  rw [exec_busy hb2] at ht2
  injection ht1 with ht1
  injection ht2 with ht2
  subst ht1 ht2
  refine ⟨by simp [hstatus], by simp [hlo], by simp [hhi], fun a ha => ?_⟩
  rw [complete_readByte_dst hwf1 i j1 _ ha, complete_readByte_dst hwf2 i j2 _ (hlatched ▸ ha)]
  exact writtenBy_readByte_congr hwf1 hwf2 (hdst a ha) _

/-- Settles O33, by the two forms of the grid source; QrEncode refuses a payload exactly above QR_CAPACITY. -/
theorem gridSourceOfBothForms : Obligations.GridSourceOfBothForms := by
  refine ⟨fun j => ⟨_, gridSource_direct j, fun i => by simp⟩, fun j hlen => ?_, fun j hlen => ?_, fun p => qrEncode_none⟩
  · cases hq : qrEncode (j.bytes j.latched.src.toNat j.latched.len.toNat) with
    | none =>
      rw [qrEncode_none, bytes_length] at hq
      omega
    | some grid => exact ⟨grid, gridSource_payload hq, rfl⟩
  · exact gridSource_tooLarge (qrEncode_none.2 (by rwa [bytes_length]))

/-- Settles O32: NOP's completion is a success without writes. -/
theorem nopOnlyCompletes : Obligations.NopOnlyCompletes := by
  intro s j d hb
  refine ⟨_, exec_busy hb .nop, succeeded_of rfl, complete_sameResult (by decide) (by decide) s j d, fun a => ?_⟩
  rw [State.byte, outOf, complete_nop_dmem, State.byte]

end
end

section
/-! PROOFS, 41_qr_encoder.md. A payload above QR_CAPACITY (R131, R133), the grid that QR_ENCODE stores (R130, R63), and that
an embedder makes the same image of a payload as of its stored grid (R135). -/

namespace Sys2Proof.Machine

/-! ### The payload -/

/-- A command that takes a payload encodes it right after its checks (R233). -/
theorem outOf_eq_encode_bind {i : Instr} (h : takesPayload i = true) (j : Job) :
    ∃ f : (Nat → Bool) → CmdOut, outOf i j = (checks i j.latched >>= fun _ => gridSource false j >>= f) := by
  cases i with
  | qrEncode => exact ⟨_, rfl⟩
  | lsbEmbed g | fftEmbed g =>
    obtain rfl : g = false := by simpa [takesPayload] using h
    exact ⟨_, rfl⟩
  | _ => cases h

/-! ### The stored grid -/

/-- A grid's block holds one byte a cell (R63). -/
theorem getD_gridBytes (grid : Nat → Bool) {i : Nat} (h : i < 31329) :
    (gridBytes grid).getD i 0 = if grid i then 0x01 else 0x00 :=
  getD_map_range _ _ h

/-- A direct grid at the place of a stored one reads back its cells (R120). -/
theorem cell_of_stored {m : Memory} {base : Nat} {grid : Nat → Bool} {i : Nat}
    (h : m.readByte (base + i) = if grid i then 0x01 else 0x00) : grid i = (m.readByte (base + i) != 0) := by
  rw [h]
  cases grid i <;> rfl

/-- With operands that pass its checks QR_ENCODE writes the block of its payload's grid (R130). -/
theorem outOf_qrEncode {j : Job} (hr : Ready .qrEncode j.latched) {grid : Nat → Bool}
    (hs : gridSource false j = .ok grid) : outOf .qrEncode j = okBytes j.latched.dst.toNat (gridBytes grid) := by
  rw [outOf, qrEncodeOut, after_checks hr, hs, bind_pure_ok]

theorem SameBytes.readByte_eq {m n : Memory} {base size a : Nat} (h : SameBytes m n base size)
    (ha : base ≤ a ∧ a < base + size) : m.readByte a = n.readByte a := by
  obtain ⟨k, rfl⟩ := Nat.exists_eq_add_of_le ha.1
  exact h k (by omega)

/-- A command keeps DMEM's canonical form. -/
theorem exec_dmem_wf {i : Instr} {s t : State} (hw : s.dmem.wf) (h : exec i s = .next t) : t.dmem.wf := by
  obtain ⟨j, d, -, rfl⟩ := exec_next h
  rw [complete_dmem]
  exact writeCells_wf (writtenBy_wf hw _) _

/-! ### The two forms of an embedder -/

/-- A payload's grid has a side of 177 cells (R118). -/
theorem gridSideOf_payload (o : Operands) : gridSideOf false o = 177 := rfl

/-- The embedders, by their flag G. -/
def IsEmbedder (embed : Bool → Instr) : Prop := embed = .lsbEmbed ∨ embed = .fftEmbed

/-- The two pairs of commands that R135 compares are the two forms of an embedder. -/
theorem isEmbedder_of_pair {p g : Instr}
    (h : (p = .lsbEmbed false ∧ g = .lsbEmbed true) ∨ (p = .fftEmbed false ∧ g = .fftEmbed true)) :
    ∃ embed, IsEmbedder embed ∧ p = embed false ∧ g = embed true := by
  rcases h with ⟨rfl, rfl⟩ | ⟨rfl, rfl⟩
  · exact ⟨_, .inl rfl, rfl, rfl⟩
  · exact ⟨_, .inr rfl, rfl, rfl⟩

section Embedder
variable {embed : Bool → Instr}

theorem IsEmbedder.srcRegion_eq (he : IsEmbedder embed) (g : Bool) (o : Operands) :
    srcRegion (embed g) o = some (gridRegion g o) := by
  rcases he with rfl | rfl <;> rfl

theorem IsEmbedder.dstRegion_eq (he : IsEmbedder embed) (g : Bool) (o : Operands) :
    dstRegion (embed g) o = some { base := o.dst.toNat, size := 3 * o.area, align := 1 } := by
  rcases he with rfl | rfl <;> rfl

/-- Where an embedder's checks pass, its grid has a cell (R118). -/
theorem IsEmbedder.one_le_gridSideOf (he : IsEmbedder embed) {g : Bool} {o : Operands} (hr : Ready (embed g) o) :
    1 ≤ gridSideOf g o := by
  obtain ⟨hshape, -, -⟩ := hr
  rcases he with rfl | rfl <;> exact gridSideOf_pos fun h => hshape (.inr (.inr h))

/-- Where an embedder's checks pass, no byte of the image is one of its grid source (R65). -/
theorem IsEmbedder.image_apart_source (he : IsEmbedder embed) {g : Bool} {o : Operands} (hr : Ready (embed g) o) :
    Apart (gridRegion g o).base (gridRegion g o).size o.dst.toNat (3 * o.area) := by
  obtain ⟨-, hregions, -⟩ := hr
  by_contra hnot
  refine hregions (.inr (.inl ⟨_, _, he.srcRegion_eq g o, he.dstRegion_eq g o, hnot, fun ⟨h, _⟩ => ?_⟩))
  rcases he with rfl | rfl <;> simp at h

/-- A command that writes only a direct grid of side 177 leaves the image of an embedder that takes it alone. -/
theorem IsEmbedder.image_of_sameOutside (he : IsEmbedder embed) {o : Operands} (hr : Ready (embed true) o)
    (hside : o.tileL = 177) {s t : State} (hframe : SameOutside s t o.src.toNat 31329) :
    SameBytes s.dmem t.dmem o.dst.toNat (3 * o.area) := fun k hk => by
  have hsize : (gridRegion true o).size = 31329 := by rw [gridRegion, hside]; rfl
  have hapart := he.image_apart_source hr
  rw [hsize, show (gridRegion true o).base = o.src.toNat from rfl] at hapart
  exact (hframe _ (by omega)).symm

/-- What an embedder computes depends on its grid's cells, on the place and the shape of its image, and on the image's bytes,
and not on the form its grid came in (R120). -/
theorem IsEmbedder.outOf_congr (he : IsEmbedder embed) {g1 g2 : Bool} {j1 j2 : Job} {grid1 grid2 : Nat → Bool}
    (hr1 : Ready (embed g1) j1.latched) (hr2 : Ready (embed g2) j2.latched)
    (hs1 : gridSource g1 j1 = .ok grid1) (hs2 : gridSource g2 j2 = .ok grid2)
    (hside : gridSideOf g2 j2.latched = gridSideOf g1 j1.latched)
    (hgrid : ∀ k < gridSideOf g1 j1.latched * gridSideOf g1 j1.latched, grid1 k = grid2 k)
    (hdst : j2.latched.dst = j1.latched.dst) (hwidth : j2.latched.width = j1.latched.width)
    (hheight : j2.latched.height = j1.latched.height)
    (himage : SameBytes j1.snap j2.snap j1.latched.dst.toNat (3 * j1.latched.area)) :
    outOf (embed g1) j1 = outOf (embed g2) j2 := by
  have hl := he.one_le_gridSideOf hr1
  have harea : j2.latched.area = j1.latched.area := by simp only [Operands.area, hwidth, hheight]
  rcases he with rfl | rfl
  · simp only [outOf, lsbEmbedOut]
    rw [after_checks hr1, after_checks hr2, hs1, hs2, bind_pure_ok, bind_pure_ok, hside, hdst, hheight, harea]
    refine congrArg (okBytes _) (List.map_congr_left fun k hk => ?_)
    exact congrArg₂ withLsb (himage k (List.mem_range.1 hk)) (tiledCell_congr hl hgrid k)
  · have hbytes : j1.bytes j1.latched.dst.toNat (3 * j1.latched.area) =
        j2.bytes j1.latched.dst.toNat (3 * j1.latched.area) :=
      List.map_congr_left fun k hk => himage k (List.mem_range.1 hk)
    simp only [outOf, fftEmbedOut]
    rw [after_checks hr1, after_checks hr2, hs1, hs2, bind_pure_ok, bind_pure_ok, hside, hdst, hwidth, hheight, harea,
      hbytes, embedPixels_grid_congr _ hl hgrid, embedPixels_nanBits]

end Embedder

/-- Two commands with one outcome and one DST region end with the same STATUS, and with the same bytes in DST where it held
the same bytes before. -/
theorem exec_congr_dst {s1 s2 t1 t2 : State} {i1 i2 : Instr} {j1 j2 : Job}
    (hb1 : s1.engine = .busy j1 false) (hb2 : s2.engine = .busy j2 false) (hw1 : s1.dmem.wf) (hw2 : s2.dmem.wf)
    (ht1 : exec i1 s1 = .next t1) (ht2 : exec i2 s2 = .next t2) (hout : outOf i1 j1 = outOf i2 j2)
    (hdst : dstRegion i2 j2.latched = dstRegion i1 j1.latched) (hstatus : s1.status = s2.status)
    (hbytes : ∀ a, inRegion (dstRegion i1 j1.latched) a = true → s1.byte a = s2.byte a) :
    t1.status = t2.status ∧ ∀ a, inRegion (dstRegion i1 j1.latched) a = true → t1.byte a = t2.byte a := by
  rw [exec_busy hb1, hout] at ht1
  rw [exec_busy hb2] at ht2
  injection ht1 with ht1
  injection ht2 with ht2
  subst ht1 ht2
  refine ⟨by simp only [complete_status, hstatus], fun a ha => ?_⟩
  rw [complete_readByte_dst hw1 i1 j1 _ ha, complete_readByte_dst hw2 i2 j2 _ (hdst ▸ ha)]
  exact writtenBy_readByte_congr hw1 hw2 (hbytes a ha) _

end Sys2Proof.Machine

/-! ### The obligations -/

section
open Sys2Proof Sys2Proof.Machine

/-- Settles O28: the payload is encoded right after the checks, and QrEncode refuses it. -/
theorem longPayloadFailsWithPayloadTooLarge : Obligations.LongPayloadFailsWithPayloadTooLarge := by
  intro i s j d hb hshape hregions hpayload hlen
  obtain ⟨-, -, habove, -⟩ := gridSourceOfBothForms
  have hout : outOf i j = .error .payloadTooLarge := by
    obtain ⟨f, hf⟩ := outOf_eq_encode_bind hpayload j
    rw [hf, checks_ok_iff.2 ⟨hshape, hregions⟩, bind_pure_ok, habove j hlen, bind_error]
  have hfail : FailedAs s (s.complete i j d (outOf i j)) .payloadTooLarge := failed_of hout
  exact ⟨_, exec_busy hb i, hfail, hfail.errcode⟩

/-- Settles O34: QR_ENCODE's completion writes the block of the payload's grid. -/
theorem qrEncodeWritesTheGrid : Obligations.QrEncodeWritesTheGrid := by
  intro s j hb hw hr
  obtain ⟨-, hupTo, -, -⟩ := gridSourceOfBothForms
  have ⟨_, _, hcapacity⟩ := hr
  obtain ⟨grid, hs, hq⟩ := hupTo j (hcapacity rfl)
  obtain ⟨t, hexec, hsucc, hresult, hmem⟩ := bytes_result hb (outOf_qrEncode hr hs) rfl
  have hlen : (gridBytes grid).length = 31329 := gridBytes_length grid
  refine ⟨t, grid, hq, hexec, hsucc, hresult, fun i hi => ?_, same_outside hw hmem hlen⟩
  rw [byte_inside hw hmem hlen hi, getD_gridBytes grid hi]

/-- Settles O48: the direct grid reads back the cells that QR_ENCODE stored, and the image lies apart from them. -/
theorem payloadAndGridFormsAgree : Obligations.PayloadAndGridFormsAgree := by
  intro p g s0 t0 s1 s2 t1 t2 j0 j1 j2 hpg hb0 hw0 hsnap0 hr0 ht0 hb1 hmem1 hsnap1 hr1 hsrc1 hlen1
    hb2 hmem2 hsnap2 hr2 hsrc2 hside2 hdst hwidth hheight hstatus ht1 ht2
  obtain ⟨embed, he, rfl, rfl⟩ := isEmbedder_of_pair hpg
  obtain ⟨t, grid, hq, hexec, -, -, hcells, hframe⟩ := qrEncodeWritesTheGrid s0 j0 hb0 hw0 hr0
  obtain rfl : t = t0 := by rw [hexec] at ht0; injection ht0
  have hs1 : gridSource false j1 = .ok grid := gridSource_payload (by
    rw [hsrc1, hlen1, Job.bytes, hsnap1, ← hsnap0]; exact hq)
  have harea : j2.latched.area = j1.latched.area := by simp only [Operands.area, hwidth, hheight]
  have himage : SameBytes s0.dmem t.dmem j1.latched.dst.toNat (3 * j1.latched.area) := by
    rw [← hdst, ← harea]
    exact he.image_of_sameOutside hr2 hside2 (hsrc2 ▸ hframe)
  have hout : outOf (embed false) j1 = outOf (embed true) j2 := by
    refine he.outOf_congr hr1 hr2 hs1 (gridSource_direct j2) ?_ (fun k hk => ?_) hdst hwidth hheight ?_
    · rw [gridSideOf, hside2]; rfl
    · rw [gridSideOf_payload] at hk
      rw [hsnap2, hsrc2]
      exact cell_of_stored (hcells k hk)
    · rwa [hsnap1, hsnap2]
  refine exec_congr_dst hb1 hb2 (hmem1 ▸ hw0) (hmem2 ▸ exec_dmem_wf hw0 hexec) ht1 ht2 hout ?_ hstatus fun a ha => ?_
  · rw [he.dstRegion_eq, he.dstRegion_eq, hdst, harea]
  · rw [he.dstRegion_eq] at ha
    rw [State.byte, State.byte, hmem1, hmem2]
    exact himage.readByte_eq (has_iff.1 ha)

end
end

section
/-! PROOFS, 42_tiling.md. The tiling function (R141), and the two commands that expose it: TILE_INDEX (R140) and TILE_MAP
(R142). -/

namespace Sys2Proof.Machine

/-! ### The tiling function -/

/-- The map repeats along the first axis (R141). -/
theorem tile_add_left (x y l : Nat) : tile (x + l) y l = tile x y l := by
  rw [tile, tile, Nat.add_mod_right]

/-- The map repeats along the second axis (R141). -/
theorem tile_add_right (x y l : Nat) : tile x (y + l) l = tile x y l := by
  rw [tile, tile, Nat.add_mod_right]

/-- On the first tile the index is the position in layout order (R141). -/
theorem tile_of_lt {x y l : Nat} (hx : x < l) (hy : y < l) : tile x y l = x * l + y := by
  rw [tile, Nat.mod_eq_of_lt hx, Nat.mod_eq_of_lt hy]

/-- The positions of the first tile are the pairs of base-`l` digits of their indices (R141). -/
theorem tile_eq_iff_digits {k x y l : Nat} (hk : k < l * l) :
    (x < l ∧ y < l ∧ tile x y l = k) ↔ x = k / l ∧ y = k % l := by
  constructor
  · rintro ⟨hx, hy, rfl⟩
    rw [tile_of_lt hx hy, pair_div hy, pair_mod hy]
    exact ⟨rfl, rfl⟩
  · rintro ⟨rfl, rfl⟩
    have hrow : k / l < l := Nat.div_lt_of_lt_mul hk
    have hcol : k % l < l := Nat.mod_lt _ (Nat.zero_lt_of_lt hrow)
    exact ⟨hrow, hcol, by rw [tile_of_lt hrow hcol, Nat.div_add_mod']⟩

/-- With a legal side no index wraps in 32 bits (R140). -/
theorem tile_lt_word {x y l : Nat} (h : LegalSide l) : tile x y l < 2 ^ 32 :=
  calc tile x y l < l * l := tile_lt h.1
    _ ≤ 65535 * 65535 := Nat.mul_le_mul h.2 h.2
    _ < 2 ^ 32 := by norm_num

/-! ### TILE_INDEX -/

/-- The completion of a command that writes RESULT and leaves no byte open. -/
theorem okResult_result {i : Instr} {s : State} {j : Job} {d : Bool} {r : BitVec 64} (hb : s.engine = .busy j d)
    (ho : outOf i j = okResult r) (hopen : openAddrs i j.latched d = []) :
    ∃ t, exec i s = .next t ∧ Succeeded s t ∧ t.resultLo = r.extractLsb' 0 32 ∧ t.resultHi = r.extractLsb' 32 32 ∧
      t.dmem = s.dmem := by
  refine ⟨_, exec_busy hb i, succeeded_of ho, ?_, ?_, ?_⟩
  · rw [complete_resultLo, ho]; rfl
  · rw [complete_resultHi, ho]; rfl
  · rw [complete_dmem, hopen, ho]; rfl

/-- A number below `2 ^ 32` is its own low half. -/
theorem extractLow_ofNat {n : Nat} (h : n < 2 ^ 32) : ((BitVec.ofNat 64 n).extractLsb' 0 32).toNat = n := by
  rw [BitVec.extractLsb'_toNat, BitVec.toNat_ofNat, Nat.shiftRight_zero]
  omega

/-- A number below `2 ^ 32` has no high half. -/
theorem extractHigh_ofNat {n : Nat} (h : n < 2 ^ 32) : (BitVec.ofNat 64 n).extractLsb' 32 32 = 0 := by
  refine BitVec.eq_of_toNat_eq ?_
  rw [BitVec.extractLsb'_toNat, BitVec.toNat_ofNat, Nat.shiftRight_eq_div_pow]
  have hdiv : n % 2 ^ 64 / 2 ^ 32 = 0 := by omega
  rw [hdiv]
  rfl

/-- TILE_INDEX has no region to check, and no payload: a legal side is all it asks (R140). -/
theorem ready_tileIndex {o : Operands} (h : LegalSide o.tileL.toNat) : Ready .tileIndex o :=
  ⟨not_not_intro h, regions_ok_iff.1 rfl, fun hp => absurd hp (by decide)⟩

/-- TILE_INDEX leaves no byte open, whatever the host did while it ran. -/
theorem openAddrs_tileIndex (o : Operands) (d : Bool) : openAddrs .tileIndex o d = [] := by
  cases d <;> rfl

theorem outOf_tileIndex {j : Job} (hr : Ready .tileIndex j.latched) : outOf .tileIndex j =
    okResult (BitVec.ofNat 64 (tile j.latched.x.toNat j.latched.y.toNat j.latched.tileL.toNat)) := by
  rw [outOf, tileIndexOut, after_checks hr]

/-! ### TILE_MAP -/

/-- Operands that pass TILE_MAP's checks have a legal side (R118). -/
theorem legalSide_of_ready_tileMap {o : Operands} (hr : Ready .tileMap o) : LegalSide o.tileL.toNat := by
  obtain ⟨hshape, -, -⟩ := hr
  exact Decidable.not_not.1 fun h => hshape (.inr h)

theorem outOf_tileMap {j : Job} (hr : Ready .tileMap j.latched) : outOf .tileMap j = okBytes j.latched.dst.toNat
    ((tileEntries j.latched.width.toNat j.latched.height.toNat j.latched.tileL.toNat).flatMap (leBytes 4)) := by
  rw [outOf, tileMapOut, after_checks hr]

theorem tileEntries_length (w h l : Nat) : (tileEntries w h l).length = w * h := by simp [tileEntries]

/-- Entry `x * h + y` of the map is the index of the position `(x, y)` (R142, R63). -/
theorem getElem_tileEntries {w h l x y : Nat} (hy : y < h) (hk : x * h + y < (tileEntries w h l).length) :
    (tileEntries w h l)[x * h + y] = tile x y l := by
  simp only [tileEntries, List.getElem_map, List.getElem_range, pair_div hy, pair_mod hy]

/-- The map takes four bytes an entry (R142). -/
theorem tileMap_block_length (w h l : Nat) : ((tileEntries w h l).flatMap (leBytes 4)).length = 4 * (w * h) := by
  rw [length_flatMap_const (leBytes 4) (leBytes_length 4), tileEntries_length]

end Sys2Proof.Machine

/-! ### The obligations -/

section
open Sys2Proof Sys2Proof.Machine

/-- Settles O45: the one position of an index is its pair of base-`l` digits. -/
theorem tileRangePeriodAndBijection : Obligations.TileRangePeriodAndBijection := by
  intro l hl
  refine ⟨fun _ _ => tile_lt hl, fun x y => ⟨tile_add_left x y l, tile_add_right x y l⟩,
    fun x hx y hy => tile_of_lt hx hy, fun k hk => ⟨(k / l, k % l), ?_, fun p hp => ?_⟩⟩
  · exact (tile_eq_iff_digits hk).2 ⟨rfl, rfl⟩
  · obtain ⟨hrow, hcol⟩ := (tile_eq_iff_digits hk).1 hp
    exact Prod.ext hrow hcol

/-- Settles O35: TILE_INDEX's completion puts the index in RESULT, where it does not reach the high half. -/
theorem tileIndexWritesTheIndex : Obligations.TileIndexWritesTheIndex := by
  intro s j d hb hside
  obtain ⟨t, hexec, hsucc, hlo, hhi, hmem⟩ :=
    okResult_result hb (outOf_tileIndex (ready_tileIndex hside)) (openAddrs_tileIndex j.latched d)
  refine ⟨t, hexec, hsucc, ?_, ?_, fun a => ?_⟩
  · rw [hlo, extractLow_ofNat (tile_lt_word hside), tile]
  · rw [hhi, extractHigh_ofNat (tile_lt_word hside)]
  · rw [State.byte, State.byte, hmem]

/-- Settles O36: TILE_MAP's completion writes the block of the map's entries, each of which fits in its 32 bits. -/
theorem tileMapWritesTheMap : Obligations.TileMapWritesTheMap := by
  intro s j hb hw hr w h l dst
  obtain ⟨t, hexec, hsucc, hresult, hmem⟩ := bytes_result hb (outOf_tileMap hr) rfl
  refine ⟨t, hexec, hsucc, hresult, fun x hx y hy => ?_, same_outside hw hmem (tileMap_block_length w h l)⟩
  have hk : x * h + y < (tileEntries w h l).length := (tileEntries_length w h l).symm ▸ pair_lt hx hy
  have hfits : tile x y l < 2 ^ 32 := tile_lt_word (legalSide_of_ready_tileMap hr)
  calc t.dmem.readLE (dst + 4 * (x * h + y)) 4
      = (tileEntries w h l)[x * h + y] % 2 ^ 32 := by rw [hmem, readU32_block hw dst _ hk]
    _ = tile x y l := by rw [getElem_tileEntries hy hk, Nat.mod_eq_of_lt hfits]
    _ = x % l * l + y % l := rfl

end
end

section
/-! PROOFS, 43_lsb.md. The samples LSB_EMBED writes (R150) and their properties (R151), the bit plane LSB_EXTRACT reads
(R153), and the round trip of the two (R152). -/

namespace Sys2Proof.Machine

/-! ### One sample -/

/-- A sample with its bit 0 replaced keeps its other bits (R150). -/
theorem getLsbD_withLsb (old : Byte) (bit : Bool) (i : Nat) :
    (withLsb old bit).getLsbD i = if i = 0 then bit else old.getLsbD i := by
  rw [withLsb, BitVec.getLsbD_or, BitVec.getLsbD_and]
  by_cases hi : i < 8
  · interval_cases i <;> cases bit <;> simp
  · have hold : old.getLsbD i = false := BitVec.getLsbD_of_ge _ _ (by omega)
    cases bit <;> simp [hold]

theorem withLsb_shiftRight (old : Byte) (bit : Bool) : withLsb old bit >>> 1 = old >>> 1 := by
  refine BitVec.eq_of_getLsbD_eq fun i _ => ?_
  rw [BitVec.getLsbD_ushiftRight, BitVec.getLsbD_ushiftRight, getLsbD_withLsb, if_neg (by omega)]

theorem withLsb_withLsb (old : Byte) (bit : Bool) : withLsb (withLsb old bit) bit = withLsb old bit := by
  refine BitVec.eq_of_getLsbD_eq fun i _ => ?_
  simp only [getLsbD_withLsb]
  split <;> rfl

/-- Bytes that differ in bit 0 alone are at most 1 apart (R151). -/
theorem toNat_le_succ_of_shiftRight_eq {a b : Byte} (h : a >>> 1 = b >>> 1) : a.toNat ≤ b.toNat + 1 := by
  have hhalf : a.toNat / 2 = b.toNat / 2 := by
    simpa [Nat.shiftRight_eq_div_pow] using congrArg BitVec.toNat h
  omega

theorem grayOf_withLsb (old : Byte) (bit : Bool) : grayOf (withLsb old bit) = if bit then 0xFF else 0x00 := by
  rw [grayOf, getLsbD_withLsb, if_pos rfl]

/-! ### The grid at a sample -/

/-- Sample `c` of pixel `k` takes the grid's value at the pixel, whatever `c` (R150). -/
theorem tiledCell_sample {grid : Nat → Bool} {h l k c : Nat} (hc : c < 3) :
    tiledCell grid h l (k * 3 + c) = grid (tile (k / h) (k % h) l) := by
  rw [tiledCell, pair_div hc]

theorem tiledCell_pixel {grid : Nat → Bool} {h l x y c : Nat} (hy : y < h) (hc : c < 3) :
    tiledCell grid h l ((x * h + y) * 3 + c) = grid (tile x y l) := by
  rw [tiledCell_sample hc, pair_div hy, pair_mod hy]

/-- Operands that pass an embedder's checks have a grid source (R120, R131). -/
theorem IsEmbedder.gridSource_of_ready {embed : Bool → Instr} (he : IsEmbedder embed) {g : Bool} {j : Job}
    (hr : Ready (embed g) j.latched) : ∃ grid, gridSource g j = .ok grid := by
  obtain ⟨-, -, hcapacity⟩ := hr
  cases g with
  | true => exact ⟨_, gridSource_direct j⟩
  | false =>
    obtain ⟨-, hupTo, -, -⟩ := gridSourceOfBothForms
    have hpayload : takesPayload (embed false) = true := by rcases he with rfl | rfl <;> rfl
    obtain ⟨grid, hs, -⟩ := hupTo j (hcapacity hpayload)
    exact ⟨grid, hs⟩

/-! ### The two commands -/

/-- The completion of a command that writes one block given by its bytes' places. -/
theorem table_result {i : Instr} {s : State} {j : Job} {base n : Nat} {f : Nat → Byte} (hb : s.engine = .busy j false)
    (hw : s.dmem.wf) (ho : outOf i j = okBytes base ((List.range n).map f)) (haux : auxRegion i j.latched = none) :
    ∃ t, exec i s = .next t ∧ Succeeded s t ∧ SameResult s t ∧ (∀ k < n, t.byte (base + k) = f k) ∧
      SameOutside s t base n := by
  obtain ⟨t, hexec, hsucc, hresult, hmem⟩ := bytes_result hb ho haux
  have hlen : ((List.range n).map f).length = n := by simp
  exact ⟨t, hexec, hsucc, hresult, fun k hk => by rw [byte_inside hw hmem hlen hk, getD_map_range _ _ hk],
    same_outside hw hmem hlen⟩

/-- Sample `k` of the image LSB_EMBED makes with a grid (R150). -/
def markedSample (g : Bool) (j : Job) (grid : Nat → Bool) (k : Nat) : Byte :=
  withLsb (j.snap.readByte (j.latched.dst.toNat + k)) (tiledCell grid j.latched.height.toNat (gridSideOf g j.latched) k)

/-- The image LSB_EMBED makes with a grid, sample by sample (R150). -/
def markedImage (g : Bool) (j : Job) (grid : Nat → Bool) : List Byte :=
  (List.range (3 * j.latched.area)).map (markedSample g j grid)

/-- The image reads the cells of the grid alone. -/
theorem markedImage_congr {g : Bool} {j : Job} {grid1 grid2 : Nat → Bool} (hside : 1 ≤ gridSideOf g j.latched)
    (hgrid : ∀ k < gridSideOf g j.latched * gridSideOf g j.latched, grid1 k = grid2 k) :
    markedImage g j grid1 = markedImage g j grid2 :=
  List.map_congr_left fun k _ => congrArg (withLsb _) (tiledCell_congr hside hgrid k)

/-- DMEM of `t` is that of `s` with LSB_EMBED's image in DST (R150). -/
structure LsbEmbedded (g : Bool) (grid : Nat → Bool) (j : Job) (s t : State) : Prop where
  samples : ∀ k < 3 * j.latched.area, t.byte (j.latched.dst.toNat + k) = markedSample g j grid k
  frame : SameOutside s t j.latched.dst.toNat (3 * j.latched.area)

/-- What LSB_EMBED computes, its grid read from any memory that holds the same bytes in the grid's source (R120, R150). -/
theorem outOf_lsbEmbed {g : Bool} {j : Job} {m : Memory} {grid : Nat → Bool} (hr : Ready (.lsbEmbed g) j.latched)
    (hs : gridSource g { j with snap := m } = .ok grid)
    (hsource : SameBytes m j.snap (gridRegion g j.latched).base (gridRegion g j.latched).size) :
    outOf (.lsbEmbed g) j = okBytes j.latched.dst.toNat (markedImage g j grid) := by
  have hside := IsEmbedder.one_le_gridSideOf (.inl rfl) hr
  calc outOf (.lsbEmbed g) j
      = (gridSource g j >>= fun grid => okBytes j.latched.dst.toNat (markedImage g j grid)) := after_checks hr _
    _ = (gridSource g { j with snap := m } >>= fun grid => okBytes j.latched.dst.toNat (markedImage g j grid)) :=
        (gridSource_bind_congr hsource fun _ _ hgrid => by rw [markedImage_congr hside hgrid]).symm
    _ = okBytes j.latched.dst.toNat (markedImage g j grid) := by rw [hs, bind_pure_ok]

theorem lsbEmbed_result {g : Bool} {s : State} {j : Job} {m : Memory} {grid : Nat → Bool}
    (hb : s.engine = .busy j false) (hw : s.dmem.wf) (hr : Ready (.lsbEmbed g) j.latched)
    (hs : gridSource g { j with snap := m } = .ok grid)
    (hsource : SameBytes m j.snap (gridRegion g j.latched).base (gridRegion g j.latched).size) :
    ∃ t, exec (.lsbEmbed g) s = .next t ∧ Succeeded s t ∧ SameResult s t ∧ LsbEmbedded g grid j s t := by
  obtain ⟨t, hexec, hsucc, hresult, hsamples, hframe⟩ := table_result hb hw (outOf_lsbEmbed hr hs hsource) rfl
  exact ⟨t, hexec, hsucc, hresult, hsamples, hframe⟩

theorem lsbEmbedded_of_exec {g : Bool} {s t : State} {j : Job} {grid : Nat → Bool} (hb : s.engine = .busy j false)
    (hw : s.dmem.wf) (hr : Ready (.lsbEmbed g) j.latched) (hs : gridSource g j = .ok grid)
    (ht : exec (.lsbEmbed g) s = .next t) : LsbEmbedded g grid j s t := by
  obtain ⟨t', hexec, -, -, hembedded⟩ := lsbEmbed_result hb hw hr hs fun _ _ => rfl
  rw [ht] at hexec
  injection hexec with hexec
  exact hexec ▸ hembedded

theorem outOf_lsbExtract {j : Job} (hr : Ready .lsbExtract j.latched) : outOf .lsbExtract j = okBytes j.latched.dst.toNat
    ((List.range j.latched.area).map fun k => grayOf (j.snap.readByte (j.latched.src.toNat + 3 * k))) := by
  rw [outOf, lsbExtractOut, after_checks hr]

theorem lsbExtract_result {s : State} {j : Job} (hb : s.engine = .busy j false) (hw : s.dmem.wf)
    (hr : Ready .lsbExtract j.latched) :
    ∃ t, exec .lsbExtract s = .next t ∧ Succeeded s t ∧ SameResult s t ∧
      (∀ k < j.latched.area, t.byte (j.latched.dst.toNat + k) =
        grayOf (j.snap.readByte (j.latched.src.toNat + 3 * k))) ∧
      SameOutside s t j.latched.dst.toNat j.latched.area :=
  table_result hb hw (outOf_lsbExtract hr) rfl

namespace LsbEmbedded
variable {g : Bool} {grid : Nat → Bool} {j : Job} {s t : State}

/-- The sample `(x, y, c)` after LSB_EMBED (R150, R63). -/
theorem sample (h : LsbEmbedded g grid j s t) {x y c : Nat} (hx : x < j.latched.width.toNat)
    (hy : y < j.latched.height.toNat) (hc : c < 3) :
    t.byte (j.latched.dst.toNat + ((x * j.latched.height.toNat + y) * 3 + c)) =
      withLsb (j.snap.readByte (j.latched.dst.toNat + ((x * j.latched.height.toNat + y) * 3 + c)))
        (grid (tile x y (gridSideOf g j.latched))) := by
  have hk := triple_lt hx hy hc
  rw [h.samples _ (by rw [Operands.area]; omega), markedSample, tiledCell_pixel hy hc]

/-- Every byte of DMEM keeps bits 7 to 1, in DST and outside it (R151). -/
theorem shiftRight_byte (h : LsbEmbedded g grid j s t) (hsnap : j.snap = s.dmem) (a : Nat) :
    t.byte a >>> 1 = s.byte a >>> 1 := by
  by_cases ha : j.latched.dst.toNat ≤ a ∧ a < j.latched.dst.toNat + 3 * j.latched.area
  · obtain ⟨k, rfl⟩ := Nat.exists_eq_add_of_le ha.1
    rw [h.samples k (by omega), markedSample, withLsb_shiftRight, hsnap, State.byte]
  · rw [h.frame a ha]

/-- Bit 0 of every sample is its pixel's cell (R150). -/
theorem getLsbD_sample (h : LsbEmbedded g grid j s t) {k c : Nat} (hk : k < j.latched.area) (hc : c < 3) :
    (t.byte (j.latched.dst.toNat + (k * 3 + c))).getLsbD 0 =
      grid (tile (k / j.latched.height.toNat) (k % j.latched.height.toNat) (gridSideOf g j.latched)) := by
  rw [h.samples _ (by omega), markedSample, getLsbD_withLsb, if_pos rfl, tiledCell_sample hc]

/-- The image lies apart from the grid's source, so the command leaves the source as it was (R65). -/
theorem sameSource (h : LsbEmbedded g grid j s t) (hr : Ready (.lsbEmbed g) j.latched) :
    SameBytes s.dmem t.dmem (gridRegion g j.latched).base (gridRegion g j.latched).size := fun k hk => by
  have hapart := IsEmbedder.image_apart_source (.inl rfl) hr
  exact (h.frame _ (by omega)).symm

/-- A second run with the same grid, on what the first one left, changes no byte (R151). -/
theorem again (h : LsbEmbedded g grid j s t) {t' u : State}
    (hu : LsbEmbedded g grid { j with snap := t.dmem } t' u) (hmem : t'.dmem = t.dmem) (a : Nat) : u.byte a = t.byte a := by
  by_cases ha : j.latched.dst.toNat ≤ a ∧ a < j.latched.dst.toNat + 3 * j.latched.area
  · obtain ⟨k, rfl⟩ := Nat.exists_eq_add_of_le ha.1
    have hk : k < 3 * j.latched.area := by omega
    calc u.byte (j.latched.dst.toNat + k)
        = withLsb (t.byte (j.latched.dst.toNat + k)) (tiledCell grid _ _ k) := hu.samples k hk
      _ = t.byte (j.latched.dst.toNat + k) := by
        rw [h.samples k hk, markedSample, withLsb_withLsb]
  · rw [hu.frame a ha, State.byte, hmem, State.byte]

end LsbEmbedded

end Sys2Proof.Machine

/-! ### The obligations -/

section
open Sys2Proof Sys2Proof.Machine

/-- Settles O37: LSB_EMBED's completion writes each sample of DST with the cell of its pixel in bit 0. -/
theorem lsbEmbedReplacesBitZero : Obligations.LsbEmbedReplacesBitZero := by
  intro g s j hb hw hr w h l dst
  obtain ⟨grid, hs⟩ := IsEmbedder.gridSource_of_ready (.inl rfl) hr
  obtain ⟨t, hexec, hsucc, hresult, hembedded⟩ := lsbEmbed_result hb hw hr hs fun _ _ => rfl
  refine ⟨t, grid, hs, hexec, hsucc, hresult, fun x hx y hy c hc => ?_, hembedded.frame⟩
  rw [Nat.add_assoc]
  exact hembedded.sample hx hy hc

/-- Settles O38: LSB_EXTRACT's completion writes the gray byte of each pixel's red sample. -/
theorem lsbExtractWritesTheRedPlane : Obligations.LsbExtractWritesTheRedPlane := by
  intro s j hb hw hr w h dst
  obtain ⟨t, hexec, hsucc, hresult, hplane, hframe⟩ := lsbExtract_result hb hw hr
  refine ⟨t, hexec, hsucc, hresult, fun x hx y hy => ?_, hframe⟩
  rw [hplane _ (pair_lt hx hy), Nat.mul_comm 3, grayOf]

/-- Settles O46: the samples keep bits 7 to 1, the channels of a pixel share its cell, and a second run, whose grid source
the first left alone, sets the same bits. -/
theorem lsbEmbedPerturbsOnlyBitZeroAndIsIdempotent : Obligations.LsbEmbedPerturbsOnlyBitZeroAndIsIdempotent := by
  intro g s t j hb hw hsnap hr ht
  obtain ⟨grid, hs⟩ := IsEmbedder.gridSource_of_ready (.inl rfl) hr
  have hembedded := lsbEmbedded_of_exec hb hw hr hs ht
  refine ⟨fun a => ?_, fun k hk c hc => ?_, ?_⟩
  · have hhigh := hembedded.shiftRight_byte hsnap a
    exact ⟨hhigh, toNat_le_succ_of_shiftRight_eq hhigh, toNat_le_succ_of_shiftRight_eq hhigh.symm⟩
  · have hsample := hembedded.getLsbD_sample hk hc
    have hred := hembedded.getLsbD_sample hk (c := 0) (by omega)
    rw [Nat.add_assoc, Nat.mul_comm 3 k, hsample, ← hred, Nat.add_zero]
  · have hwt : t.dmem.wf := exec_dmem_wf hw ht
    obtain ⟨u, hexec, -, -, hu⟩ := lsbEmbed_result (g := g) (j := { j with snap := t.dmem }) (m := j.snap)
      (s := { t with engine := .busy { j with snap := t.dmem } false }) rfl hwt hr hs (hsnap ▸ hembedded.sameSource hr)
    exact ⟨u, hexec, hembedded.again hu rfl⟩

/-- Settles O47: the gray byte of a red sample that LSB_EMBED wrote shows the cell of its pixel, and the tiling repeats. -/
theorem lsbBitPlaneRoundTrip : Obligations.LsbBitPlaneRoundTrip := by
  intro g grid s1 t1 s2 t2 j1 j2 hb1 hw1 hr1 hs ht1 hb2 hw2 hr2 hsnap hsrc hwidth hheight ht2 w h l y8
  have hembedded := lsbEmbedded_of_exec hb1 hw1 hr1 hs ht1
  obtain ⟨t, hexec, -, -, hplane, -⟩ := lsbExtract_result hb2 hw2 hr2
  obtain rfl : t2 = t := by rw [ht2] at hexec; injection hexec
  have harea : j2.latched.area = w * h := by rw [Operands.area, hwidth, hheight]
  have hcell : ∀ x < w, ∀ y < h, y8 x y = if grid (tile x y l) then 0xFF else 0x00 := fun x hx y hy =>
    calc y8 x y = grayOf (j2.snap.readByte (j2.latched.src.toNat + 3 * (x * h + y))) :=
          hplane _ (harea ▸ pair_lt hx hy)
      _ = grayOf (t1.byte (j1.latched.dst.toNat + ((x * h + y) * 3 + 0))) := by
          rw [hsnap, hsrc, Nat.mul_comm 3, Nat.add_zero, State.byte]
      _ = if grid (tile x y l) then 0xFF else 0x00 := by
          rw [hembedded.sample hx hy (by omega), grayOf_withLsb]; rfl
  refine ⟨hcell, fun x y hx hy => ?_, fun x y hx hy => ?_⟩
  · rw [hcell _ hx _ hy, hcell _ (by omega) _ hy, tile_add_left]
  · rw [hcell _ hx _ hy, hcell _ hx _ (by omega), tile_add_right]

end
end

section
/-! PROOFS, 44_fft.md, the numeric kernel (R170, D27), the 2D transforms (R172, R173) and their commands (R174,
R176), and FFT_EXTRACT (R195). -/

namespace Sys2Proof.Machine

/-! ### The scalar kernel (N3, D27) -/

theorem mag_of_isZero {v : F64} (h : F64.isZero v = true) : F64.mag v = F64.zero false := by
  rw [mag_eq_pack, F64.isZero_iff.1 h, F64.zero]

theorem mag_of_isInf {v : F64} (h : F64.isInf v = true) : F64.mag v = F64.inf false := by
  rw [mag_eq_pack, F64.isInf_iff.1 h, F64.inf]

/-- A magnitude with a zero imaginary part (N3). -/
theorem abs_zero_right {v z : F64} (hv : F64.isNaN v = false) (hz : F64.isZero z = true) : Num.abs v z = F64.mag v := by
  obtain ⟨hzi, hzn⟩ := not_special_of_zero hz
  cases hi : F64.isInf v with
  | true => rw [abs_of_isInf (.inl hi), mag_of_isInf hi]
  | false => simp [Num.abs, hi, hv, hzi, hzn, hz]

/-- A magnitude with a zero real part (N3). -/
theorem abs_zero_left {v z : F64} (hv : F64.isNaN v = false) (hz : F64.isZero z = true) : Num.abs z v = F64.mag v := by
  obtain ⟨hzi, hzn⟩ := not_special_of_zero hz
  cases h0 : F64.isZero v with
  | true => rw [abs_zero_right hzn h0, mag_of_isZero h0, mag_of_isZero hz]
  | false =>
    cases hi : F64.isInf v with
    | true => rw [abs_of_isInf (.inr hi), mag_of_isInf hi]
    | false => simp [Num.abs, hi, hv, hzi, hzn, hz, h0]

theorem sign_of_gt_zero {v : F64} (h : F64.gt v (F64.zero false) = true) : F64.sign v = false := by
  obtain ⟨-, -, hkey⟩ := f64_gt_iff.1 h
  rw [show F64.key (F64.zero false) = 0 by decide, F64.key_eq] at hkey
  by_contra hs
  rw [if_pos (by simpa using hs)] at hkey
  omega

/-- The phase of a value on the positive real axis, or of either zero, with an imaginary part of +0 (N3, D27). -/
theorem arg_of_nonneg {v : F64} (h : F64.gt v (F64.zero false) = true ∨ F64.isZero v = true) :
    Num.arg v (F64.zero false) = F64.zero false := by
  have hv : F64.isNaN v = false := by
    rcases h with h | h
    · exact (f64_gt_iff.1 h).1
    · exact (not_special_of_zero h).2
  have h0 : F64.isNaN (F64.zero false) = false := by decide
  rw [Num.arg, if_neg (by simp [hv, h0]), if_pos ⟨rfl, h.imp_left sign_of_gt_zero⟩]

theorem log10_of_isZero {z : F64} (h : F64.isZero z = true) : Num.log10 z = F64.inf true := by
  simp [Num.log10, (not_special_of_zero h).2, h]

theorem cos_of_isZero {z : F64} (h : F64.isZero z = true) : Num.cos z = F64.one := by
  simp [Num.cos, (not_special_of_zero h).2, h]

/-! ### The 1D transform (N2, N3) -/

theorem dft1_singleton (sign : DftSign) (z : C64) : Num.dft1 sign [z] = [z] := rfl

/-- Two points transform to their sum and their difference (N2). -/
theorem dft1_pair (sign : DftSign) (y z : C64) : ∃ n : Nat → NanBits, Num.dft1 sign [y, z] =
    [{ re := F64.add (n 0) y.re z.re, im := F64.add (n 1) y.im z.im },
     { re := F64.sub (n 2) y.re z.re, im := F64.sub (n 3) y.im z.im }] := ⟨_, rfl⟩

theorem hasNaN_iff {z : C64} : C64.hasNaN z = true ↔ F64.isNaN z.re = true ∨ F64.isNaN z.im = true := by
  simp [C64.hasNaN]

/-- Components in which a NaN of either operand gives a NaN make a complex value with a NaN of two. -/
theorem hasNaN_of_components {y z u : C64} (h : C64.hasNaN y = true ∨ C64.hasNaN z = true)
    (hre : F64.isNaN y.re = true ∨ F64.isNaN z.re = true → F64.isNaN u.re = true)
    (him : F64.isNaN y.im = true ∨ F64.isNaN z.im = true → F64.isNaN u.im = true) : C64.hasNaN u = true := by
  simp only [hasNaN_iff] at h ⊢
  tauto

theorem hasNaN_dftOutput (bin : DftBin) (sign : DftSign) {v : List C64} (h : v.any C64.hasNaN = true) (k : Nat) :
    C64.hasNaN (Num.dftOutputOf bin sign v k) = true := by
  simp only [Num.dftOutputOf, h, if_true, hasNaN_iff]
  split
  · exact .inl (isNaN_quiet _)
  · exact .inr (isNaN_quiet _)

/-- A NaN that enters a 1D transform reaches every element (N3; log 11). -/
theorem hasNaN_dft1 (sign : DftSign) {v : List C64} (h : ∃ z ∈ v, C64.hasNaN z = true) :
    ∀ z ∈ Num.dft1 sign v, C64.hasNaN z = true := by
  match v with
  | [] => simp at h
  | [a] => simpa [dft1_singleton] using h
  | [a, b] =>
    have hab : C64.hasNaN a = true ∨ C64.hasNaN b = true := by simpa using h
    obtain ⟨n, hn⟩ := dft1_pair sign a b
    rw [hn]
    simp only [List.mem_cons, List.not_mem_nil, or_false, forall_eq_or_imp, forall_eq]
    exact ⟨hasNaN_of_components hab (isNaN_add _ _ _) (isNaN_add _ _ _),
      hasNaN_of_components hab (isNaN_sub _ _ _) (isNaN_sub _ _ _)⟩
  | a :: b :: c :: rest =>
    intro z hz
    rw [Num.dft1, dft1Of_long _ _ _ (by simp)] at hz
    obtain ⟨k, -, rfl⟩ := List.mem_map.1 hz
    exact hasNaN_dftOutput _ _ (List.any_eq_true.2 h) k

/-! ### One entry of the 2D transforms (R172, R173) -/

/-- One entry of the inverse transform: the passes, then both components divided by `W * H`. -/
theorem entry_ifft2 (nan : Nat → NanBits) {w h : Nat} (rows : List (List C64)) {u v : Nat} (hu : u < w) (hv : v < h) :
    entry (ifft2 nan w h rows) u v =
      { re := F64.div (nan (2 * (u * h + v))) (entry (passes .plus w h rows) u v).re (F64.ofNat (w * h)),
        im := F64.div (nan (2 * (u * h + v) + 1)) (entry (passes .plus w h rows) u v).im (F64.ofNat (w * h)) } :=
  entry_table _ hu hv

/-! ### FFT2 and IFFT2 -/

/-- The array in DMEM of shape `WIDTH x HEIGHT x NCHAN` at `base`: its element `(x, y, c)` (R63). -/
def Job.element (j : Job) (m : Memory) (base x y c : Nat) : C64 :=
  m.readC64 (base + 16 * ((x * j.latched.height.toNat + y) * j.latched.nchan.toNat + c))

/-- One channel of such an array, as rows. -/
def Job.rows (j : Job) (m : Memory) (base c : Nat) : List (List C64) :=
  (List.range j.latched.width.toNat).map fun x => (List.range j.latched.height.toNat).map fun y => j.element m base x y c

/-- The completion of a command that transforms every channel of SRC by itself (R63). -/
theorem perChannel_result {i : Instr} {s : State} {j : Job} {f : Nat → List (List C64) → List (List C64)}
    (hb : s.engine = .busy j false) (hw : s.dmem.wf) (haux : auxRegion i j.latched = none)
    (ho : outOf i j = okBytes j.latched.dst.toNat ((perChannel j.latched.width.toNat j.latched.height.toNat
      j.latched.nchan.toNat f (j.c64Array j.latched.src.toNat)).flatMap c64Bytes)) :
    ∃ t, exec i s = .next t ∧ Succeeded s t ∧ SameResult s t ∧
      (∀ c < j.latched.nchan.toNat, ∀ u < j.latched.width.toNat, ∀ v < j.latched.height.toNat,
        j.element t.dmem j.latched.dst.toNat u v c = entry (f c (j.rows j.snap j.latched.src.toNat c)) u v) ∧
      SameOutside s t j.latched.dst.toNat
        (16 * (j.latched.width.toNat * j.latched.height.toNat) * j.latched.nchan.toNat) := by
  obtain ⟨t, hexec, hsucc, hresult, hmem⟩ := bytes_result hb ho haux
  refine ⟨t, hexec, hsucc, hresult, fun c hc u hu v hv => ?_, same_outside hw hmem ?_⟩
  · have hk := triple_lt hu hv hc
    rw [Job.element, hmem, readC64_block hw _ _ (by rw [perChannel_length]; exact hk), getElem_perChannel f _ hv hc,
      channel_c64Array j _ c hc]
    rfl
  · rw [length_flatMap_const _ c64Bytes_length, perChannel_length]
    exact (Nat.mul_assoc _ _ _).symm

theorem fft2_result {s : State} {j : Job} (hb : s.engine = .busy j false) (hw : s.dmem.wf) (hr : Ready .fft2 j.latched) :
    ∃ t, exec .fft2 s = .next t ∧ Succeeded s t ∧ SameResult s t ∧
      (∀ c < j.latched.nchan.toNat, ∀ u < j.latched.width.toNat, ∀ v < j.latched.height.toNat,
        j.element t.dmem j.latched.dst.toNat u v c = entry (fft2 j.latched.width.toNat j.latched.height.toNat
          (j.rows j.snap j.latched.src.toNat c)) u v) ∧
      SameOutside s t j.latched.dst.toNat
        (16 * (j.latched.width.toNat * j.latched.height.toNat) * j.latched.nchan.toNat) :=
  perChannel_result hb hw rfl (by rw [outOf, fft2Out, after_checks hr])

theorem ifft2_result {s : State} {j : Job} (hb : s.engine = .busy j false) (hw : s.dmem.wf) (hr : Ready .ifft2 j.latched) :
    ∃ t, exec .ifft2 s = .next t ∧ Succeeded s t ∧ SameResult s t ∧
      (∀ c < j.latched.nchan.toNat, ∀ u < j.latched.width.toNat, ∀ v < j.latched.height.toNat,
        j.element t.dmem j.latched.dst.toNat u v c = entry (ifft2 (Config.nanBits j c) j.latched.width.toNat
          j.latched.height.toNat (j.rows j.snap j.latched.src.toNat c)) u v) ∧
      SameOutside s t j.latched.dst.toNat
        (16 * (j.latched.width.toNat * j.latched.height.toNat) * j.latched.nchan.toNat) :=
  perChannel_result hb hw rfl (by rw [outOf, ifft2Out, after_checks hr])

/-! ### FFT_EXTRACT -/

/-- FFT_EXTRACT has neither DST nor AUX, so it leaves DMEM alone, whatever the host did while it ran. -/
theorem complete_fftExtract_dmem (s : State) (j : Job) (d : Bool) :
    (s.complete .fftExtract j d (fftExtractOut j)).dmem = s.dmem := by
  cases d <;> rfl

/-- STATUS after a failure of a machine in its invariant with OVR = 0: ERR and the error's code (R26, R236). -/
theorem FailedAs.status_eq {s t : State} {e : CmdError} (h : FailedAs s t e) (hi : s.Inv)
    (hb : s.engine.isBusy = true) (hovr : s.status.ovr = false) :
    t.status = { busy := false, done := false, err := true, errcode := e.code, ovr := false } := by
  obtain ⟨hdone, -, -⟩ := hi.busyClears (hi.busyIsEngine.trans hb)
  rw [h.status]
  simp only [hdone, hovr]

end Sys2Proof.Machine

/-! ### The obligations -/

section
open Sys2Proof Sys2Proof.Machine

/-- Settles O43: FFT2's completion writes every channel's transform. -/
theorem fft2TransformsEachChannel : Obligations.Fft2TransformsEachChannel := fun _ _ hb hw hr => fft2_result hb hw hr

/-- Settles O44: IFFT2's completion writes every channel's inverse transform, whose NaN bits are the channel's own. -/
theorem ifft2TransformsEachChannel : Obligations.Ifft2TransformsEachChannel := by
  intro s j hb hw hr
  obtain ⟨t, hexec, hsucc, hresult, hchannels, hframe⟩ := ifft2_result hb hw hr
  exact ⟨t, hexec, hsucc, hresult, fun c hc => ⟨_, hchannels c hc⟩, hframe⟩

/-- Settles O54, entry by entry. -/
theorem transformsAreTwoPassesAxisOneFirst : Obligations.TransformsAreTwoPassesAxisOneFirst := by
  intro nan w h a u hu v hv rows pass1 pass2
  refine ⟨entry_passes .minus w h a hu hv, nan (2 * (u * h + v)), nan (2 * (u * h + v) + 1), ?_⟩
  rw [entry_ifft2 nan rows hu hv, entry_passes .plus w h a hu hv]

/-- Settles O55, value by value. -/
theorem kernelSpecialValues : Obligations.KernelSpecialValues := by
  refine ⟨dft1_singleton, fun sign y z => ?_, fun v z hv hz => ⟨abs_zero_right hv hz, abs_zero_left hv hz⟩,
    fun v => arg_of_nonneg, fun z hz => ⟨log10_of_isZero hz, cos_of_isZero hz⟩, rfl, rfl, rfl, rfl,
    fun v hv => ⟨isNaN_log10 hv, isNaN_pow10 hv, isNaN_cos hv, isNaN_sin hv⟩, fun v z hv => ?_,
    fun v z hv => ⟨abs_of_isInf (.inl hv), abs_of_isInf (.inr hv)⟩, fun sign v => hasNaN_dft1 sign⟩
  · obtain ⟨n, hn⟩ := dft1_pair sign y z
    exact ⟨n 0, n 1, n 2, n 3, hn⟩
  · have hvi := not_inf_of_nan hv
    exact ⟨isNaN_arg (.inl hv), isNaN_arg (.inr hv), fun hz =>
      ⟨isNaN_abs ⟨hvi, hz⟩ (.inl hv), isNaN_abs ⟨hz, hvi⟩ (.inr hv)⟩⟩

/-- Settles O40: FFT_EXTRACT's completion is the failure Unimplemented, code 6. -/
theorem fftExtractRaisesUnimplemented : Obligations.FftExtractRaisesUnimplemented := by
  intro s j d hb
  have hfail : FailedAs s (s.complete .fftExtract j d (fftExtractOut j)) .unimplemented := failed_of rfl
  refine ⟨_, exec_busy hb .fftExtract, hfail, fun a => ?_, fun hi hovr => ?_⟩
  · rw [State.byte, outOf, complete_fftExtract_dmem, State.byte]
  · rw [outOf, State.readCsr, hfail.status_eq hi (by rw [hb]; rfl) hovr]
    decide

end
end

section
/-! PROOFS, 44_fft.md, the round trip (R177): whole numbers for the sides 1 and 2, on which N2's sums and differences are
exact, and the two commands for every legal shape. -/

namespace Sys2Proof.Machine

/-! ### Whole numbers as binary64 values -/

theorem neg_roundUnits (num den : Nat) : F64.neg (F64.roundUnits false num den) = F64.roundUnits true num den := by
  have hlt : ∀ n, min n (2047 * 2 ^ 52) < 2 ^ 63 := fun n => lt_of_le_of_lt (Nat.min_le_right _ _) (by norm_num)
  unfold F64.roundUnits
  simp only
  rw [neg_eq_pack, F64.sign_pack (hlt _), F64.low_pack (hlt _), Bool.not_false]

theorem f64OfInt_zero : f64OfInt 0 = F64.zero false := by decide +kernel

/-- A whole number is one rounding of itself. -/
theorem f64OfInt_eq_roundUnits (z : ℤ) : f64OfInt z = F64.roundUnits (decide (z < 0)) (z.natAbs * 2 ^ 1074) 1 := by
  unfold f64OfInt F64.ofNat
  split_ifs with hz
  · rw [neg_roundUnits, decide_eq_true hz]
  · rw [decide_eq_false hz]

/-- A whole number below `2^53` is exact. -/
theorem f64OfInt_exact {z : ℤ} (hz : z.natAbs < 2 ^ 53) : F64.isFinite (f64OfInt z) = true ∧
    F64.sign (f64OfInt z) = decide (z < 0) ∧ F64.units (f64OfInt z) = z.natAbs * 2 ^ 1074 := by
  obtain ⟨hf, hs, hu⟩ := ofNat_exact hz
  unfold f64OfInt
  split_ifs with h
  · exact ⟨by rw [isFinite_neg, hf], by rw [sign_neg, hs, decide_eq_true h]; rfl, by rw [units_neg, hu]⟩
  · exact ⟨hf, by rw [hs, decide_eq_false h], hu⟩

theorem signedUnits_f64OfInt {z : ℤ} (hz : z.natAbs < 2 ^ 53) : F64.signedUnits (f64OfInt z) = z * (2 ^ 1074 : Nat) := by
  obtain ⟨-, hs, hu⟩ := f64OfInt_exact hz
  rw [F64.signedUnits, hs, hu, Nat.cast_mul, Int.natCast_natAbs]
  by_cases h : z < 0
  · rw [decide_eq_true h, if_pos rfl, abs_of_neg h, neg_mul, neg_neg]
  · rw [decide_eq_false h, if_neg Bool.false_ne_true, abs_of_nonneg (not_lt.1 h)]

/-- A rounded whole number of units `u` is the rounding of its sign and its magnitude. -/
theorem roundUnits_int_mul (z : ℤ) {u : Nat} (hu : 0 < u) (zero : F64) :
    (if z * u = 0 then zero else F64.roundUnits (decide (z * u < 0)) (z * u).natAbs 1) =
      if z = 0 then zero else F64.roundUnits (decide (z < 0)) (z.natAbs * u) 1 := by
  have hu' : (0 : ℤ) < u := by exact_mod_cast hu
  have hneg : z * u < 0 ↔ z < 0 := lt_iff_lt_of_le_iff_le (mul_nonneg_iff_of_pos_right hu')
  simp only [mul_eq_zero, hu'.ne', or_false, hneg, Int.natAbs_mul, Int.natAbs_natCast]

/-- A sum that is exactly a whole number is that number, but for a zero of two negative zeros. -/
theorem add_eq_f64OfInt (n : NanBits) {a b : F64} {z : ℤ} (ha : F64.isFinite a = true) (hb : F64.isFinite b = true)
    (hsum : F64.signedUnits a + F64.signedUnits b = z * (2 ^ 1074 : Nat))
    (hzero : z = 0 → (F64.sign a && F64.sign b) = false) : F64.add n a b = f64OfInt z := by
  have hround := roundUnits_int_mul z (Nat.two_pow_pos 1074) (F64.zero (F64.sign a && F64.sign b))
  rw [← hsum, ← f64OfInt_eq_roundUnits] at hround
  rw [sum_finite ha hb, hround]
  split_ifs with hz
  · rw [hzero hz, hz, f64OfInt_zero]
  · rfl

theorem add_f64OfInt (n : NanBits) {y z : ℤ} (hy : y.natAbs < 2 ^ 53) (hz : z.natAbs < 2 ^ 53) :
    F64.add n (f64OfInt y) (f64OfInt z) = f64OfInt (y + z) := by
  obtain ⟨hfy, hsy, -⟩ := f64OfInt_exact hy
  obtain ⟨hfz, hsz, -⟩ := f64OfInt_exact hz
  refine add_eq_f64OfInt n hfy hfz ?_ fun h0 => ?_
  · rw [signedUnits_f64OfInt hy, signedUnits_f64OfInt hz, add_mul]
  · rw [hsy, hsz]
    simp only [Bool.and_eq_false_iff, decide_eq_false_iff_not]
    omega

theorem sub_f64OfInt (n : NanBits) {y z : ℤ} (hy : y.natAbs < 2 ^ 53) (hz : z.natAbs < 2 ^ 53) :
    F64.sub n (f64OfInt y) (f64OfInt z) = f64OfInt (y - z) := by
  obtain ⟨hfy, hsy, -⟩ := f64OfInt_exact hy
  obtain ⟨hfz, hsz, -⟩ := f64OfInt_exact hz
  refine add_eq_f64OfInt n hfy (by rw [isFinite_neg, hfz]) ?_ fun h0 => ?_
  · rw [signedUnits_neg, signedUnits_f64OfInt hy, signedUnits_f64OfInt hz, ← sub_eq_add_neg, sub_mul]
  · rw [sign_neg, hsy, hsz]
    simp only [Bool.and_eq_false_iff, decide_eq_false_iff_not, Bool.not_eq_false', decide_eq_true_eq]
    omega

theorem isZero_of_units_ne_zero {v : F64} (h : F64.units v ≠ 0) : F64.isZero v = false :=
  Bool.eq_false_iff.2 fun hz => h (by rw [F64.units_eq, F64.isZero_iff.1 hz]; decide)

/-- A quotient of whole numbers without a remainder is exact. -/
theorem div_f64OfInt (n : NanBits) {m : Nat} {z : ℤ} (h0 : 0 < m) (hm : m < 2 ^ 53) (hz : (m * z).natAbs < 2 ^ 53) :
    F64.div n (f64OfInt (m * z)) (F64.ofNat m) = f64OfInt z := by
  obtain ⟨hfm, hsm, hum⟩ := ofNat_exact hm
  obtain ⟨hf, hs, hu⟩ := f64OfInt_exact hz
  obtain ⟨hn, hi⟩ := not_nan_of_finite hf
  obtain ⟨hnm, him⟩ := not_nan_of_finite hfm
  have hden : 0 < m * 2 ^ 1074 := Nat.mul_pos h0 (Nat.two_pow_pos 1074)
  have hzm : F64.isZero (F64.ofNat m) = false := isZero_of_units_ne_zero (by rw [hum]; exact hden.ne')
  have hneg : m * z < 0 ↔ z < 0 := lt_iff_lt_of_le_iff_le (mul_nonneg_iff_of_pos_left (by exact_mod_cast h0))
  rw [Int.natAbs_mul, Int.natAbs_natCast] at hz hu
  obtain ⟨low, hlow, hunits⟩ := exists_unitsOf z.natAbs (lt_of_le_of_lt (Nat.le_mul_of_pos_left _ h0) hz)
  have hquot := F64.roundUnits_exact (decide (z < 0)) hden hlow.le
  have hone := F64.roundUnits_exact (decide (z < 0)) one_pos hlow.le
  rw [Nat.mul_one, hunits] at hone
  rw [hunits] at hquot
  have hnum : m * z.natAbs * 2 ^ 1074 * 2 ^ 1074 = z.natAbs * 2 ^ 1074 * (m * 2 ^ 1074) := by
    generalize 2 ^ 1074 = u
    ring
  rw [f64OfInt_eq_roundUnits z, hone, ← hquot, ← hnum]
  simp only [F64.div, hn, hi, hnm, him, hzm, hs, hsm, hu, hum, hneg, Bool.or_self, Bool.false_eq_true, if_false,
    Bool.bne_false]

/-! ### The transforms of whole numbers for the sides 1 and 2 (R177) -/

/-- A whole number as a complex value, its imaginary part +0. -/
def c64OfInt (z : ℤ) : C64 := { re := f64OfInt z, im := F64.zero false }

/-- A channel of whole numbers, as rows. -/
def intRows (w h : Nat) (a : Nat → Nat → ℤ) : List (List C64) :=
  (List.range w).map fun x => (List.range h).map fun y => c64OfInt (a x y)

/-- Output `k` of the transform of one or two whole numbers (N2). -/
def intBin (n : Nat) (g : Nat → ℤ) (k : Nat) : ℤ :=
  if n = 2 then if k = 0 then g 0 + g 1 else g 0 - g 1 else g k

/-- Both passes. -/
def intPasses (w h : Nat) (a : Nat → Nat → ℤ) (u v : Nat) : ℤ := intBin w (fun x => intBin h (a x) v) u

theorem natAbs_intBin_lt {n b : Nat} {g : Nat → ℤ} (hg : ∀ k, (g k).natAbs < b) (k : Nat) :
    (intBin n g k).natAbs < 2 * b := by
  have h0 := hg 0
  have h1 := hg 1
  have hk := hg k
  unfold intBin
  split_ifs <;> omega

theorem natAbs_intPasses_lt {w h b : Nat} {a : Nat → Nat → ℤ} (ha : ∀ x y, (a x y).natAbs < b) (u v : Nat) :
    (intPasses w h a u v).natAbs < 2 * (2 * b) := natAbs_intBin_lt (fun x => natAbs_intBin_lt (ha x) v) u

/-- The transform undoes itself, but for the length. -/
theorem intBin_intBin {n k : Nat} (hn : n = 1 ∨ n = 2) (g : Nat → ℤ) (hk : k < n) :
    intBin n (intBin n g) k = n * g k := by
  rcases hn with rfl | rfl
  · simp [intBin]
  · obtain rfl | rfl : k = 0 ∨ k = 1 := by omega
    · simp only [intBin, if_true, one_ne_zero, if_false]; push_cast; ring
    · simp only [intBin, if_true, one_ne_zero, if_false]; push_cast; ring

theorem intBin_mul_left (n : Nat) (m : ℤ) (g : Nat → ℤ) (k : Nat) :
    intBin n (fun j => m * g j) k = m * intBin n g k := by
  unfold intBin
  split_ifs <;> ring

/-- Passes along the two axes commute. -/
theorem intPasses_eq_axis0_first (w h : Nat) (a : Nat → Nat → ℤ) (u v : Nat) :
    intPasses w h a u v = intBin h (fun y => intBin w (fun x => a x y) u) v := by
  unfold intPasses intBin
  split_ifs <;> ring

/-- The passes undo themselves, but for `W * H`. -/
theorem intPasses_intPasses {w h x y : Nat} (hw : w = 1 ∨ w = 2) (hh : h = 1 ∨ h = 2) (a : Nat → Nat → ℤ) (hx : x < w)
    (hy : y < h) : intPasses w h (intPasses w h a) x y = (w * h : Nat) * a x y := by
  have hrow : ∀ u, intPasses w h a u = intBin h fun y => intBin w (fun x => a x y) u := fun u =>
    funext (intPasses_eq_axis0_first w h a u)
  calc intPasses w h (intPasses w h a) x y
      = intBin w (fun u => h * intBin w (fun x => a x y) u) x := by
        rw [intPasses]; simp only [hrow, intBin_intBin hh _ hy]
    _ = (w * h : Nat) * a x y := by rw [intBin_mul_left, intBin_intBin hw _ hx]; push_cast; ring

/-- The 1D transform of one or two whole numbers is that of `intBin`. -/
theorem dft1_ints (sign : DftSign) {n k : Nat} (hn : n = 1 ∨ n = 2) {g : Nat → ℤ} (hg : ∀ j, (g j).natAbs < 2 ^ 53)
    (hk : k < n) :
    (Num.dft1 sign ((List.range n).map fun j => c64OfInt (g j))).getD k default = c64OfInt (intBin n g k) := by
  rcases hn with rfl | rfl
  · obtain rfl : k = 0 := by omega
    rfl
  · obtain ⟨nan, hpair⟩ := dft1_pair sign (c64OfInt (g 0)) (c64OfInt (g 1))
    have hlist : (List.range 2).map (fun j => c64OfInt (g j)) = [c64OfInt (g 0), c64OfInt (g 1)] := rfl
    rw [hlist, hpair]
    obtain rfl | rfl : k = 0 ∨ k = 1 := by omega
    · simp [c64OfInt, intBin, add_zeros, add_f64OfInt _ (hg 0) (hg 1)]
    · simp [c64OfInt, intBin, sub_zeros, sub_f64OfInt _ (hg 0) (hg 1)]

/-- The two passes over a channel of whole numbers. -/
theorem passes_intRows (sign : DftSign) {w h : Nat} (hw : w = 1 ∨ w = 2) (hh : h = 1 ∨ h = 2) {a : Nat → Nat → ℤ}
    (ha : ∀ x y, (a x y).natAbs < 2 ^ 52) : passes sign w h (intRows w h a) = intRows w h (intPasses w h a) := by
  have hrow : ∀ x, ∀ v < h, (Num.dft1 sign ((List.range h).map fun y => c64OfInt (a x y))).getD v default =
      c64OfInt (intBin h (a x) v) := fun x v hv => dft1_ints sign hh (fun y => (ha x y).trans (by norm_num)) hv
  refine (passesOf_table Num.dft1 dft1_length sign w h fun x y => c64OfInt (a x y)).trans (List.map_congr_left fun u hu =>
    List.map_congr_left fun v hv => ?_)
  rw [List.mem_range] at hu hv
  rw [entry_passesOf _ _ _ hu hv]
  simp only [hrow _ v hv]
  exact dft1_ints sign hw (fun x => natAbs_intBin_lt (ha x) v) hu

theorem fft2_intRows {w h : Nat} (hw : w = 1 ∨ w = 2) (hh : h = 1 ∨ h = 2) {a : Nat → Nat → ℤ}
    (ha : ∀ x y, (a x y).natAbs < 2 ^ 52) : fft2 w h (intRows w h a) = intRows w h (intPasses w h a) :=
  passes_intRows .minus hw hh ha

theorem div_zero_ofNat (n : NanBits) {m : Nat} (h0 : 0 < m) (hm : m < 2 ^ 53) :
    F64.div n (F64.zero false) (F64.ofNat m) = F64.zero false := by
  have hdiv := div_f64OfInt n (z := 0) h0 hm (by rw [mul_zero]; decide)
  rwa [mul_zero, f64OfInt_zero] at hdiv

/-- The inverse transform of the transform of small whole numbers is exactly they. -/
theorem ifft2_intRows (nan : Nat → NanBits) {w h : Nat} (hw : w = 1 ∨ w = 2) (hh : h = 1 ∨ h = 2) {a : Nat → Nat → ℤ}
    (ha : ∀ x y, (a x y).natAbs < 2 ^ 40) : ifft2 nan w h (intRows w h (intPasses w h a)) = intRows w h a := by
  have hspectrum : ∀ u v, (intPasses w h a u v).natAbs < 2 ^ 52 := fun u v =>
    (natAbs_intPasses_lt ha u v).trans (by norm_num)
  have hpos : 0 < w * h := Nat.mul_pos (by omega) (by omega)
  have hle : w * h ≤ 2 * 2 := Nat.mul_le_mul (by omega) (by omega)
  refine List.map_congr_left fun x hx => List.map_congr_left fun y hy => ?_
  rw [List.mem_range] at hx hy
  have hpasses : entry (passesOf Num.dft1 .plus w h (intRows w h (intPasses w h a))) x y =
      c64OfInt ((w * h : Nat) * a x y) := by
    rw [← intPasses_intPasses hw hh a hx hy]
    exact (congrArg (entry · x y) (passes_intRows .plus hw hh hspectrum)).trans (entry_table _ hx hy)
  have hbound : ((w * h : Nat) * a x y).natAbs < 2 ^ 53 := by
    rw [← intPasses_intPasses hw hh a hx hy]
    exact (natAbs_intPasses_lt (natAbs_intPasses_lt ha) x y).trans (by norm_num)
  simp only [hpasses, c64OfInt]
  rw [div_f64OfInt _ hpos (by omega) hbound, div_zero_ofNat _ hpos (by omega)]

/-! ### A transform of one element, and the example of four (R174, R176) -/

theorem units_one : F64.units F64.one = 2 ^ 1074 := by decide +kernel

theorem ofNat_one : F64.ofNat 1 = F64.one := by decide +kernel

/-- A value that is not NaN, divided by 1. -/
theorem div_one_of_not_nan (n : NanBits) {v : F64} (h : F64.isNaN v = false) : F64.div n v F64.one = v := by
  have hone : F64.isNaN F64.one = false ∧ F64.isInf F64.one = false ∧ F64.sign F64.one = false ∧
    F64.isZero F64.one = false := by decide
  cases hi : F64.isInf v with
  | true =>
    have hv : F64.div n v F64.one = F64.inf (F64.sign v) := by simp [F64.div, h, hi, hone]
    rw [hv, F64.inf, ← F64.isInf_iff.1 hi, F64.pack_sign_low]
  | false =>
    have hlow := F64.isFinite_iff.1 (finite_of_not_nan h hi)
    have hexact := F64.roundUnits_exact (F64.sign v) (Nat.two_pow_pos 1074) hlow.le
    rw [← F64.units_eq, F64.pack_sign_low] at hexact
    simpa only [F64.div, h, hi, hone, units_one, Bool.or_self, Bool.false_eq_true, if_false, Bool.bne_false] using hexact

/-- The numbers of the 2 x 2 example, 1, 2, 3, 4 (R174). -/
def exampleInts (x y : Nat) : ℤ := 2 * (x % 2) + y % 2 + 1

theorem intRows_exampleInts : intRows 2 2 exampleInts =
    [[{ re := 0x3FF0000000000000, im := F64.zero false }, { re := 0x4000000000000000, im := F64.zero false }],
     [{ re := 0x4008000000000000, im := F64.zero false }, { re := 0x4010000000000000, im := F64.zero false }]] := by
  decide +kernel

/-- Their transform is 10, -2, -4, 0. -/
theorem intRows_intPasses_exampleInts : intRows 2 2 (intPasses 2 2 exampleInts) =
    [[{ re := 0x4024000000000000, im := F64.zero false }, { re := 0xC000000000000000, im := F64.zero false }],
     [{ re := 0xC010000000000000, im := F64.zero false }, { re := 0x0000000000000000, im := F64.zero false }]] := by
  decide +kernel

theorem natAbs_exampleInts_lt (x y : Nat) : (exampleInts x y).natAbs < 5 := by
  unfold exampleInts
  omega

/-! ### The round trip of the commands (R177) -/

theorem Job.rows_congr {i j : Job} (hwidth : i.latched.width = j.latched.width)
    (hheight : i.latched.height = j.latched.height) (hnchan : i.latched.nchan = j.latched.nchan) :
    i.rows = j.rows := by
  unfold Job.rows Job.element
  rw [hwidth, hheight, hnchan]

/-- The forward transform of a channel is the table of its entries. -/
theorem fft2_rows_eq_table (j : Job) (m : Memory) (base c : Nat) :
    fft2 j.latched.width.toNat j.latched.height.toNat (j.rows m base c) =
      (List.range j.latched.width.toNat).map fun u => (List.range j.latched.height.toNat).map fun v =>
        entry (fft2 j.latched.width.toNat j.latched.height.toNat (j.rows m base c)) u v :=
  passesOf_table Num.dft1 dft1_length .minus _ _ fun x y => j.element m base x y c

/-- A channel with imaginary parts of +0, as rows. -/
theorem Job.rows_of_real {j : Job} {m : Memory} {base c : Nat} (him : ∀ x < j.latched.width.toNat,
    ∀ y < j.latched.height.toNat, (j.element m base x y c).im = F64.zero false) :
    j.rows m base c = (List.range j.latched.width.toNat).map fun x => (List.range j.latched.height.toNat).map fun y =>
      ({ re := (j.element m base x y c).re, im := F64.zero false } : C64) :=
  List.map_congr_left fun x hx => List.map_congr_left fun y hy => by
    rw [← him x (List.mem_range.1 hx) y (List.mem_range.1 hy)]

/-- FFT2, then IFFT2 of what it wrote: every element is that of the inverse transform of the transform. -/
theorem fft2_ifft2_result {s1 t1 s2 t2 : State} {j1 j2 : Job} (hb1 : s1.engine = .busy j1 false) (hw1 : s1.dmem.wf)
    (hr1 : Ready .fft2 j1.latched) (ht1 : exec .fft2 s1 = .next t1) (hb2 : s2.engine = .busy j2 false)
    (hw2 : s2.dmem.wf) (hr2 : Ready .ifft2 j2.latched) (hsnap : j2.snap = t1.dmem)
    (hsrc : j2.latched.src = j1.latched.dst) (hwidth : j2.latched.width = j1.latched.width)
    (hheight : j2.latched.height = j1.latched.height) (hnchan : j2.latched.nchan = j1.latched.nchan)
    (ht2 : exec .ifft2 s2 = .next t2) {c x y : Nat} (hc : c < j1.latched.nchan.toNat)
    (hx : x < j1.latched.width.toNat) (hy : y < j1.latched.height.toNat) :
    j2.element t2.dmem j2.latched.dst.toNat x y c =
      entry (ifft2 (Config.nanBits j2 c) j1.latched.width.toNat j1.latched.height.toNat
        (fft2 j1.latched.width.toNat j1.latched.height.toNat (j1.rows j1.snap j1.latched.src.toNat c))) x y := by
  obtain ⟨t, hexec1, -, -, hspectrum, -⟩ := fft2_result hb1 hw1 hr1
  obtain rfl : t1 = t := by rw [ht1] at hexec1; injection hexec1
  obtain ⟨t, hexec2, -, -, hback, -⟩ := ifft2_result hb2 hw2 hr2
  obtain rfl : t2 = t := by rw [ht2] at hexec2; injection hexec2
  have hrows : j2.rows j2.snap j2.latched.src.toNat c =
      fft2 j1.latched.width.toNat j1.latched.height.toNat (j1.rows j1.snap j1.latched.src.toNat c) := by
    rw [Job.rows_congr hwidth hheight hnchan, hsnap, hsrc, fft2_rows_eq_table]
    exact List.map_congr_left fun u hu => List.map_congr_left fun v hv =>
      hspectrum c hc u (List.mem_range.1 hu) v (List.mem_range.1 hv)
  rw [← hnchan] at hc
  rw [← hwidth] at hx
  rw [← hheight] at hy
  rw [hback c hc x hx y hy, hrows, hwidth, hheight]

end Sys2Proof.Machine

/-! ### The obligations -/

section
open Sys2Proof Sys2Proof.Machine

/-- Settles O57: on whole numbers for the sides 1 and 2 every rounding is exact; for every legal shape the two commands are
the round trip of N4. -/
theorem smallIntegerTransformsRoundTrip : Obligations.SmallIntegerTransformsRoundTrip := by
  refine ⟨fun nan w h a hw hh ha x hx y hy => ?_, ?_⟩
  · have habs : ∀ x y, (a x y).natAbs < 2 ^ 40 := fun x y => by
      have := ha x y
      rw [Int.abs_eq_natAbs] at this
      exact_mod_cast this
    have hback : ifft2 nan w h (fft2 w h (intRows w h a)) = intRows w h a := by
      rw [fft2_intRows hw hh fun x y => (habs x y).trans (by norm_num), ifft2_intRows nan hw hh habs]
    calc roundTrip nan w h (fun x y => f64OfInt (a x y)) x y
        = (entry (ifft2 nan w h (fft2 w h (intRows w h a))) x y).re := rfl
      _ = f64OfInt (a x y) := by rw [hback, intRows, entry_table _ hx hy, c64OfInt]
  · intro c s1 t1 s2 t2 j1 j2 hb1 hw1 hr1 ht1 hb2 hw2 hr2 hsnap hsrc hwidth hheight hnchan ht2 w h n element a hc him hfin
      x hx y hy r
    have hr : r = roundTrip (Config.nanBits j2 c) w h a x y := by
      have hresult := fft2_ifft2_result hb1 hw1 hr1 ht1 hb2 hw2 hr2 hsnap hsrc hwidth hheight hnchan ht2 hc hx hy
      rw [Job.rows_of_real him, Job.element, hheight, hnchan] at hresult
      exact congrArg C64.re hresult
    obtain ⟨hshape, -, -⟩ := hr1
    simp only [BadShape, not_or, not_not] at hshape
    obtain ⟨⟨hlegalW, hlegalH⟩, -⟩ := hshape
    rw [hr]
    exact fftRoundTrip w h a hlegalW hlegalH hfin _ x hx y hy

/-- Settles O56: a pass over one element is the identity, and the example is one of whole numbers. -/
theorem smallTransformExamples : Obligations.SmallTransformExamples := by
  refine ⟨fun z => rfl, fun nan z hz => ?_, ?_⟩
  · simp only [C64.hasNaN, Bool.or_eq_false_iff] at hz
    obtain ⟨hre, him⟩ := hz
    calc ifft2 nan 1 1 [[z]]
        = [[{ re := F64.div (nan 0) z.re (F64.ofNat 1), im := F64.div (nan 1) z.im (F64.ofNat 1) }]] := rfl
      _ = [[z]] := by rw [ofNat_one, div_one_of_not_nan _ hre, div_one_of_not_nan _ him]
  · intro real a s
    have ha : intRows 2 2 exampleInts = a := intRows_exampleInts
    have hs : intRows 2 2 (intPasses 2 2 exampleInts) = s := intRows_intPasses_exampleInts
    have hlt : ∀ x y, (exampleInts x y).natAbs < 2 ^ 40 := fun x y => (natAbs_exampleInts_lt x y).trans (by norm_num)
    rw [← ha, ← hs]
    exact ⟨fft2_intRows (.inr rfl) (.inr rfl) fun x y => (hlt x y).trans (by norm_num),
      fun nan => ifft2_intRows nan (.inr rfl) (.inr rfl) hlt⟩

end
end

section
/-! PROOFS, 44_fft.md, FFT_EMBED: the rounding to a byte and the white sample (R190 to R194), and the eight steps at
their index (R181). -/

namespace Sys2Proof.Machine

/-! ### `to_u8` (R194) -/

/-- `round_away` of a quotient of naturals. -/
theorem roundAway_natCast_div (m d : Nat) (hd : 0 < d) :
    roundAway ((m : ℚ) / d) = (((2 * m + d) / (2 * d) : Nat) : ℤ) := by
  have hdq : (d : ℚ) ≠ 0 := Nat.cast_ne_zero.2 hd.ne'
  have hsum : (m : ℚ) / d + 1 / 2 = ((2 * m + d : Nat) : ℚ) / ((2 * d : Nat) : ℚ) := by
    push_cast
    field_simp
  rw [roundAway, if_neg (not_lt.2 (by positivity)), hsum, Rat.floor_natCast_div_natCast]
  exact (Int.natCast_ediv _ _).symm

theorem roundAway_nonpos {q : ℚ} (h : q ≤ 0) : roundAway q ≤ 0 := by
  unfold roundAway
  split
  · have : 0 ≤ ⌊-q + 1 / 2⌋ := Int.floor_nonneg.2 (by linarith)
    omega
  · obtain rfl : q = 0 := by linarith
    norm_num

theorem toU8_of_isNaN {v : F64} (h : F64.isNaN v = true) : F64.toU8 v = 0 := by rw [F64.toU8, if_pos h]

theorem toU8_of_isInf {v : F64} (h : F64.isInf v = true) : F64.toU8 v = if F64.sign v then 0 else 255 := by
  have hn : F64.isNaN v = false := Bool.eq_false_iff.2 fun hn => by rw [not_inf_of_nan hn] at h; cases h
  simp [F64.toU8, hn, h]

/-- A finite sample is rounded half away from zero, then clamped to a byte. -/
theorem toU8_of_isFinite {v : F64} (h : F64.isFinite v = true) :
    ((F64.toU8 v).toNat : ℤ) = max 0 (min 255 (roundAway (F64.toRat v))) := by
  obtain ⟨hn, hi⟩ := not_nan_of_finite h
  cases hs : F64.sign v with
  | true =>
    have hle : F64.toRat v ≤ 0 := by
      rw [toRat_eq, hs, if_pos rfl, neg_one_mul, neg_div]
      exact neg_nonpos.2 (by positivity)
    have := roundAway_nonpos hle
    rw [F64.toU8, if_neg (by simp [hn]), if_pos hs]
    change (0 : ℤ) = _
    omega
  | false =>
    have hq : F64.toRat v = (F64.units v : ℚ) / ((2 ^ 1074 : Nat) : ℚ) := by
      rw [toRat_eq, hs, if_neg Bool.false_ne_true, one_mul, Nat.cast_pow, Nat.cast_ofNat]
    have hround : roundAway (F64.toRat v) = (F64.roundAwayMag v : ℤ) := by
      rw [hq, roundAway_natCast_div _ _ (Nat.two_pow_pos 1074), F64.roundAwayMag, pow_succ' 2 1074]
    have hlt : min (F64.roundAwayMag v) 255 < 256 := by omega
    simp only [F64.toU8, hn, hs, hi, Bool.false_eq_true, if_false, BitVec.toNat_ofNat, Nat.mod_eq_of_lt hlt, hround]
    omega

/-! ### The largest sample (R190 to R192) -/

/-- A finite value that is not zero, divided by itself, is 1. -/
theorem div_self_eq_one (n : NanBits) {m : F64} (hf : F64.isFinite m = true) (hz : F64.isZero m = false) :
    F64.div n m m = F64.one := by
  obtain ⟨hn, hi⟩ := not_nan_of_finite hf
  have hunits : F64.unitsOf (F64.low F64.one) = 2 ^ 1074 := by rw [← F64.units_eq, units_one]
  have hexact := F64.roundUnits_exact false (units_pos hz) (n := F64.low F64.one) (by decide)
  rw [hunits, Nat.mul_comm] at hexact
  simp only [F64.div, hn, hi, hz, Bool.or_self, Bool.false_eq_true, if_false, bne_self_eq_false, hexact]
  decide

theorem one_mul_255 (p : NanBits) : F64.mul p F64.one F64.twoFiftyFive = F64.twoFiftyFive := by
  rw [mul_nanBits p _ _ (by decide +kernel)]
  decide +kernel

/-- Rescaling an array by its own maximum to 255 makes a sample white (R191). -/
theorem white_mem_of_rescale (nan : Nat → NanBits) {a : List F64} {m : F64} (h : maxToDivideBy a = .ok m) :
    (255 : Byte) ∈ (Sys2Proof.Machine.norm nan a m F64.twoFiftyFive).map F64.toU8 := by
  obtain ⟨hmax, hf, hz⟩ := maxToDivideBy_ok_iff.1 h
  obtain ⟨k, hk, -⟩ := (fmax_spec a).2 m hmax
  have hwhite : (Sys2Proof.Machine.norm nan a m F64.twoFiftyFive)[k]? = some F64.twoFiftyFive := by
    rw [getElem?_norm, hk, Option.map_some, normElem, div_self_eq_one _ hf hz, one_mul_255]
  have h255 : F64.toU8 F64.twoFiftyFive = 255 := by decide +kernel
  exact List.mem_map.2 ⟨_, List.mem_of_getElem? hwhite, h255⟩

/-- An image that FFT_EMBED makes has a white sample. -/
theorem white_mem_of_embedPixels {nan : Nat → Nat → NanBits} {grid : Nat → Bool} {w h l : Nat} {pixels out : List Byte}
    (ho : embedPixels nan grid w h l pixels = .ok out) : (255 : Byte) ∈ out := by
  unfold embedPixels at ho
  simp only [bind_ok] at ho
  obtain ⟨_, _, _, _, rmax, hrmax, ho⟩ := ho
  injection ho with ho
  exact ho ▸ white_mem_of_rescale (nan 11) hrmax

/-! ### The eight steps at their index (R181)

Of an image `p` of shape `w x h` with three channels, `nan` the choice of NaN bits (I11, log 12). -/

@[simp] theorem layout3_length {α : Type} (w h : Nat) (f : Nat → Nat → Nat → α) :
    (layout3 w h f).length = w * h * 3 := by
  simp [layout3]

section Steps
variable (nan : Nat → Nat → NanBits) (grid : Nat → Bool) (w h l : Nat) (p : Nat → Nat → Nat → Byte)

/-- Step 1 (R183). -/
def sampleAt (x y c : Nat) : C64 :=
  { re := F64.div (nan 1 (place3 h x y c)) (F64.ofNat (p x y c).toNat) F64.twoFiftyFive, im := F64.zero false }

/-- Step 2 (R184). -/
def spectrumAt (u v c : Nat) : C64 := entry (fft2 w h (rows3 w h (sampleAt nan h p) c)) u v

/-- Step 3 (R185): the log-magnitude. -/
def logAt (u v c : Nat) : F64 := Num.log10 (Num.abs (spectrumAt nan w h p u v c).re (spectrumAt nan w h p u v c).im)

/-- Steps 4 and 5 (R186, R187). -/
def perturbedAt (premax : F64) (u v c : Nat) : F64 :=
  F64.add (nan 5 (place3 h u v c))
    (F64.mul (nan 4 (2 * place3 h u v c + 1)) (F64.div (nan 4 (2 * place3 h u v c)) (logAt nan w h p u v c) premax)
      F64.twoFiftyFive)
    (if grid (tile u v l) then F64.thirtyTwo else F64.zero false)

/-- Step 6 (R188). -/
def rescaledAt (premax m2 : F64) (u v c : Nat) : F64 :=
  F64.mul (nan 6 (2 * place3 h u v c + 1))
    (F64.div (nan 6 (2 * place3 h u v c)) (perturbedAt nan grid w h l p premax u v c) m2) premax

/-- Step 3's phase (R185). -/
def phaseAt (u v c : Nat) : F64 := Num.arg (spectrumAt nan w h p u v c).re (spectrumAt nan w h p u v c).im

/-- Step 7 (R189). -/
def rebuiltAt (premax m2 : F64) (u v c : Nat) : C64 :=
  { re := F64.mul (nan 7 (2 * place3 h u v c)) (Num.pow10 (rescaledAt nan grid w h l p premax m2 u v c))
      (Num.cos (phaseAt nan w h p u v c)),
    im := F64.mul (nan 7 (2 * place3 h u v c + 1)) (Num.pow10 (rescaledAt nan grid w h l p premax m2 u v c))
      (Num.sin (phaseAt nan w h p u v c)) }

/-- Step 8, the inverse transform (R190). -/
def realAt (premax m2 : F64) (x y c : Nat) : F64 :=
  (entry (ifft2 (nan (8 + c)) w h (rows3 w h (rebuiltAt nan grid w h l p premax m2) c)) x y).re

/-- Step 8, the rescaling (R191). -/
def outputAt (premax m2 rmax : F64) (x y c : Nat) : F64 :=
  F64.mul (nan 11 (2 * place3 h x y c + 1))
    (F64.div (nan 11 (2 * place3 h x y c)) (realAt nan grid w h l p premax m2 x y c) rmax) F64.twoFiftyFive

/-- A maximum that a step may divide by (R192). -/
def IsUsable (m : F64) : Prop := F64.isFinite m = true ∧ F64.isZero m = false

/-- The three maxima of the steps, over all channels, each one to divide by (R182, R192). -/
def AreMaxima (premax m2 rmax : F64) : Prop :=
  fmax (layout3 w h (logAt nan w h p)) = some premax ∧ IsUsable premax ∧
  fmax (layout3 w h (perturbedAt nan grid w h l p premax)) = some m2 ∧ IsUsable m2 ∧
  fmax (layout3 w h (realAt nan grid w h l p premax m2)) = some rmax ∧ IsUsable rmax

variable {nan grid w h l p}

/-- What the eight steps answer: the samples at their index, where the three maxima are there to divide by. -/
theorem embedPixels_ok_iff {out : List Byte} : embedPixels nan grid w h l (layout3 w h p) = .ok out ↔
    ∃ premax m2 rmax, AreMaxima nan grid w h l p premax m2 rmax ∧
      out = layout3 w h fun x y c => F64.toU8 (outputAt nan grid w h l p premax m2 rmax x y c) := by
  have hspectrum : embedSpectrum nan w h (layout3 w h p) = layout3 w h (spectrumAt nan w h p) :=
    embedSpectrum_layout3 nan w h p
  have hlog : embedLog (layout3 w h (spectrumAt nan w h p)) = layout3 w h (logAt nan w h p) := embedLog_layout3 w h _
  have hperturbed : ∀ premax, embedPerturbed nan grid h l
      (Sys2Proof.Machine.norm (nan 4) (layout3 w h (logAt nan w h p)) premax F64.twoFiftyFive) =
      layout3 w h (perturbedAt nan grid w h l p premax) := fun premax => by
    rw [norm_layout3, embedPerturbed_layout3]; rfl
  have hrebuilt : ∀ premax m2, embedRebuilt nan (layout3 w h (spectrumAt nan w h p))
      (Sys2Proof.Machine.norm (nan 6) (layout3 w h (perturbedAt nan grid w h l p premax)) m2 premax) =
      layout3 w h (rebuiltAt nan grid w h l p premax m2) := fun premax m2 => by
    rw [norm_layout3, embedRebuilt_layout3]; rfl
  have hreal : ∀ premax m2, embedReal nan w h (layout3 w h (rebuiltAt nan grid w h l p premax m2)) =
      layout3 w h (realAt nan grid w h l p premax m2) := fun premax m2 => embedReal_layout3 nan w h _
  have houtput : ∀ premax m2 rmax, (Sys2Proof.Machine.norm (nan 11) (layout3 w h (realAt nan grid w h l p premax m2)) rmax
      F64.twoFiftyFive).map F64.toU8 =
      layout3 w h fun x y c => F64.toU8 (outputAt nan grid w h l p premax m2 rmax x y c) := fun premax m2 rmax => by
    rw [norm_layout3, layout3_map]; rfl
  simp only [embedPixels, hspectrum, hlog, hperturbed, hrebuilt, hreal, houtput, bind_ok, maxToDivideBy_ok_iff,
    Except.ok.injEq]
  constructor
  · rintro ⟨premax, ⟨hmax, husable⟩, m2, ⟨hmax2, husable2⟩, rmax, ⟨hmaxr, husabler⟩, rfl⟩
    exact ⟨premax, m2, rmax, ⟨hmax, husable, hmax2, husable2, hmaxr, husabler⟩, rfl⟩
  · rintro ⟨premax, m2, rmax, ⟨hmax, husable, hmax2, husable2, hmaxr, husabler⟩, rfl⟩
    exact ⟨premax, ⟨hmax, husable⟩, m2, ⟨hmax2, husable2⟩, rmax, ⟨hmaxr, husabler⟩, rfl⟩

end Steps

/-! ### FFT_EMBED -/

/-- With operands that pass its checks FFT_EMBED writes what the eight steps make of its image, or fails with their error. -/
theorem outOf_fftEmbed {g : Bool} {j : Job} {grid : Nat → Bool} (hr : Ready (.fftEmbed g) j.latched)
    (hs : gridSource g j = .ok grid) : outOf (.fftEmbed g) j =
      (embedPixels (Config.nanBits j) grid j.latched.width.toNat j.latched.height.toNat (gridSideOf g j.latched)
        (j.bytes j.latched.dst.toNat (3 * j.latched.area)) >>= okBytes j.latched.dst.toNat) := by
  rw [outOf, fftEmbedOut, after_checks hr, hs, bind_pure_ok]

/-- The image of FFT_EMBED by its elements (R63). -/
def Job.pixel (j : Job) (x y c : Nat) : Byte :=
  j.snap.readByte (j.latched.dst.toNat + place3 j.latched.height.toNat x y c)

/-- What FFT_EMBED's completion leaves in DST, and what it says of the outcome: the samples of the eight steps, or a
degenerate maximum and the samples as they were (R180 to R194). -/
def FftEmbedded (g : Bool) (grid : Nat → Bool) (j : Job) (s t : State) : Prop :=
  let w := j.latched.width.toNat
  let h := j.latched.height.toNat
  let l := gridSideOf g j.latched
  let nan := Config.nanBits j
  (∃ premax m2 rmax, AreMaxima nan grid w h l j.pixel premax m2 rmax ∧ Succeeded s t ∧
    ∀ x < w, ∀ y < h, ∀ c < 3, t.byte (j.latched.dst.toNat + place3 h x y c) =
      F64.toU8 (outputAt nan grid w h l j.pixel premax m2 rmax x y c)) ∨
  (¬ ∃ premax m2 rmax, AreMaxima nan grid w h l j.pixel premax m2 rmax) ∧ FailedAs s t .degenerateNormalization ∧
    ∀ k < 3 * (w * h), t.byte (j.latched.dst.toNat + k) = s.byte (j.latched.dst.toNat + k)

/-- A byte of FFT_EMBED's image. -/
theorem inRegion_image {g : Bool} {o : Operands} {k : Nat} (hk : k < 3 * o.area) :
    inRegion (dstRegion (.fftEmbed g) o) (o.dst.toNat + k) = true :=
  has_iff.2 ⟨Nat.le_add_right _ _, Nat.add_lt_add_left hk _⟩

theorem fftEmbed_result {g : Bool} {s : State} {j : Job} {grid : Nat → Bool} (hw : s.dmem.wf)
    (hr : Ready (.fftEmbed g) j.latched) (hs : gridSource g j = .ok grid) :
    FftEmbedded g grid j s (s.complete (.fftEmbed g) j false (outOf (.fftEmbed g) j)) := by
  have hdst := fun k hk => complete_readByte_dst hw (.fftEmbed g) j (outOf (.fftEmbed g) j)
    (inRegion_image (g := g) (o := j.latched) (k := k) hk)
  have hpixels : j.bytes j.latched.dst.toNat (3 * j.latched.area) =
      layout3 j.latched.width.toNat j.latched.height.toNat j.pixel := bytes_layout3 j _ _ _
  have hout := outOf_fftEmbed hr hs
  rw [hpixels] at hout
  cases he : embedPixels (Config.nanBits j) grid j.latched.width.toNat j.latched.height.toNat (gridSideOf g j.latched)
      (layout3 j.latched.width.toNat j.latched.height.toNat j.pixel) with
  | ok out =>
    rw [he, bind_pure_ok] at hout
    obtain ⟨premax, m2, rmax, hmax, rfl⟩ := embedPixels_ok_iff.1 he
    refine .inl ⟨premax, m2, rmax, hmax, succeeded_of hout, fun x hx y hy c hc => ?_⟩
    have hk := place3_lt hx hy hc
    rw [hdst _ (by rw [Operands.area]; omega), hout, okBytes, writtenBy, readByte_writeBlock hw, if_pos ?_,
      Nat.add_sub_cancel_left, layout3_getD _ _ hx hy hc]
    rw [layout3_length]
    omega
  | error e =>
    obtain rfl := embedPixels_error he
    rw [he, bind_error] at hout
    refine .inr ⟨fun ⟨premax, m2, rmax, hmax⟩ => ?_, failed_of hout, fun k hk => ?_⟩
    · rw [embedPixels_ok_iff.2 ⟨premax, m2, rmax, hmax, rfl⟩] at he
      cases he
    · rw [hdst k hk, hout, writtenBy, State.byte]

end Sys2Proof.Machine

/-! ### The obligations -/

section
open Sys2Proof Sys2Proof.Machine

/-- Settles O59: the rounding by the kinds of values; the sample that holds the last maximum is rescaled to 255. -/
theorem embeddedSamplesAreRoundedAndOneIsWhite : Obligations.EmbeddedSamplesAreRoundedAndOneIsWhite := by
  refine ⟨fun v => ⟨toU8_of_isFinite, toU8_of_isNaN, toU8_of_isInf⟩, fun nan grid w h l pixels => ?_⟩
  cases ho : embedPixels nan grid w h l pixels with
  | ok out => exact ⟨embedPixels_length ho, white_mem_of_embedPixels ho⟩
  | error e => exact embedPixels_error ho

/-- Settles O39: FFT_EMBED's completion writes what the eight steps make of its image, or fails as degenerate; the statement
writes out the definitions of `FftEmbedded`. -/
theorem fftEmbedRunsTheEightSteps : Obligations.FftEmbedRunsTheEightSteps := by
  intro g s j hb hw hr w h l dst at3 all rows usable
  obtain ⟨grid, hs⟩ := IsEmbedder.gridSource_of_ready (.inr rfl) hr
  refine ⟨_, grid, Config.nanBits j, hs, exec_busy hb _, complete_sameResult (by simp) (by simp) s j false,
    fftEmbed_result hw hr hs, fun a hdst haux => complete_frame hw _ j false ?_ ?_⟩
  · exact Bool.eq_false_iff.2 fun hin => hdst (has_iff.1 hin)
  · exact Bool.eq_false_iff.2 fun hin => haux (has_iff.1 hin)

/-- Settles O60: the steps on arrays that are equal but for NaN bits. -/
theorem nanBitsNeverReachTheEmbeddedSamples : Obligations.NanBitsNeverReachTheEmbeddedSamples := embedPixels_nanBits

end
end

section
/-! PROOFS, 45_normalization.md. `fmax` by any partition (R211, R212), a rescaled array and its maximum (R215, R216), and the
two commands MAX (R210, R220) and NORMALIZE (R213, R214, R218). -/

namespace Sys2Proof.Machine

/-! ### The maximum of an array (R211, R212) -/

theorem fmax_eq_none_iff {a : List F64} : fmax a = none ↔ ∀ v ∈ a, F64.isNaN v = true := by
  obtain ⟨hnone, hsome⟩ := fmax_spec a
  refine ⟨hnone, fun hnan => ?_⟩
  cases hf : fmax a with
  | none => rfl
  | some m =>
    obtain ⟨k, hk, hm, -⟩ := hsome m hf
    rw [hnan m (List.mem_of_getElem? hk)] at hm
    cases hm

theorem fmax_eq_some_iff {a : List F64} {m : F64} : fmax a = some m ↔ IsFMax a m := by
  refine ⟨(fmax_spec a).2 m, fun hm => ?_⟩
  cases hf : fmax a with
  | none =>
    obtain ⟨k, hk, hnan, -⟩ := hm
    rw [fmax_eq_none_iff.1 hf m (List.mem_of_getElem? hk)] at hnan
    cases hnan
  | some m' => rw [((fmax_spec a).2 m' hf).unique hm]

/-- A maximum is no NaN (R211). -/
theorem not_nan_of_fmax {a : List F64} {m : F64} (h : fmax a = some m) : F64.isNaN m = false := by
  obtain ⟨k, -, hm, -⟩ := fmax_eq_some_iff.1 h
  exact hm

/-- Values that are not NaN and compare equal have the same bits, but for the two zeros (R212). -/
theorem eq_of_not_gt {a b : F64} (ha : F64.isNaN a = false) (hb : F64.isNaN b = false) (hab : F64.gt a b = false)
    (hba : F64.gt b a = false) (hz : F64.isZero a = false) : a = b := by
  have hkey : F64.key a = F64.key b :=
    le_antisymm ((f64_gt_eq_false_iff ha hb).1 hab) ((f64_gt_eq_false_iff hb ha).1 hba)
  have hlow : F64.low a ≠ 0 := fun h => by rw [F64.isZero_iff.2 h] at hz; cases hz
  rw [F64.key_eq, F64.key_eq] at hkey
  cases hsa : F64.sign a <;> cases hsb : F64.sign b <;>
    simp only [hsa, hsb, if_true, Bool.false_eq_true, if_false] at hkey
  · exact F64.ext_low (hsa.trans hsb.symm) (by omega)
  · omega
  · omega
  · exact F64.ext_low (hsa.trans hsb.symm) (by omega)

/-- An element that is not zero and that none exceeds is the maximum, whichever of its equals comes first. -/
theorem fmax_eq_of_largest {a : List F64} {m : F64} (hmem : m ∈ a) (hm : F64.isNaN m = false)
    (hz : F64.isZero m = false) (hle : ∀ v ∈ a, F64.gt v m = false) : fmax a = some m := by
  cases hf : fmax a with
  | none => rw [fmax_eq_none_iff.1 hf m hmem] at hm; cases hm
  | some k =>
    obtain ⟨i, hi, hk, hmax, -⟩ := fmax_eq_some_iff.1 hf
    rw [eq_of_not_gt hm hk (hmax m hmem) (hle k (List.mem_of_getElem? hi)) hz]

theorem f64_gt_trans {a b c : F64} (hab : F64.gt a b = true) (hbc : F64.gt b c = true) : F64.gt a c = true := by
  obtain ⟨ha, -, hkab⟩ := f64_gt_iff.1 hab
  obtain ⟨-, hc, hkbc⟩ := f64_gt_iff.1 hbc
  exact f64_gt_iff.2 ⟨ha, hc, hkbc.trans hkab⟩

theorem f64_not_gt_trans {a b c : F64} (hb : F64.isNaN b = false) (hab : F64.gt a b = false)
    (hbc : F64.gt b c = false) : F64.gt a c = false := by
  refine Bool.eq_false_iff.2 fun hac => ?_
  obtain ⟨ha, hc, hkey⟩ := f64_gt_iff.1 hac
  have hkab := (f64_gt_eq_false_iff ha hb).1 hab
  have hkbc := (f64_gt_eq_false_iff hb hc).1 hbc
  omega

/-- One more element of the higher part of a partition (R212). -/
theorem fmaxStep_fmaxJoin (low : Option F64) {high : Option F64} (hhigh : ∀ w, high = some w → F64.isNaN w = false)
    (v : F64) : fmaxStep (fmaxJoin low high) v = fmaxJoin low (fmaxStep high v) := by
  cases hv : F64.isNaN v with
  | true => simp [fmaxStep, hv]
  | false =>
    cases high with
    | none => simp [fmaxStep, fmaxJoin, hv]
    | some w =>
      have hw := hhigh w rfl
      cases low with
      | none => cases hvw : F64.gt v w <;> simp [fmaxStep, fmaxJoin, hv, hw, hvw]
      | some u =>
        cases hwu : F64.gt w u <;> cases hvw : F64.gt v w
        · simp [fmaxStep, fmaxJoin, hv, hw, hwu, hvw, f64_not_gt_trans hw hvw hwu]
        · simp [fmaxStep, fmaxJoin, hv, hw, hwu, hvw]
        · simp [fmaxStep, fmaxJoin, hv, hw, hwu, hvw]
        · simp [fmaxStep, fmaxJoin, hv, hw, hwu, hvw, f64_gt_trans hvw hwu]

/-- Going on from a part's start is joining with that part's own maximum (R212). -/
theorem foldl_fmaxStep (acc : Option F64) (part : List F64) :
    part.foldl fmaxStep acc = fmaxJoin acc (fmax part) := by
  induction part using List.reverseRecOn with
  | nil => rfl
  | append_singleton part v ih =>
    rw [List.foldl_append, ih, fmax_append_one]
    exact fmaxStep_fmaxJoin acc (fun _ => not_nan_of_fmax) v

theorem foldl_fmaxJoin (parts : List (List F64)) :
    parts.foldl (fun acc part => fmaxJoin acc (fmax part)) none = fmax parts.flatten := by
  rw [fmax, List.foldl_flatten]
  simp only [foldl_fmaxStep]

/-! ### Division by a maximum and multiplication by a factor (R215, R216) -/

/-- The value 1 times any value that is not NaN. -/
theorem one_mul_of_not_nan (p : NanBits) {f : F64} (h : F64.isNaN f = false) : F64.mul p F64.one f = f := by
  have hone : F64.isNaN F64.one = false ∧ F64.isInf F64.one = false ∧ F64.sign F64.one = false ∧
    F64.isZero F64.one = false := by decide
  cases hi : F64.isInf f with
  | true =>
    have hv : F64.mul p F64.one f = F64.inf (F64.sign f) := by simp [F64.mul, h, hi, hone]
    rw [hv, F64.inf, ← F64.isInf_iff.1 hi, F64.pack_sign_low]
  | false =>
    have hlow := F64.isFinite_iff.1 (finite_of_not_nan h hi)
    have hexact := F64.roundUnits_exact (F64.sign f) (Nat.two_pow_pos 1074) hlow.le
    rw [← F64.units_eq, F64.pack_sign_low, Nat.mul_comm] at hexact
    simpa only [F64.mul, h, hi, hone, units_one, Bool.or_self, Bool.false_eq_true, if_false, Bool.false_bne] using hexact

/-- The element that holds a maximum to divide by becomes the factor (R216). -/
theorem normElem_self (n p : NanBits) {m f : F64} (hm : F64.isFinite m = true) (hz : F64.isZero m = false)
    (hf : F64.isNaN f = false) : normElem n p m m f = f := by
  rw [normElem, div_self_eq_one n hm hz, one_mul_of_not_nan p hf]

/-- A finite value above zero. -/
structure IsPositive (v : F64) : Prop where
  finite : F64.isFinite v = true
  not_neg : F64.sign v = false
  ne_zero : F64.isZero v = false

theorem isPositive_of_gt_zero {v : F64} (hf : F64.isFinite v = true) (h : F64.gt v (F64.zero false) = true) :
    IsPositive v := by
  refine ⟨hf, sign_of_gt_zero h, Bool.eq_false_iff.2 fun hz => ?_⟩
  obtain ⟨-, -, hkey⟩ := f64_gt_iff.1 h
  rw [F64.key_eq v, sign_of_gt_zero h, F64.isZero_iff.1 hz] at hkey
  exact absurd hkey (by decide)

theorem IsPositive.key_eq {v : F64} (h : IsPositive v) : F64.key v = F64.low v := by
  rw [F64.key_eq, h.not_neg, if_neg Bool.false_ne_true]

/-- `r` is not NaN and not above the positive value `b`. -/
structure AtMost (r b : F64) : Prop where
  not_nan : F64.isNaN r = false
  key_le : F64.key r ≤ F64.key b

theorem AtMost.of_infinite_neg {b : F64} (hb : IsPositive b) : AtMost (F64.inf true) b := by
  refine ⟨by decide, ?_⟩
  rw [hb.key_eq, show F64.key (F64.inf true) = -(2047 * 2 ^ 52) by decide]
  omega

/-- What rounds to at most a positive value: every negative quotient, and the others up to its magnitude. -/
theorem AtMost.of_roundUnits {b : F64} (hb : IsPositive b) {neg : Bool} {num den : Nat} (hd : 0 < den)
    (h : neg = false → num ≤ F64.units b * den) : AtMost (F64.roundUnits neg num den) b := by
  obtain ⟨hs, hl⟩ := F64.low_roundUnits_lt neg num hd
  refine ⟨Bool.eq_false_iff.2 fun hnan => absurd (F64.isNaN_iff.1 hnan) (by omega), ?_⟩
  rw [hb.key_eq, F64.key_eq, hs]
  cases neg with
  | true => rw [if_pos rfl]; omega
  | false =>
    have hle := F64.low_roundUnits_le false hd (F64.units_eq b ▸ h rfl)
    rw [if_neg Bool.false_ne_true]
    omega

/-- A value that is not above a positive one is negative, or finite with at most its magnitude. -/
theorem AtMost.cases {v m : F64} (hm : IsPositive m) (h : AtMost v m) :
    F64.sign v = true ∨ F64.isInf v = false ∧ F64.units v ≤ F64.units m := by
  cases hs : F64.sign v with
  | true => exact .inl rfl
  | false =>
    have hfin := F64.isFinite_iff.1 hm.finite
    have hle := h.key_le
    rw [hm.key_eq, F64.key_eq, hs, if_neg Bool.false_ne_true, Int.ofNat_le] at hle
    refine .inr ⟨Bool.eq_false_iff.2 fun hi => absurd (F64.isInf_iff.1 hi) (by omega), ?_⟩
    rw [F64.units_eq, F64.units_eq]
    exact F64.unitsOf_strictMono.monotone hle

/-- An operation that keeps the sign and the infinities of a value at most `m` gives at most `b` where it takes the magnitudes
up to that of `m` to magnitudes up to that of `b`. -/
theorem AtMost.scaled {v m b r : F64} {num den : Nat} (hm : IsPositive m) (hb : IsPositive b) (h : AtMost v m)
    (hd : 0 < den)
    (hr : r = if F64.isInf v = true then F64.inf (F64.sign v) else F64.roundUnits (F64.sign v) num den)
    (hscale : F64.units v ≤ F64.units m → num ≤ F64.units b * den) : AtMost r b := by
  rw [hr]
  obtain hs | ⟨hi, hle⟩ := h.cases hm
  · rw [hs]
    split_ifs
    · exact .of_infinite_neg hb
    · exact .of_roundUnits hb hd fun hneg => by cases hneg
  · rw [if_neg (by simp [hi])]
    exact .of_roundUnits hb hd fun _ => hscale hle

theorem div_of_isPositive (n : NanBits) {v m : F64} (hv : F64.isNaN v = false) (hm : IsPositive m) :
    F64.div n v m = if F64.isInf v = true then F64.inf (F64.sign v)
      else F64.roundUnits (F64.sign v) (F64.units v * 2 ^ 1074) (F64.units m) := by
  obtain ⟨hmn, hmi⟩ := not_nan_of_finite hm.finite
  simp only [F64.div, hv, hmn, hmi, hm.not_neg, hm.ne_zero, Bool.or_self, Bool.false_eq_true, if_false, Bool.bne_false]

theorem mul_of_isPositive (p : NanBits) {v f : F64} (hv : F64.isNaN v = false) (hf : IsPositive f) :
    F64.mul p v f = if F64.isInf v = true then F64.inf (F64.sign v)
      else F64.roundUnits (F64.sign v) (F64.units v * F64.units f) (2 ^ 1074) := by
  obtain ⟨hfn, hfi⟩ := not_nan_of_finite hf.finite
  simp only [F64.mul, hv, hfn, hfi, hf.not_neg, hf.ne_zero, Bool.or_self, Bool.false_eq_true, if_false, Bool.bne_false]

theorem isPositive_one : IsPositive F64.one := ⟨by decide, by decide, by decide⟩

/-- Dividing by a positive maximum gives at most 1. -/
theorem AtMost.div {v m : F64} (hm : IsPositive m) (h : AtMost v m) (n : NanBits) : AtMost (F64.div n v m) F64.one :=
  h.scaled hm isPositive_one (units_pos hm.ne_zero) (div_of_isPositive n h.not_nan hm) fun hle => by
    rw [units_one, Nat.mul_comm]
    exact Nat.mul_le_mul_left _ hle

/-- Multiplying what is at most 1 by a positive factor gives at most the factor. -/
theorem AtMost.mul {q f : F64} (hf : IsPositive f) (h : AtMost q F64.one) (p : NanBits) : AtMost (F64.mul p q f) f :=
  h.scaled isPositive_one hf (Nat.two_pow_pos 1074) (mul_of_isPositive p h.not_nan hf) fun hle => by
    rw [units_one] at hle
    rw [Nat.mul_comm]
    exact Nat.mul_le_mul_left _ hle

/-- No element that is not above a positive maximum is rescaled above a positive factor (R216). -/
theorem normElem_not_gt (n p : NanBits) {v m f : F64} (hm : IsPositive m) (hf : IsPositive f)
    (h : F64.gt v m = false) : F64.gt (normElem n p v m f) f = false := by
  cases hv : F64.isNaN v with
  | true =>
    have hnan : F64.isNaN (normElem n p v m f) = true := isNaN_mul p _ f (.inl (isNaN_div n v m (.inl hv)))
    simp [F64.gt, hnan]
  | false =>
    have hle : AtMost v m := ⟨hv, (f64_gt_eq_false_iff hv (not_nan_of_finite hm.finite).1).1 h⟩
    have hres : AtMost (normElem n p v m f) f := (hle.div hm n).mul hf p
    exact (f64_gt_eq_false_iff hres.not_nan (not_nan_of_finite hf.finite).1).2 hres.key_le

/-- With a positive maximum and a positive factor the new maximum is the factor (R216). -/
theorem fmax_norm (nan : Nat → NanBits) {a : List F64} {m f : F64} (hmax : fmax a = some m) (hm : IsPositive m)
    (hf : IsPositive f) : fmax (Sys2Proof.Machine.norm nan a m f) = some f := by
  have hfn := (not_nan_of_finite hf.finite).1
  obtain ⟨k, hk, -, hle, -⟩ := fmax_eq_some_iff.1 hmax
  refine fmax_eq_of_largest ?_ hfn hf.ne_zero fun w hw => ?_
  · have hself : (Sys2Proof.Machine.norm nan a m f)[k]? = some f := by
      rw [getElem?_norm, hk, Option.map_some, normElem_self _ _ hm.finite hm.ne_zero hfn]
    exact List.mem_of_getElem? hself
  · obtain ⟨i, hi⟩ := List.mem_iff_getElem?.1 hw
    rw [getElem?_norm] at hi
    obtain ⟨v, hv, rfl⟩ := Option.map_eq_some_iff.1 hi
    exact normElem_not_gt _ _ hm hf (hle v (List.mem_of_getElem? hv))

theorem IsPositive.toRat_nonneg {v : F64} (h : IsPositive v) : 0 ≤ F64.toRat v := by
  rw [toRat_eq, h.not_neg, if_neg Bool.false_ne_true]
  positivity

/-- The new maximum is exact, so it is within every tolerance (R216, I12). -/
theorem normWithin {tol : ℚ} (htol : 0 ≤ tol) : NormWithin tol := by
  intro nan a m f hmax hmf hm0 hff hf0
  have hf := isPositive_of_gt_zero hff hf0
  refine ⟨f, fmax_norm nan hmax (isPositive_of_gt_zero hmf hm0) hf, ?_⟩
  rw [sub_self, abs_zero]
  exact mul_nonneg htol hf.toRat_nonneg

/-! ### MAX (R210, R220) -/

/-- RESULT is what its two halves were taken from (R36). -/
theorem result_of_halves {t : State} {r : F64} (hlo : t.resultLo = r.extractLsb' 0 32)
    (hhi : t.resultHi = r.extractLsb' 32 32) : t.result = r := by
  rw [State.result, hlo, hhi]
  exact (BitVec.extractLsb'_append_extractLsb'_eq_extractLsb' rfl).trans BitVec.extractLsb'_eq_self

/-- MAX leaves no byte open, whatever the host did while it ran. -/
theorem openAddrs_max (o : Operands) (d : Bool) : openAddrs .max o d = [] := by
  cases d <;> rfl

theorem outOf_max {j : Job} (hr : Ready .max j.latched) :
    outOf .max j = okResult ((fmax (j.f64Array j.latched.src.toNat)).getD F64.qNaN) := by
  rw [outOf, maxOut, after_checks hr]

theorem max_result {s : State} {j : Job} {d : Bool} (hb : s.engine = .busy j d) (hr : Ready .max j.latched) :
    ∃ t, exec .max s = .next t ∧ Succeeded s t ∧
      t.result = (fmax (j.f64Array j.latched.src.toNat)).getD F64.qNaN ∧ t.dmem = s.dmem := by
  obtain ⟨t, hexec, hsucc, hlo, hhi, hmem⟩ := okResult_result hb (outOf_max hr) (openAddrs_max j.latched d)
  exact ⟨t, hexec, hsucc, result_of_halves hlo hhi, hmem⟩

/-- An array has only NaN elements where each of its LEN addresses holds one. -/
theorem fmax_f64Array_eq_none_iff {j : Job} {base : Nat} : fmax (j.f64Array base) = none ↔
    ∀ i < j.latched.len.toNat, F64.isNaN (j.snap.readF64 (base + 8 * i)) = true := by
  simp [fmax_eq_none_iff, Job.f64Array]

/-! ### NORMALIZE (R213, R214, R218) -/

theorem outOf_normalize {j : Job} (hr : Ready .normalize j.latched) : outOf .normalize j =
    (maxToDivideBy (j.f64Array j.latched.dst.toNat) >>= fun m => okBytes j.latched.dst.toNat
      ((Sys2Proof.Machine.norm (Config.nanBits j 0) (j.f64Array j.latched.dst.toNat) m j.latched.factor).flatMap
        f64Bytes)) := by
  rw [outOf, normalizeOut, after_checks hr]

theorem getElem_norm_f64Array (nan : Nat → NanBits) (j : Job) (base : Nat) (m f : F64) {i : Nat}
    (hi : i < (Sys2Proof.Machine.norm nan (j.f64Array base) m f).length) :
    (Sys2Proof.Machine.norm nan (j.f64Array base) m f)[i] =
      normElem (nan (2 * i)) (nan (2 * i + 1)) (j.snap.readF64 (base + 8 * i)) m f := by
  simp [Sys2Proof.Machine.norm, Job.f64Array]

/-- NORMALIZE with a maximum to divide by rescales each element in place, with the NaN bits of its own two operations. -/
theorem normalize_result {s : State} {j : Job} {m : F64} (hb : s.engine = .busy j false) (hw : s.dmem.wf)
    (hr : Ready .normalize j.latched) (hmax : fmax (j.f64Array j.latched.dst.toNat) = some m)
    (hf : F64.isFinite m = true) (hz : F64.isZero m = false) :
    ∃ t, exec .normalize s = .next t ∧ Succeeded s t ∧ SameResult s t ∧
      (∀ i < j.latched.len.toNat, t.dmem.readF64 (j.latched.dst.toNat + 8 * i) =
        normElem (Config.nanBits j 0 (2 * i)) (Config.nanBits j 0 (2 * i + 1))
          (j.snap.readF64 (j.latched.dst.toNat + 8 * i)) m j.latched.factor) ∧
      SameOutside s t j.latched.dst.toNat (8 * j.latched.len.toNat) := by
  have hout := outOf_normalize hr
  rw [maxToDivideBy_ok_iff.2 ⟨hmax, hf, hz⟩, bind_pure_ok] at hout
  obtain ⟨t, hexec, hsucc, hresult, hmem⟩ := bytes_result hb hout rfl
  refine ⟨t, hexec, hsucc, hresult, fun i hi => ?_, same_outside hw hmem ?_⟩
  · rw [hmem, readF64_block hw _ _ (by simpa using hi), getElem_norm_f64Array]
  · rw [length_flatMap_const f64Bytes f64Bytes_length, norm_length, f64Array_length]

theorem maxToDivideBy_eq_error_iff {a : List F64} : maxToDivideBy a = .error .degenerateNormalization ↔
    degenerate (fmax a) = true := by
  unfold maxToDivideBy
  cases hf : fmax a with
  | none => simp [degenerate]
  | some m => cases hd : degenerate (some m) <;> simp [hd]

/-- NORMALIZE without a maximum to divide by fails, and no byte changes (R213, R218). -/
theorem normalize_degenerate {s : State} {j : Job} (hb : s.engine = .busy j false) (hr : Ready .normalize j.latched)
    (hd : degenerate (fmax (j.f64Array j.latched.dst.toNat)) = true) :
    ∃ t, exec .normalize s = .next t ∧ FailedAs s t .degenerateNormalization ∧ ∀ a, t.byte a = s.byte a := by
  have hout : outOf .normalize j = .error .degenerateNormalization := by
    rw [outOf_normalize hr, maxToDivideBy_eq_error_iff.2 hd, bind_error]
  refine ⟨_, exec_busy hb .normalize, failed_of hout, fun a => ?_⟩
  rw [State.byte, State.byte, complete_dmem, hout]
  rfl

/-! ### The worked example (R217) -/

/-- A quotient that is not NaN is the same with every choice of NaN bits. -/
theorem div_eq_of_not_nan {a b c : F64} (h : F64.div 0 a b = c) (hc : F64.isNaN c = false) (n : NanBits) :
    F64.div n a b = c :=
  (div_nanBits n a b (h ▸ hc)).trans h

/-- A product that is not NaN is the same with every choice of NaN bits. -/
theorem mul_eq_of_not_nan {a b c : F64} (h : F64.mul 0 a b = c) (hc : F64.isNaN c = false) (p : NanBits) :
    F64.mul p a b = c :=
  (mul_nanBits p a b (h ▸ hc)).trans h

theorem f64Array_of_len_three {j : Job} (h : j.latched.len = 3) (base : Nat) :
    j.f64Array base = [j.snap.readF64 base, j.snap.readF64 (base + 8), j.snap.readF64 (base + 16)] := by
  rw [Job.f64Array, h]
  rfl

end Sys2Proof.Machine

/-! ### The obligations -/

section
open Sys2Proof Sys2Proof.Machine

/-- Settles O41: MAX's completion puts the maximum in RESULT and touches no byte. -/
theorem maxWritesTheMaximum : Obligations.MaxWritesTheMaximum := by
  intro s j d hb hr
  obtain ⟨t, hexec, hsucc, hresult, hmem⟩ := max_result hb hr
  refine ⟨t, hexec, hsucc, ?_, fun a => by rw [State.byte, State.byte, hmem]⟩
  rw [hresult]
  cases fmax (j.f64Array j.latched.src.toNat) <;> rfl

/-- Settles O42: NORMALIZE's completion writes the block of rescaled elements. -/
theorem normalizeRescalesInPlace : Obligations.NormalizeRescalesInPlace := by
  intro s j m hb hw hr hmax hf hz dst
  obtain ⟨t, hexec, hsucc, hresult, helem, hframe⟩ := normalize_result hb hw hr hmax hf hz
  exact ⟨t, hexec, hsucc, hresult, fun i hi => ⟨_, _, helem i hi⟩, hframe⟩

/-- Settles O49: the statement writes out `IsFMax`. -/
theorem fmaxIsTheFirstLargestElement : Obligations.FmaxIsTheFirstLargestElement :=
  fun _ => ⟨fmax_eq_none_iff, fun _ => fmax_eq_some_iff⟩

/-- Settles O50: one fold over the whole list goes on, at each part's start, from the join of the parts before. -/
theorem fmaxByAnyPartition : Obligations.FmaxByAnyPartition :=
  ⟨foldl_fmaxJoin, fun _ _ => eq_of_not_gt⟩

/-- Settles O51: LEN = 0 is a bad shape; an array has no maximum exactly where it is all NaN; NORMALIZE divides by none of the
degenerate maxima. -/
theorem emptyAndDegenerateArrays : Obligations.EmptyAndDegenerateArrays := by
  refine ⟨fun i s j d hi hb hlen => ?_, fun s j d hb hr hnan => ?_, fun s j d hb hr hnum => ?_,
    fun s j hb hr hnan => ?_, fun s j m hb hr hmax hm => ?_⟩
  · have hshape : BadShape i j.latched := by rcases hi with rfl | rfl <;> exact hlen
    obtain ⟨t, hexec, hfail, -⟩ := badShapeFailsWithDimensionMismatch i s j d hb hshape
    exact ⟨t, hexec, hfail⟩
  · obtain ⟨t, hexec, hsucc, hresult, -⟩ := max_result hb hr
    refine ⟨t, hexec, hsucc, ?_⟩
    rw [hresult, fmax_f64Array_eq_none_iff.2 hnan]
    rfl
  · obtain ⟨t, hexec, -, hresult, -⟩ := max_result hb hr
    refine ⟨t, hexec, ?_⟩
    cases hmax : fmax (j.f64Array j.latched.src.toNat) with
    | none =>
      obtain ⟨i, hi, hv⟩ := hnum
      rw [fmax_f64Array_eq_none_iff.1 hmax i hi] at hv
      cases hv
    | some m => rw [hresult, hmax]; exact not_nan_of_fmax hmax
  · exact normalize_degenerate hb hr (by rw [fmax_f64Array_eq_none_iff.2 hnan]; rfl)
  · have hd : degenerate (fmax (j.f64Array j.latched.dst.toNat)) = true := by
      rw [hmax]
      rcases hm with hz | hi
      · simp [degenerate, hz]
      · have hfin : F64.isFinite m = false :=
          Bool.eq_false_iff.2 fun hfin => by rw [(not_nan_of_finite hfin).2] at hi; cases hi
        simp [degenerate, hfin]
    obtain ⟨t, hexec, hfail, hbytes⟩ := normalize_degenerate hb hr hd
    exact ⟨t, hexec, hfail, hfail.errcode, hbytes⟩

/-- Settles O52: the maximum divided by itself is 1, and no other element is rescaled above the factor. -/
theorem normalizedMaximumIsTheFactor : Obligations.NormalizedMaximumIsTheFactor :=
  ⟨fun n p _ _ hm hz hf => normElem_self n p hm hz hf,
    fun nan _ _ _ hmax hm hm0 hf hf0 => fmax_norm nan hmax (isPositive_of_gt_zero hm hm0) (isPositive_of_gt_zero hf hf0),
    normWithin (by norm_num [Config.normTolDefault])⟩

/-- Settles O53: no operation of the example is invalid, so each is one computation, whatever the NaN bits. -/
theorem normalizeWorkedExample : Obligations.NormalizeWorkedExample := by
  have hmax : fmax [0x3FF0000000000000, 0x4000000000000000, 0x4010000000000000] = some 0x4010000000000000 := by decide
  have hdiv1 := div_eq_of_not_nan (a := 0x3FF0000000000000) (b := 0x4010000000000000) (c := 0x3FD0000000000000)
    (by decide +kernel) (by decide)
  have hmul1 := mul_eq_of_not_nan (a := 0x3FD0000000000000) (b := 0x406FE00000000000) (c := 0x404FE00000000000)
    (by decide +kernel) (by decide)
  have hdiv2 := div_eq_of_not_nan (a := 0x4000000000000000) (b := 0x4010000000000000) (c := 0x3FE0000000000000)
    (by decide +kernel) (by decide)
  have hmul2 := mul_eq_of_not_nan (a := 0x3FE0000000000000) (b := 0x406FE00000000000) (c := 0x405FE00000000000)
    (by decide +kernel) (by decide)
  have hself (n p : NanBits) : normElem n p 0x4010000000000000 0x4010000000000000 0x406FE00000000000 =
    0x406FE00000000000 := normElem_self n p (by decide) (by decide) (by decide)
  refine ⟨⟨hmax, fun n => ⟨hdiv1 n, hmul1 n, hdiv2 n, hmul2 n, div_self_eq_one n (by decide) (by decide),
    one_mul_of_not_nan n (by decide)⟩⟩, ?_⟩
  intro s j hb hw hr hlen hfactor dst h0 h1 h2
  have harray : fmax (j.f64Array dst) = some 0x4010000000000000 := by
    rw [f64Array_of_len_three hlen, h0, h1, h2, hmax]
  obtain ⟨t, hexec, hsucc, -, helem, -⟩ := normalize_result hb hw hr harray (by decide) (by decide)
  have hlen3 : j.latched.len.toNat = 3 := by rw [hlen]; rfl
  rw [hlen3, hfactor] at helem
  refine ⟨t, hexec, hsucc, ?_, ?_, ?_⟩
  · have helem0 := helem 0 (by decide)
    rwa [Nat.mul_zero, Nat.add_zero, h0, normElem, hdiv1, hmul1] at helem0
  · have helem1 := helem 1 (by decide)
    rwa [Nat.mul_one, h1, normElem, hdiv2, hmul2] at helem1
  · have helem2 := helem 2 (by decide)
    rwa [show 8 * 2 = 16 from rfl, h2, hself] at helem2

end
end

section
/-! PROOFS, 60_exceptions.md. A failed completion (R236): the engine's turn ends with ERR exactly where its word's `Exec`
answers an error, and then it changes STATUS and FFT_EMBED's scratch (R193; log 15) and nothing else. -/

namespace Sys2Proof.Machine

/-! ### A turn that fails -/

/-- A Busy engine's turn on a word whose `Exec` answers an error is a failed completion with that error. -/
theorem afterTurn_failedAs {j : Job} {e : CmdError} (h : j.out = .error e) (s : State) (d : Bool) :
    FailedAs s (s.afterTurn j d) e := by
  unfold Job.out at h
  unfold State.afterTurn
  split at h
  · exact failed_of h
  · injection h with h
    exact h ▸ failWith_failedAs s .badCommand

/-- ERR rises only where `Exec` answers an error (R113). -/
theorem statusAfter_err {t : Status} (he : t.err = false) {out : CmdOut} (h : (statusAfter t out).err = true) :
    ∃ e, out = .error e := by
  cases out with
  | error e => exact ⟨e, rfl⟩
  | ok e => exact absurd (he.symm.trans h) Bool.false_ne_true

/-! ### The bytes a failure leaves alone -/

/-- Where the host wrote no DMEM while a command ran, its completion leaves open no byte but those of AUX outside SRC and
DST (R193; log 15). -/
theorem openAddrs_undisturbed_iff {i : Instr} {o : Operands} {a : Nat} : a ∈ openAddrs i o false ↔
    inRegion (auxRegion i o) a = true ∧ a < Config.dmemBytes ∧
      inRegion (srcRegion i o) a = false ∧ inRegion (dstRegion i o) a = false := by
  simp [openAddrs, scratchAddrs_iff]

/-- A failed turn keeps every byte that its command's completion does not leave open. -/
theorem afterTurn_byte_of_error {s : State} (hw : s.dmem.wf) {j : Job} {d : Bool} {e : CmdError} (h : j.out = .error e)
    {a : Nat} (ha : ∀ i, decode j.word = .ok i → a ∉ openAddrs i j.latched d) :
    (s.afterTurn j d).byte a = s.byte a := by
  unfold Job.out at h
  unfold State.afterTurn
  split at h
  · next i hi => rw [State.byte, complete_readByte hw _ _ _ _ (ha i hi), h, writtenBy, State.byte]
  · rfl

end Sys2Proof.Machine

/-! ### The obligations -/

section
open Sys2Proof Sys2Proof.Machine

/-- Settles O25: ERR is 0 while the command runs, so its `Exec` answered an error, and its writes are none. -/
theorem failedCommandChangesNothingElse : Obligations.FailedCommandChangesNothingElse := by
  intro s s0 t j d hinv hm hb hs herr
  rw [step_busyTurn hm hb] at hs
  injection hs with hs
  subst hs
  obtain ⟨rest, rfl⟩ := hm.sameButEvents
  obtain ⟨hdone0, herr0, -⟩ := hinv.busyClears (hinv.busy_of_engine hb)
  rw [afterTurn_status] at herr
  obtain ⟨e, he⟩ := statusAfter_err herr0 herr
  have hfail := afterTurn_failedAs he { s with events := rest } d
  refine ⟨by rw [hfail.status]; exact hdone0, ⟨e, hfail⟩, ?_⟩
  rintro rfl a ha
  refine afterTurn_byte_of_error (s := { s with events := rest }) hinv.dmemWf he fun i hi hopen => ?_
  obtain ⟨haux, -, hsrc, hdst⟩ := openAddrs_undisturbed_iff.1 hopen
  simpa [haux, hsrc, hdst] using ha i hi

end
end

section
/-! PROOFS, 70_reset_and_hazards.md. The soft reset as a step of the machine (R262, R263): a host write of CTRL with
SOFT_RESET set, on an Idle engine and on a Busy one. -/

namespace Sys2Proof.Machine

/-! ### The soft reset as a step -/

/-- A host write of CTRL with SOFT_RESET set answers the soft reset of the machine it reaches (R25, R262). -/
theorem step_softReset {s s0 : State} {v : Word} (h : HostWrites s s0 0x004 v) (h1 : v.getLsbD 1 = true) :
    step s = .next s0.softReset := by
  rw [step_hostWrites (r := .ctrl) h, State.writeCsr, writeCtrl_reset h1]

end Sys2Proof.Machine

/-! ### The obligations -/

section
open Sys2Proof Sys2Proof.Machine

/-- Settles O9: the write's step is the soft reset, whose drawn bytes lie in the regions of the aborted command that the
statement leaves open. -/
theorem softResetStep : Obligations.SoftResetStep :=
  fun _ s0 _ hwf hw h1 => ⟨s0.softReset, step_softReset hw h1, hw.softReset_done hwf⟩

end
end
